-- ==== Sys2Proof/Word.lean ====
section
/-! DEFINITION. The word types of the block (rule R10: every value is an unsigned integer of a stated
width, or a member of a closed enumeration, or a record of those). -/

namespace Sys2Proof

/-- One byte on the wire (rules R32, R104). -/
abbrev Byte := BitVec 8

/-- A 16-bit value: a CONF word (rules R9, R80). -/
abbrev Word := BitVec 16

end Sys2Proof
end

