-- ==== Sys2Proof/Syntax.lean ====
section
/-! DEFINITION. The instructions (the fourteen rows of spec/opcode_table.json), the two formats they
are encoded in, and the closed enumerations and records of 30_encoding.md (rules R80 to R102). -/

namespace Sys2Proof

/-- The rows of the opcode table: the twelve operations of rule R100, selected by `op`, and the two
command bytes of rule R98. No row has an operand field: operands travel on ports (rule R99). -/
inductive Instr where
  | decode
  | encode
  | merge
  | config
  | setConfig
  | statusDecode
  | magnetStatus
  | zmco
  | guardMangConfig
  | guardPosition
  | burnMangConfig
  | burnPosition
  | cmdBurnMangConfig
  | cmdBurnPosition
  deriving DecidableEq, Repr

/-- The rows of the table in its order. -/
def Instr.all : List Instr :=
  [.decode, .encode, .merge, .config, .setConfig, .statusDecode, .magnetStatus, .zmco,
   .guardMangConfig, .guardPosition, .burnMangConfig, .burnPosition, .cmdBurnMangConfig,
   .cmdBurnPosition]

/-- The two formats that carry a row of the table: `OPSEL`, 4 bits from HOST (rule R99), and
`BURNCMD`, 8 bits to the sensor (rule R98). -/
inductive InstrWord where
  | opsel (op : BitVec 4)
  | burncmd (cmd : Byte)
  deriving DecidableEq, Repr

/-- The seven fields of the configuration, in the source's list order (rules R35, R92). -/
inductive Field where
  | pm | hyst | outs | pwmf | sf | fth | wd
  deriving DecidableEq, Repr

/-- All seven fields. -/
def Field.all : List Field := [.pm, .hyst, .outs, .pwmf, .sf, .fth, .wd]

/-- Rule R85. -/
inductive PowerMode where
  | normal | lowPower1 | lowPower2 | lowPower3
  deriving DecidableEq, Repr

/-- Rule R86. -/
inductive Hysteresis where
  | hystOff | lsb1 | lsb2 | lsb3
  deriving DecidableEq, Repr

/-- Rule R87: three members; the pattern `0b11` is no member. -/
inductive OutputStage where
  | analogFullRange | analogReduced | digitalPwm
  deriving DecidableEq, Repr

/-- Rule R88. -/
inductive PwmFrequency where
  | hz115 | hz230 | hz460 | hz920
  deriving DecidableEq, Repr

/-- Rule R89. -/
inductive SlowFilter where
  | x16 | x8 | x4 | x2
  deriving DecidableEq, Repr

/-- Rule R90: eight members on three bits. -/
inductive FastFilterThreshold where
  | slowFilterOnly | fth1 | fth2 | fth3 | fth4 | fth5 | fth6 | fth7
  deriving DecidableEq, Repr

/-- Rule R91. -/
inductive WatchdogState where
  | wdOff | wdOn
  deriving DecidableEq, Repr

/-- A Configuration (rules R18, R101): a record of seven enumeration members, so that the illegal
record cannot be written down. -/
structure Configuration where
  pm   : PowerMode
  hyst : Hysteresis
  outs : OutputStage
  pwmf : PwmFrequency
  sf   : SlowFilter
  fth  : FastFilterThreshold
  wd   : WatchdogState
  deriving DecidableEq, Repr

/-- `CFGREC`, the record on the ports `cfg_in` and `res_cfg` (rule R101): seven separate fields, each
carrying a discriminant. On the port `outs = 0b11` can be driven; it is no Configuration. -/
structure CfgRec where
  pm   : BitVec 2
  hyst : BitVec 2
  outs : BitVec 2
  pwmf : BitVec 2
  sf   : BitVec 2
  fth  : BitVec 3
  wd   : BitVec 1
  deriving DecidableEq, Repr

/-- The magnet states (rule R94). -/
inductive Status where
  | noMagnet | magnetDetected | magnetTooStrong | magnetTooWeak
  deriving DecidableEq, Repr

end Sys2Proof
end

