-- ==== Sys2Proof/Config.lean ====
section
/-! DEFINITION. The parameters of an instance of the block (rule R7): their types. The default values
stand in Machine/Defaults.lean; what makes them well formed stands in WellFormed.lean. -/

namespace Sys2Proof

/-- The bit range `(hi, lo)` of one field inside the CONF word (rule R81). -/
structure FieldRange where
  hi : Nat
  lo : Nat
  deriving DecidableEq, Repr

/-- `CONF_LAYOUT` (rules R7, R81, R82): one range for each of the seven fields. -/
structure ConfLayout where
  pm   : FieldRange
  hyst : FieldRange
  outs : FieldRange
  pwmf : FieldRange
  sf   : FieldRange
  fth  : FieldRange
  wd   : FieldRange
  deriving DecidableEq, Repr

/-- The range of a field. -/
def ConfLayout.range (L : ConfLayout) : Field → FieldRange
  | .pm   => L.pm
  | .hyst => L.hyst
  | .outs => L.outs
  | .pwmf => L.pwmf
  | .sf   => L.sf
  | .fth  => L.fth
  | .wd   => L.wd

/-- `STATUS_LAYOUT` (rules R7, R93): the mask of the three relevant bits and the masked pattern of
each state. -/
structure StatusLayout where
  smask   : Byte
  pNone   : Byte
  pDet    : Byte
  pStrong : Byte
  pWeak   : Byte
  deriving DecidableEq, Repr

/-- The pattern of a state (rule R94). -/
def StatusLayout.pattern (L : StatusLayout) : Status → Byte
  | .noMagnet        => L.pNone
  | .magnetDetected  => L.pDet
  | .magnetTooStrong => L.pStrong
  | .magnetTooWeak   => L.pWeak

/-- A transport error: its 8-bit port code (rule R199) and whatever else tells it apart from others of
the same code. Every countable type with a port code for each of its values embeds here (log 3). -/
structure TransportError where
  code   : Byte
  detail : Nat
  deriving DecidableEq, Repr

/-- `E`, the type of the transport-defined error (rule R7), as a set of transport errors. `portCode`:
an error is its port code, the default of rule R7. `listed`: these errors and no others. `unbounded`:
any error. -/
inductive ErrorType where
  | portCode
  | listed (members : List TransportError)
  | unbounded
  deriving DecidableEq, Repr

/-- `te : E`. -/
def ErrorType.has (E : ErrorType) (te : TransportError) : Bool :=
  match E with
  | .portCode  => te.detail == 0
  | .listed ms => ms.contains te
  | .unbounded => true

/-- The parameters of rule R7. `devAddrW` is `DEV_ADDR_W`; a device address is a number that fits that
many bits (log 4). `errorType` is `E` (log 3). -/
structure Params where
  confLayout     : ConfLayout
  statusLayout   : StatusLayout
  zmcoLsb        : Nat
  addrZmco       : Byte
  addrConf       : Byte
  addrStatus     : Byte
  addrBurn       : Byte
  devAddrW       : Nat
  defaultDevAddr : Nat
  devAddr        : Nat
  errorType      : ErrorType
  deriving DecidableEq, Repr

end Sys2Proof
end

