-- ==== Sys2Proof/WellFormed.lean ====
section
/-! DEFINITION. Well-formedness: of an instruction, of the parameters of rule R7 (rules R82, R95), and
of a record on the port `cfg_in` (rule R101). -/

namespace Sys2Proof

/-- No row of the table has an operand field (rule R99), so there is nothing to check. -/
def Instr.wellFormed : Instr → Bool
  | .decode | .encode | .merge | .config | .setConfig | .statusDecode | .magnetStatus | .zmco
  | .guardMangConfig | .guardPosition | .burnMangConfig | .burnPosition
  | .cmdBurnMangConfig | .cmdBurnPosition => true

/-- The width of a field (rule R81). -/
def Field.width : Field → Nat
  | .pm | .hyst | .outs | .pwmf | .sf => 2
  | .fth => 3
  | .wd => 1

/-- A range lies inside bits 13:0 and has the width asked (rule R82, first two conditions). -/
def FieldRange.fits (r : FieldRange) (w : Nat) : Bool :=
  decide (r.lo ≤ r.hi) && decide (r.hi ≤ 13) && decide (r.hi - r.lo + 1 = w)

/-- Two ranges share no bit. -/
def FieldRange.disjoint (a b : FieldRange) : Bool :=
  decide (a.hi < b.lo) || decide (b.hi < a.lo)

/-- Rule R82: every range fits its field, and the ranges are pairwise disjoint. -/
def ConfLayout.wellFormed (L : ConfLayout) : Bool :=
  Field.all.all (fun f => (L.range f).fits f.width) &&
  Field.all.all (fun f => Field.all.all (fun g => f == g || (L.range f).disjoint (L.range g)))

/-- How many bits of a byte are set. -/
def bitsSet (b : Byte) : Nat := ((List.range 8).filter (fun i => b.getLsbD i)).length

/-- Rule R95: three bits in the mask, each pattern inside the mask, the four patterns distinct. -/
def StatusLayout.wellFormed (L : StatusLayout) : Bool :=
  decide (bitsSet L.smask = 3) &&
  [L.pNone, L.pDet, L.pStrong, L.pWeak].all (fun p => p &&& L.smask == p) &&
  decide [L.pNone, L.pDet, L.pStrong, L.pWeak].Nodup

/-- `E` is non-empty (rule R7). -/
def ErrorType.nonEmpty : ErrorType → Bool
  | .portCode  => true
  | .listed ms => !ms.isEmpty
  | .unbounded => true

/-- The constraints of rule R7's table. -/
def Params.wellFormed (p : Params) : Bool :=
  p.confLayout.wellFormed && p.statusLayout.wellFormed && decide (p.zmcoLsb ≤ 6) &&
  decide [p.addrZmco, p.addrConf, p.addrStatus, p.addrBurn].Nodup &&
  decide (1 ≤ p.devAddrW) && decide (p.defaultDevAddr < 2 ^ p.devAddrW) &&
  decide (p.devAddr < 2 ^ p.devAddrW) && p.errorType.nonEmpty

/-- Rule R101: `outs = 0b11` is not a Configuration; every other record is one. -/
def CfgRec.wellFormed (c : CfgRec) : Bool := c.outs != 3#2

end Sys2Proof
end

