-- ==== Sys2Proof/Decode.lean ====
section
/-! DEFINITION. The decoder of the two formats that carry a row of the opcode table (rules R98, R99,
R100), rejecting by name, and the encoder written from the same rules. -/

namespace Sys2Proof

/-- Why a word is no instruction. `reservedOp`: `op` 0x0, 0xD, 0xE, 0xF (rules R100, R105).
`undefinedCommand`: one of the other 254 bytes (rule R98). -/
inductive DecodeError where
  | reservedOp (op : BitVec 4)
  | undefinedCommand (cmd : Byte)
  deriving DecidableEq, Repr

/-- The `OPSEL` rows of rule R100's table; all four bits are compared (mask 0xF, rule R99). -/
def opselTable : List (BitVec 4 × Instr) :=
  [(0x1#4, .decode), (0x2#4, .encode), (0x3#4, .merge), (0x4#4, .config), (0x5#4, .setConfig),
   (0x6#4, .statusDecode), (0x7#4, .magnetStatus), (0x8#4, .zmco), (0x9#4, .guardMangConfig),
   (0xA#4, .guardPosition), (0xB#4, .burnMangConfig), (0xC#4, .burnPosition)]

/-- The `BURNCMD` rows of rule R98's table; all eight bits are compared (mask 0xFF). -/
def burncmdTable : List (Byte × Instr) :=
  [(0x40#8, .cmdBurnMangConfig), (0x80#8, .cmdBurnPosition)]

/-- The instruction a word stands for. -/
def decodeWord : InstrWord → Except DecodeError Instr
  | .opsel op =>
    match opselTable.find? (fun r => r.1 == op) with
    | some r => .ok r.2
    | none   => .error (.reservedOp op)
  | .burncmd c =>
    match burncmdTable.find? (fun r => r.1 == c) with
    | some r => .ok r.2
    | none   => .error (.undefinedCommand c)

/-- The word of an instruction (rules R98, R100). -/
def encodeWord : Instr → InstrWord
  | .decode            => .opsel 0x1#4
  | .encode            => .opsel 0x2#4
  | .merge             => .opsel 0x3#4
  | .config            => .opsel 0x4#4
  | .setConfig         => .opsel 0x5#4
  | .statusDecode      => .opsel 0x6#4
  | .magnetStatus      => .opsel 0x7#4
  | .zmco              => .opsel 0x8#4
  | .guardMangConfig   => .opsel 0x9#4
  | .guardPosition     => .opsel 0xA#4
  | .burnMangConfig    => .opsel 0xB#4
  | .burnPosition      => .opsel 0xC#4
  | .cmdBurnMangConfig => .burncmd 0x40#8
  | .cmdBurnPosition   => .burncmd 0x80#8

/-- The mnemonic of a row (rule R100, and the table's names of the two command bytes; the textual
syntax of rule R107 begins each line with it). -/
def mnemonic : Instr → String
  | .decode            => "DECODE"
  | .encode            => "ENCODE"
  | .merge             => "MERGE"
  | .config            => "CONFIG"
  | .setConfig         => "SET_CONFIG"
  | .statusDecode      => "STATUS_DECODE"
  | .magnetStatus      => "MAGNET_STATUS"
  | .zmco              => "ZMCO"
  | .guardMangConfig   => "GUARD_MANG_CONFIG"
  | .guardPosition     => "GUARD_POSITION"
  | .burnMangConfig    => "BURN_MANG_CONFIG"
  | .burnPosition      => "BURN_POSITION"
  | .cmdBurnMangConfig => "CMD_BURN_MANG_CONFIG"
  | .cmdBurnPosition   => "CMD_BURN_POSITION"

/-- A number read as an instruction word, bit 0 least significant. The formats need no tag to tell
them apart: an `OPSEL` value is below 16, and both defined `BURNCMD` bytes are not (log 16). -/
def wordOfBits (nbits w : Nat) : Option InstrWord :=
  if 2 ^ nbits ≤ w then none
  else if w < 16 then some (.opsel (BitVec.ofNat 4 w))
  else if w < 256 then some (.burncmd (BitVec.ofNat 8 w))
  else none

/-- What the decoder reads from an instruction whose bits are `w`, numbered as the opcode table
numbers them. -/
def decodeTableWord (nbits w : Nat) : Option Instr :=
  match wordOfBits nbits w with
  | none    => none
  | some iw =>
    match decodeWord iw with
    | .ok i    => some i
    | .error _ => none

end Sys2Proof
end

