-- ==== Sys2Proof/Machine/Parts.lean ====
section
/-! DEFINITION. The parts State is made of: phases, latches, result registers, the sensor's registers,
events, the input ports, and the values each has at reset (10_state.md). -/

namespace Sys2Proof.Machine

/-- The phases of the sequencer (rules R23, R24), in the place of a program counter (rules R17, R30); the
codes 11 to 15 have no member. -/
inductive Phase where
  | idle | exec | rdConf | wrConf | rdStatus | rdZmco | chkCnt | chkMag | wrBurn | settle | done
  deriving DecidableEq, Repr

/-- The operand latches (rule R25). -/
structure OperandLatches where
  op   : BitVec 4
  raw  : Word
  byte : Byte
  cfg  : CfgRec
  zin  : BitVec 2
  sin  : BitVec 2
  deriving DecidableEq, Repr

/-- The internal latches (rule R26): `cur` is cur_lat, `z` is z_lat, `sb` is sb_lat. -/
structure InternalLatches where
  cur : Word
  z   : BitVec 2
  sb  : Byte
  deriving DecidableEq, Repr

/-- The result registers (rules R27, R28). `none` is "no value", the spec's own state of a result
field that the last operation did not write. -/
structure ResultRegs where
  errCode : BitVec 4
  errInfo : Byte
  raw     : Option Word
  cfg     : Option Configuration
  status  : Option Status
  zmco    : Option (BitVec 2)
  deriving DecidableEq, Repr

/-- The four registers of SENSOR that the block reaches (rules R34 to R38). -/
structure SensorRegs where
  conf   : Word
  zmco   : Byte
  status : Byte
  burn   : Byte
  deriving DecidableEq, Repr

/-- The logical names of those registers (rules R50, R51). -/
inductive Reg where
  | zmco | conf | status | burn
  deriving DecidableEq, Repr

/-- The outcome of a read as an event records it (rules R16, R56). -/
inductive ReadOutcome where
  | ok (bytes : List Byte)
  | err (te : TransportError)
  deriving DecidableEq, Repr

/-- The outcome of a write as an event records it (rules R16, R57). -/
inductive WriteOutcome where
  | ok
  | err (te : TransportError)
  deriving DecidableEq, Repr

/-- The events of `hist` (rule R16): `Rd(reg, n, outcome)`, `Wr(reg, payload, outcome)`, `Dl(k)`. -/
inductive Event where
  | rd (reg : Byte) (n : Nat) (outcome : ReadOutcome)
  | wr (reg : Byte) (payload : List Byte) (outcome : WriteOutcome)
  | dl (ms : Nat)
  deriving DecidableEq, Repr

/-- The input ports HOST drives (rule R22). -/
structure HostPorts where
  rst      : Bool
  start    : Bool
  op       : BitVec 4
  rawIn    : Word
  byteIn   : Byte
  cfgIn    : CfgRec
  zmcoIn   : BitVec 2
  statusIn : BitVec 2
  deriving DecidableEq, Repr

/-- The response on the bus port (rules R32, R64, R233): not yet, Ok (a read then delivers what the
register holds), or a transport error `te`. After a failed write the register addressed holds `left`,
which may be anything (U6, log 10). -/
inductive BusReply where
  | pending
  | ok
  | err (te : TransportError) (left : Word)
  deriving DecidableEq, Repr

/-- What HOST drives and what the bus and delay ports answer in one step (rules R22, R32, R33). -/
structure Inputs where
  ports     : HostPorts
  bus       : BusReply
  delayDone : Bool
  deriving DecidableEq, Repr

/-- One move of the other three agents (rule R6): the inputs of a step, and, where the sensor's
registers have changed before it, what they then hold (rule R65: they may change between any two
transactions). -/
structure EnvMove where
  inputs : Inputs
  sensor : Option SensorRegs
  deriving DecidableEq, Repr

/-- A request on the bus port (rule R32). -/
inductive BusRequest where
  | writeRead (dev : Nat) (out : List Byte) (nIn : Nat)
  | write (dev : Nat) (out : List Byte)
  deriving DecidableEq, Repr

/-- What HOST and the two collaborators see of the block (rules R22, R32, R33). -/
structure Outputs where
  busy      : Bool
  done      : Bool
  errCode   : BitVec 4
  errInfo   : Byte
  resRaw    : Option Word
  resCfg    : Option CfgRec
  resStatus : Option (BitVec 2)
  resZmco   : Option (BitVec 2)
  busReq    : Option BusRequest
  delayReq  : Option Nat
  deriving DecidableEq, Repr

/-- DESIGN CHOICE (log 5): rule R41 leaves the operand latches unspecified at reset. -/
def resetLatches : OperandLatches := ⟨0, 0, 0, ⟨0, 0, 0, 0, 0, 0, 0⟩, 0, 0⟩

/-- DESIGN CHOICE (log 5): rule R41 leaves the internal latches unspecified at reset. -/
def resetInternal : InternalLatches := ⟨0, 0, 0⟩

/-- Rule R41: no error and no value in any `res_*`. It is also what the step that leaves IDLE makes of
the result registers (rules R24, R193). -/
def clearedResult : ResultRegs := ⟨0, 0, none, none, none, none⟩

/-- DESIGN CHOICE (log 6): rule R212 leaves the sensor's registers unspecified. -/
def powerOnSensor : SensorRegs := ⟨0, 0, 0, 0⟩

/-- HOST drives nothing: neither `rst` nor `start` (log 7). -/
def quietPorts : HostPorts := ⟨false, false, 0, 0, 0, ⟨0, 0, 0, 0, 0, 0, 0⟩, 0, 0⟩

/-- DESIGN CHOICE (log 6, log 7): at power-on HOST drives nothing and neither collaborator has
answered. -/
def powerOnInputs : Inputs := ⟨quietPorts, .pending, false⟩

end Sys2Proof.Machine
end

