-- ==== Sys2Proof/Machine/Operands.lean ====
section
/-! DEFINITION. Operand forms: the byte and mask primitives (rule R11), the discriminants of the
enumerations (rules R85 to R91), the port codes (rules R24, R92, R101, R102), and field extraction and
insertion (rule R120). -/

namespace Sys2Proof.Machine

/-- `be16(b0, b1)` (rule R11): two bytes in wire order, most significant first. -/
def be16 (b0 b1 : Byte) : Word := (b0.setWidth 16 <<< 8) ||| b1.setWidth 16

/-- `be_bytes16(v)` (rule R11). -/
def beBytes16 (v : Word) : List Byte := [(v >>> 8).setWidth 8, v.setWidth 8]

/-- The 16-bit value of the bytes a 2-byte read delivers (rule R56: exactly two). -/
def wordOfBytes (bs : List Byte) : Word := be16 (bs.getD 0 0) (bs.getD 1 0)

/-- The value of the byte a 1-byte read delivers (rule R56: exactly one). -/
def byteOfBytes (bs : List Byte) : Byte := bs.getD 0 0

/-- `FACTORY_MASK` (rule R11). -/
def factoryMask : Word := 0xC000#16

/-- `CODEC_MASK` (rule R11). -/
def codecMask : Word := 0x3FFF#16

/-- `mask12(v)` (rule R11), used by no operation. -/
def mask12 (v : Word) : Word := v &&& 0x0FFF#16

/-- `mask2(b)` (rules R11, R146), for a counter whose low bit is bit `lsb` of the byte. -/
def mask2 (lsb : Nat) (b : Byte) : BitVec 2 := (b >>> lsb).setWidth 2

/-- `extract` (rule R120): the `w` bits of `v` from bit `lo` up. -/
def extractBits (lo w : Nat) (v : Word) : BitVec w := (v >>> lo).setWidth w

/-- `insert` (rule R120): the number `n` moved to bit `lo`. -/
def insertBits (lo w : Nat) (n : BitVec w) : Word := n.setWidth 16 <<< lo

/-- `fmask(f)` (rule R82). -/
def fieldMask (L : ConfLayout) (f : Field) : Word :=
  insertBits (L.range f).lo f.width (BitVec.allOnes f.width)

/-- The field identifiers (rule R92). -/
def fieldId : Field → BitVec 3
  | .pm   => 0
  | .hyst => 1
  | .outs => 2
  | .pwmf => 3
  | .sf   => 4
  | .fth  => 5
  | .wd   => 6

/-- Rule R85. -/
def powerModeOf (n : BitVec 2) : PowerMode :=
  match n.toFin with
  | 0 => .normal
  | 1 => .lowPower1
  | 2 => .lowPower2
  | 3 => .lowPower3

/-- Rule R85. -/
def powerModeDisc : PowerMode → BitVec 2
  | .normal    => 0
  | .lowPower1 => 1
  | .lowPower2 => 2
  | .lowPower3 => 3

/-- Rule R86. -/
def hysteresisOf (n : BitVec 2) : Hysteresis :=
  match n.toFin with
  | 0 => .hystOff
  | 1 => .lsb1
  | 2 => .lsb2
  | 3 => .lsb3

/-- Rule R86. -/
def hysteresisDisc : Hysteresis → BitVec 2
  | .hystOff => 0
  | .lsb1    => 1
  | .lsb2    => 2
  | .lsb3    => 3

/-- Rule R87: undefined at 3. -/
def outputStageOf (n : BitVec 2) : Option OutputStage :=
  match n.toFin with
  | 0 => some .analogFullRange
  | 1 => some .analogReduced
  | 2 => some .digitalPwm
  | 3 => none

/-- Rule R87. -/
def outputStageDisc : OutputStage → BitVec 2
  | .analogFullRange => 0
  | .analogReduced   => 1
  | .digitalPwm      => 2

/-- Rule R88. -/
def pwmFrequencyOf (n : BitVec 2) : PwmFrequency :=
  match n.toFin with
  | 0 => .hz115
  | 1 => .hz230
  | 2 => .hz460
  | 3 => .hz920

/-- Rule R88. -/
def pwmFrequencyDisc : PwmFrequency → BitVec 2
  | .hz115 => 0
  | .hz230 => 1
  | .hz460 => 2
  | .hz920 => 3

/-- Rule R89. -/
def slowFilterOf (n : BitVec 2) : SlowFilter :=
  match n.toFin with
  | 0 => .x16
  | 1 => .x8
  | 2 => .x4
  | 3 => .x2

/-- Rule R89. -/
def slowFilterDisc : SlowFilter → BitVec 2
  | .x16 => 0
  | .x8  => 1
  | .x4  => 2
  | .x2  => 3

/-- Rule R90: total on three bits. -/
def fastFilterOf (n : BitVec 3) : FastFilterThreshold :=
  match n.toFin with
  | 0 => .slowFilterOnly
  | 1 => .fth1
  | 2 => .fth2
  | 3 => .fth3
  | 4 => .fth4
  | 5 => .fth5
  | 6 => .fth6
  | 7 => .fth7

/-- Rule R90. -/
def fastFilterDisc : FastFilterThreshold → BitVec 3
  | .slowFilterOnly => 0
  | .fth1 => 1
  | .fth2 => 2
  | .fth3 => 3
  | .fth4 => 4
  | .fth5 => 5
  | .fth6 => 6
  | .fth7 => 7

/-- Rule R91. -/
def watchdogOf (n : BitVec 1) : WatchdogState :=
  match n.toFin with
  | 0 => .wdOff
  | 1 => .wdOn

/-- Rule R91. -/
def watchdogDisc : WatchdogState → BitVec 1
  | .wdOff => 0
  | .wdOn  => 1

/-- The Configuration a record port carries (rule R101): none where `outs = 0b11`. -/
def configurationOf (r : CfgRec) : Option Configuration :=
  match outputStageOf r.outs with
  | none   => none
  | some o => some
      { pm   := powerModeOf r.pm
        hyst := hysteresisOf r.hyst
        outs := o
        pwmf := pwmFrequencyOf r.pwmf
        sf   := slowFilterOf r.sf
        fth  := fastFilterOf r.fth
        wd   := watchdogOf r.wd }

/-- The record port form of a Configuration (rule R101): each field its discriminant. -/
def cfgRecOf (c : Configuration) : CfgRec where
  pm   := powerModeDisc c.pm
  hyst := hysteresisDisc c.hyst
  outs := outputStageDisc c.outs
  pwmf := pwmFrequencyDisc c.pwmf
  sf   := slowFilterDisc c.sf
  fth  := fastFilterDisc c.fth
  wd   := watchdogDisc c.wd

/-- `of_stcode` (rules R102, R161): total on two bits. -/
def statusOfCode (n : BitVec 2) : Status :=
  match n.toFin with
  | 0 => .noMagnet
  | 1 => .magnetDetected
  | 2 => .magnetTooStrong
  | 3 => .magnetTooWeak

/-- `STCODE` (rule R102). -/
def statusCode : Status → BitVec 2
  | .noMagnet        => 0
  | .magnetDetected  => 1
  | .magnetTooStrong => 2
  | .magnetTooWeak   => 3

/-- The phase encoding (rule R24). -/
def phaseCode : Phase → BitVec 4
  | .idle     => 0
  | .exec     => 1
  | .rdConf   => 2
  | .wrConf   => 3
  | .rdStatus => 4
  | .rdZmco   => 5
  | .chkCnt   => 6
  | .chkMag   => 7
  | .wrBurn   => 8
  | .settle   => 9
  | .done     => 10

/-- The one-byte wire address of a register (rules R7, R59). -/
def regAddr (p : Params) : Reg → Byte
  | .zmco   => p.addrZmco
  | .conf   => p.addrConf
  | .status => p.addrStatus
  | .burn   => p.addrBurn

/-- The length of a register on the wire (rules R34, R51). -/
def regLen : Reg → Nat
  | .conf                    => 2
  | .zmco | .status | .burn  => 1

/-- What a register holds, as the bytes a read of it delivers in wire order (rules R52, R55). -/
def regBytes (r : SensorRegs) : Reg → List Byte
  | .zmco   => [r.zmco]
  | .conf   => beBytes16 r.conf
  | .status => [r.status]
  | .burn   => [r.burn]

/-- The sensor with one register replaced: "Writing CONF replaces its value" (rule R58); for the
1-byte registers the low byte of `v`. -/
def regStore (r : SensorRegs) (v : Word) : Reg → SensorRegs
  | .zmco   => { r with zmco := v.setWidth 8 }
  | .conf   => { r with conf := v }
  | .status => { r with status := v.setWidth 8 }
  | .burn   => { r with burn := v.setWidth 8 }

/-- The payload of a write (rule R57): one byte, or two, most significant first. -/
def regPayload (v : Word) (r : Reg) : List Byte :=
  if regLen r = 1 then [v.setWidth 8] else beBytes16 v

end Sys2Proof.Machine
end

