-- ==== Sys2Proof/Machine/Flags.lean ====
section
/-! DEFINITION. Flags. The block keeps no condition code (rule R31); the only flags are the three
magnet flags of the sensor's STATUS byte. Here are the error values (rules R180 to R187), the status
decoder over those flags (rules R140, R143) and the codes errors have on the ports (rules R181, R199). -/

namespace Sys2Proof.Machine

/-- The errors of rule R181's table (code 0 is no error). -/
inductive BlockError where
  | transport (te : TransportError)
  | codecBitPattern (field : Field) (raw : BitVec 3)
  | statusBitPattern (byte : Byte)
  | persistenceExhausted
  | maximumPersistsReached
  | magnetRequired
  | illegalOperation (op : BitVec 4)
  | illegalOperand
  deriving DecidableEq, Repr

/-- `err_code` (rule R181). -/
def errorCode : BlockError → BitVec 4
  | .transport _            => 1
  | .codecBitPattern _ _    => 2
  | .statusBitPattern _     => 3
  | .persistenceExhausted   => 4
  | .maximumPersistsReached => 5
  | .magnetRequired         => 6
  | .illegalOperation _     => 7
  | .illegalOperand         => 8

/-- `err_info` (rule R199). -/
def errorInfo : BlockError → Byte
  | .transport te           => te.code
  | .codecBitPattern f raw  => (fieldId f).setWidth 8 <<< 3 ||| raw.setWidth 8
  | .statusBitPattern b     => b
  | .persistenceExhausted   => 0
  | .maximumPersistsReached => 0
  | .magnetRequired         => 0
  | .illegalOperation op    => op.setWidth 8
  | .illegalOperand         => 0

/-- `status_decode` (rule R140). The error carries the whole byte (D5, log 22). -/
def statusDecode (L : StatusLayout) (b : Byte) : Except BlockError Status :=
  if b &&& L.smask = L.pNone then .ok .noMagnet
  else if b &&& L.smask = L.pDet then .ok .magnetDetected
  else if b &&& L.smask = L.pStrong then .ok .magnetTooStrong
  else if b &&& L.smask = L.pWeak then .ok .magnetTooWeak
  else .error (.statusBitPattern b)

/-- `is_detected` (rule R143; D12, log 21): only the member `MagnetDetected`. -/
def isDetected (s : Status) : Bool := s == .magnetDetected

end Sys2Proof.Machine
end

