-- ==== Sys2Proof/Machine/Checks.lean ====
section
/-! DEFINITION. The guard's precondition functions (rules R156 to R159): pure functions of the values
already read, returning a verdict. -/

namespace Sys2Proof.Machine

/-- `check_mang_config` (rule R156): ZMCO == 0. -/
def checkMangConfig (z : BitVec 2) : Except BlockError Unit :=
  if z ≠ 0 then .error .persistenceExhausted else .ok ()

/-- `check_position_counter` (rule R157): ZMCO < 3. -/
def checkPositionCounter (z : BitVec 2) : Except BlockError Unit :=
  if 3 ≤ z then .error .maximumPersistsReached else .ok ()

/-- `check_position_magnet` (rule R158): magnet currently detected. -/
def checkPositionMagnet (s : Status) : Except BlockError Unit :=
  if isDetected s then .ok () else .error .magnetRequired

/-- `guard_position` (rule R159): counter first, then magnet. -/
def guardPosition (z : BitVec 2) (s : Status) : Except BlockError Unit :=
  match checkPositionCounter z with
  | .error e => .error e
  | .ok ()   => checkPositionMagnet s

end Sys2Proof.Machine
end

