-- ==== Sys2Proof/Machine/ConfWord.lean ====
section
/-! DEFINITION. The configuration codec as pure functions of an arbitrary layout (rules R120 to R123,
R130, R131): decode, encode and the read-modify-write merge. -/

namespace Sys2Proof.Machine

/-- `decode` (rule R121). Bits 15:14 are not read, and there is no default member (rule R129). -/
def decodeConf (L : ConfLayout) (v : Word) : Except BlockError Configuration :=
  match outputStageOf (extractBits L.outs.lo 2 v) with
  | none   => .error (.codecBitPattern .outs ((extractBits L.outs.lo 2 v).setWidth 3))
  | some o => .ok
      { pm   := powerModeOf (extractBits L.pm.lo 2 v)
        hyst := hysteresisOf (extractBits L.hyst.lo 2 v)
        outs := o
        pwmf := pwmFrequencyOf (extractBits L.pwmf.lo 2 v)
        sf   := slowFilterOf (extractBits L.sf.lo 2 v)
        fth  := fastFilterOf (extractBits L.fth.lo 3 v)
        wd   := watchdogOf (extractBits L.wd.lo 1 v) }

/-- `encode` (rule R122): total; bits 15:14 of the result are 0 under a well-formed layout. -/
def encodeConf (L : ConfLayout) (c : Configuration) : Word :=
  insertBits L.pm.lo 2 (powerModeDisc c.pm) |||
  insertBits L.hyst.lo 2 (hysteresisDisc c.hyst) |||
  insertBits L.outs.lo 2 (outputStageDisc c.outs) |||
  insertBits L.pwmf.lo 2 (pwmFrequencyDisc c.pwmf) |||
  insertBits L.sf.lo 2 (slowFilterDisc c.sf) |||
  insertBits L.fth.lo 3 (fastFilterDisc c.fth) |||
  insertBits L.wd.lo 1 (watchdogDisc c.wd)

/-- `merge` (rule R123): the top two bits of the word observed, the low fourteen of the encoding. -/
def mergeConf (L : ConfLayout) (cur : Word) (c : Configuration) : Word :=
  (cur &&& factoryMask) ||| encodeConf L c

end Sys2Proof.Machine
end

