-- ==== Sys2Proof/Machine/Defaults.lean ====
section
/-! DEFINITION. The constants the source fixes (rule R8) and the default values of the parameters
(rule R7, log 2). -/

namespace Sys2Proof.Machine

/-- `CMD_BURN_MANG_CONFIG` (rule R8): "command byte `0x40` (angle+config)". -/
def cmdMangConfigByte : Byte := 0x40#8

/-- `CMD_BURN_POSITION` (rule R8): "`0x80` (position)". -/
def cmdPositionByte : Byte := 0x80#8

/-- `BURN_SETTLE_MS` (rule R8). -/
def burnSettleMs : Nat := 1

/-- `LAYOUT_DOC`, the default `CONF_LAYOUT` (rule R83, D1, log 2). -/
def layoutDoc : ConfLayout where
  pm   := ⟨13, 12⟩
  hyst := ⟨11, 10⟩
  outs := ⟨9, 8⟩
  pwmf := ⟨7, 6⟩
  sf   := ⟨5, 4⟩
  fth  := ⟨3, 1⟩
  wd   := ⟨0, 0⟩

/-- `LAYOUT_DS`, the alternative (rule R84, D1, log 2). -/
def layoutDs : ConfLayout where
  pm   := ⟨1, 0⟩
  hyst := ⟨3, 2⟩
  outs := ⟨5, 4⟩
  pwmf := ⟨7, 6⟩
  sf   := ⟨9, 8⟩
  fth  := ⟨12, 10⟩
  wd   := ⟨13, 13⟩

/-- `STATUS_ONEHOT_543`, the default `STATUS_LAYOUT` (rule R96, D4, log 2). -/
def statusOneHot543 : StatusLayout where
  smask   := 0x38#8
  pNone   := 0x00#8
  pDet    := 0x20#8
  pStrong := 0x08#8
  pWeak   := 0x10#8

/-- The defaults of rule R7's table (D1, D4, D6, D7, D8, D11, log 2). -/
def defaultParams : Params where
  confLayout     := layoutDoc
  statusLayout   := statusOneHot543
  zmcoLsb        := 0
  addrZmco       := 0x00#8
  addrConf       := 0x07#8
  addrStatus     := 0x0B#8
  addrBurn       := 0xFF#8
  devAddrW       := 7
  defaultDevAddr := 0x36
  devAddr        := 0x36
  errorType      := .portCode

end Sys2Proof.Machine
end

