-- ==== Sys2Proof/Machine/State.lean ====
section
/-! DEFINITION. The state of the machine (rule R20), its reset value (rule R41), and the reasons a
step can stop. -/

namespace Sys2Proof.Machine

/-- Rule R20: (a) block state: `devAddr`, `phase`, `latches`, `internal`, `result`; (b) environment
state: `sensor`; (c) the model's record: `hist`. The inputs of the step to come and of the steps after
it (`inputs`, `future`: rules R6, R22, R32, R33, log 7) and the parameters of the instance (`params`:
rule R7, log 1) ride along as plain data, so that a statement about every state is a statement about
every HOST, every SENSOR, every DELAY and every instance.

There is no register file and no program counter (rules R17, R29, R30): a state element is read and
written by its name, and `phase` stands in the program counter's place. -/
structure State where
  params   : Params
  devAddr  : Nat
  phase    : Phase
  latches  : OperandLatches
  internal : InternalLatches
  result   : ResultRegs
  sensor   : SensorRegs
  hist     : List Event
  inputs   : Inputs
  future   : List EnvMove
  deriving DecidableEq, Repr

/-- The block has no fault of its own (rule R233: "there is none"); error results are next states. -/
inductive Fault where
  /-- Raised by a meaning called in a phase that is not in its operation's sequence (rules R24, R170),
  or in a phase that needs a Configuration while `cfg_lat` holds none (rules R101, R189): the spec has
  no transition there, so the machine is stuck. No run reaches it (log 13). Safe. -/
  | noTransition
  deriving DecidableEq, Repr

/-- No instruction is refused; see NOTES.md, Stops. -/
inductive Refusal where
  /-- Raised by an arm of exec that has no meaning yet; no arm is left so. Safe. -/
  | notModelled (mnemonic : String)
  deriving DecidableEq, Repr

/-- The state right after the power-on reset (rules R41, R210): `dev_addr` is `DEV_ADDR`, `phase` is
IDLE, the result registers are cleared, `hist` is empty. -/
def State.reset : State where
  params   := defaultParams
  devAddr  := defaultParams.devAddr
  phase    := .idle
  latches  := resetLatches
  internal := resetInternal
  result   := clearedResult
  sensor   := powerOnSensor
  hist     := []
  inputs   := powerOnInputs
  future   := []

end Sys2Proof.Machine
end

