-- ==== Sys2Proof/Machine/Ops.lean ====
section
/-! DEFINITION. The named operations every meaning is written with: starting an operation, ending it
(the error entry of rule R190 and the Ok ending of rule R15), the two access primitives and the delay,
the return to IDLE, reset, what the sequencer fetches, and the passing of a step in the environment. -/

namespace Sys2Proof.Machine

/-- The outcome of a step of this machine. -/
abbrev StepOutcome := Host.Outcome State Fault Refusal

/-- No row of rules R24 and R170 applies (log 13). -/
def noTransition : StepOutcome := .fault .noTransition

/-! ### Small updates -/

/-- `phase <- P`, the one control transfer (rule R17). The operations that write `phase` together with
other elements are `endWith`, `startOp` and `resetBlock`. -/
def setPhase (p : Phase) (s : State) : State := { s with phase := p }

/-- Append one event to `hist` (rules R16, R42). -/
def record (e : Event) (s : State) : State := { s with hist := s.hist ++ [e] }

/-- Write cur_lat (rule R26). -/
def setCur (v : Word) (s : State) : State := { s with internal := { s.internal with cur := v } }

/-- Write z_lat (rule R26). -/
def setZ (z : BitVec 2) (s : State) : State := { s with internal := { s.internal with z := z } }

/-- Write sb_lat (rule R26). -/
def setSb (b : Byte) (s : State) : State := { s with internal := { s.internal with sb := b } }

/-- A register of SENSOR comes to hold `v`. -/
def storeReg (r : Reg) (v : Word) (s : State) : State := { s with sensor := regStore s.sensor v r }

/-! ### The end of an operation -/

/-- Enter DONE with the result registers at `r` (rule R27). -/
def endWith (r : ResultRegs) (s : State) : State := { s with result := r, phase := .done }

/-- `raise` (rules R15, R190): write `err_code` and `err_info`, leave every `res_*` without a value, go
to DONE; save nothing, change nothing else. -/
def raise (e : BlockError) (s : State) : State :=
  endWith ⟨errorCode e, errorInfo e, none, none, none, none⟩ s

/-- `return Ok()`: no result field holds a value (rule R28). -/
def endOk (s : State) : State := endWith clearedResult s

/-- `return Ok(res_raw)`. -/
def endRaw (v : Word) (s : State) : State := endWith { clearedResult with raw := some v } s

/-- `return Ok(res_cfg)`. -/
def endCfg (c : Configuration) (s : State) : State := endWith { clearedResult with cfg := some c } s

/-- `return Ok(res_status)`. -/
def endStatus (t : Status) (s : State) : State := endWith { clearedResult with status := some t } s

/-- `return Ok(res_zmco)`. -/
def endZmco (z : BitVec 2) (s : State) : State := endWith { clearedResult with zmco := some z } s

/-- From DONE to IDLE; the result registers stay (rules R193, R170's last row). -/
def finish (s : State) : State := setPhase .idle s

/-! ### The start of an operation -/

/-- The operand latches take what the ports of the same name carry (rule R25). -/
def latchPorts (p : HostPorts) : OperandLatches :=
  ⟨p.op, p.rawIn, p.byteIn, p.cfgIn, p.zmcoIn, p.statusIn⟩

/-- The step that leaves IDLE (rules R24, R25, R193): latch the operands, clear the results, go to the
operation's first phase. -/
def startOp (p : Phase) (s : State) : State :=
  { s with latches := latchPorts s.inputs.ports, result := clearedResult, phase := p }

/-- The start of an operation that reads `cfg_lat` (rule R189): a record that is no Configuration is
refused before anything else. -/
def startCfgOp (p : Phase) (s : State) : State :=
  if s.inputs.ports.cfgIn.wellFormed then startOp p s
  else raise .illegalOperand (startOp .done s)

/-- `start` with a reserved `op` (rule R188). -/
def startIllegal (s : State) : State :=
  raise (.illegalOperation s.inputs.ports.op) (startOp .done s)

/-! ### The access primitives and the delay -/

/-- The bus request of `MemRead` (rules R32, R56). -/
def readRequest (s : State) (r : Reg) : BusRequest :=
  .writeRead s.devAddr [regAddr s.params r] (regLen r)

/-- The bus request of `MemWrite` (rules R32, R57). -/
def writeRequest (s : State) (r : Reg) (v : Word) : BusRequest :=
  .write s.devAddr (regAddr s.params r :: regPayload v r)

/-- `MemRead` (rule R56), `n` being the register's own length (rule R54). None: the transport has not
answered yet. On Ok the bytes are those the register holds when the transaction reaches it. -/
def memRead (r : Reg) (s : State) : Option (ReadOutcome × State) :=
  match s.inputs.bus with
  | .pending  => none
  | .ok       =>
    some (.ok (regBytes s.sensor r),
      record (.rd (regAddr s.params r) (regLen r) (.ok (regBytes s.sensor r))) s)
  | .err te _ => some (.err te, record (.rd (regAddr s.params r) (regLen r) (.err te)) s)

/-- `MemWrite` (rule R57). None: the transport has not answered yet. On Ok the register holds the value
written (rule R58); after an error it holds anything (rule R64, U6, log 10). -/
def memWrite (r : Reg) (v : Word) (s : State) : Option (WriteOutcome × State) :=
  match s.inputs.bus with
  | .pending     => none
  | .ok          =>
    some (.ok, storeReg r v (record (.wr (regAddr s.params r) (regPayload v r) .ok) s))
  | .err te left =>
    some (.err te, storeReg r left (record (.wr (regAddr s.params r) (regPayload v r) (.err te)) s))

/-- `DelayMs` (rule R200). None: the wait is not over yet. -/
def delayMs (k : Nat) (s : State) : Option State :=
  if s.inputs.delayDone then some (record (.dl k) s) else none

/-- A read phase (rules R15, R24): wait, or end with Transport, or go on with the bytes. -/
def readPhase (r : Reg) (go : List Byte → State → State) (s : State) : StepOutcome :=
  match memRead r s with
  | none                  => .next s
  | some (.err te, t)     => .next (raise (.transport te) t)
  | some (.ok bytes, t)   => .next (go bytes t)

/-- A write phase (rules R15, R24). -/
def writePhase (r : Reg) (v : Word) (go : State → State) (s : State) : StepOutcome :=
  match memWrite r v s with
  | none              => .next s
  | some (.err te, t) => .next (raise (.transport te) t)
  | some (.ok, t)     => .next (go t)

/-- RD_CONF (rules R24, R26): cur_lat takes the word read. -/
def rdConf (p : Phase) (s : State) : StepOutcome :=
  readPhase .conf (fun bs t => setPhase p (setCur (wordOfBytes bs) t)) s

/-- RD_STATUS (rules R24, R26): sb_lat takes the byte read. -/
def rdStatus (p : Phase) (s : State) : StepOutcome :=
  readPhase .status (fun bs t => setPhase p (setSb (byteOfBytes bs) t)) s

/-- RD_ZMCO (rules R24, R26): z_lat takes the counter masked out of the byte read. -/
def rdZmco (go : BitVec 2 → State → State) (s : State) : StepOutcome :=
  readPhase .zmco (fun bs t =>
    go (mask2 s.params.zmcoLsb (byteOfBytes bs)) (setZ (mask2 s.params.zmcoLsb (byteOfBytes bs)) t)) s

/-- WR_BURN (rules R162, R163, R170, R173): write the command byte; SETTLE only after Ok. -/
def wrBurn (cmd : Byte) (s : State) : StepOutcome :=
  writePhase .burn (cmd.setWidth 16) (setPhase .settle) s

/-- SETTLE (rules R167, R200): present Ok only when the delay has returned. -/
def settleDelay (s : State) : StepOutcome :=
  match delayMs burnSettleMs s with
  | none   => .next s
  | some t => .next (endOk t)

/-! ### Reset, fetch, and the environment's side of a step -/

/-- Reset (rules R41, R42, R210, R214; the latches: log 5, log 11): the block state at its reset value,
`hist`, the sensor and the environment untouched. -/
def resetBlock (s : State) : State :=
  { s with
    devAddr  := s.params.devAddr
    phase    := .idle
    latches  := resetLatches
    internal := resetInternal
    result   := clearedResult }

/-- The command byte the sequencer puts out in WR_BURN (rule R170): `0x40` for `BURN_MANG_CONFIG`,
`0x80` for `BURN_POSITION`, none for any other operation. -/
def burnCommand (op : BitVec 4) : Option Byte :=
  match decodeWord (.opsel op) with
  | .ok .burnMangConfig => some cmdMangConfigByte
  | .ok .burnPosition   => some cmdPositionByte
  | _                   => none

/-- What the sequencer runs in this step: at IDLE the operation on the `op` port if `start` is 1 (rule
R99), in WR_BURN the command byte (log 15), at DONE nothing, elsewhere the operation latched. -/
def fetchWord (s : State) : Option InstrWord :=
  match s.phase with
  | .idle   => if s.inputs.ports.start then some (.opsel s.inputs.ports.op) else none
  | .wrBurn =>
    match burnCommand s.latches.op with
    | some c => some (.burncmd c)
    | none   => some (.opsel s.latches.op)
  | .done   => none
  | .exec | .rdConf | .wrConf | .rdStatus | .rdZmco | .chkCnt | .chkMag | .settle =>
    some (.opsel s.latches.op)

/-- A step in which nothing is fetched: DONE returns to IDLE (rule R193), IDLE waits (rule R24). -/
def noFetch (s : State) : State := if s.phase = .done then finish s else s

/-- A step whose word is no instruction: at IDLE `IllegalOperation` (rule R188); a reserved `op` never
stands in op_lat in any other phase but DONE (log 13). -/
def undecodable (s : State) : StepOutcome :=
  if s.phase = .idle then .next (startIllegal s) else noTransition

/-- One step of the block, `run` being what it does with an instruction (rules R24, R210: `rst` has
priority over everything). DESIGN CHOICE (log 26): where a burn write failed or a reset cut the hold
short, HOST owes the 1 ms (rule R224); U5 lets a model assume that of HOST or drop it, and the model
drops it: HOST may start the next operation at the next IDLE. -/
def blockStep (run : Instr → State → StepOutcome) (s : State) : StepOutcome :=
  if s.inputs.ports.rst then .next (resetBlock s)
  else
    match fetchWord s with
    | none   => .next (noFetch s)
    | some w =>
      match decodeWord w with
      | .ok i    => run i s
      | .error _ => undecodable s

/-- The other agents' move between two steps (log 7): the next record of `future`; when there is none,
HOST drives nothing and SENSOR and DELAY go on as they are. -/
def environmentMove (s : State) : State :=
  match s.future with
  | []        => { s with inputs := { s.inputs with ports := quietPorts } }
  | m :: rest => { s with inputs := m.inputs, sensor := m.sensor.getD s.sensor, future := rest }

/-- The environment's move follows the block's. -/
def afterBlock : StepOutcome → StepOutcome
  | .next s    => .next (environmentMove s)
  | .fault r   => .fault r
  | .refused r => .refused r

/-- The burn `op` in WR_BURN, with no reset and the transport answering (log 16). -/
def placeBurn (op : BitVec 4) (s : State) : State :=
  { s with
    phase   := .wrBurn
    latches := { s.latches with op := op }
    inputs  := { s.inputs with ports := { s.inputs.ports with rst := false }, bus := .ok } }

/-- The state in which the next step runs the word (log 16): an operation is started at IDLE; a command
byte stands in WR_BURN of the burn that issues it, with the transport answering. DESIGN CHOICE (log 16):
no burn issues a byte other than `0x40` and `0x80` and it has no meaning (rule R98, U7), so placing one
leaves the state as it is. -/
def placeWord (w : InstrWord) (s : State) : State :=
  match w with
  | .opsel op =>
    { s with
      phase  := .idle
      inputs := { s.inputs with ports := { s.inputs.ports with rst := false, start := true, op := op } } }
  | .burncmd c =>
    if c = cmdMangConfigByte then placeBurn 0xB#4 s
    else if c = cmdPositionByte then placeBurn 0xC#4 s
    else s

/-! ### What the other agents see (rules R22, R32, R33) -/

/-- The word SET_CONFIG writes in WR_CONF (rule R125): a function of cur_lat and cfg_lat, so no latch
holds it (log 14). -/
def mergedWord (s : State) : Option Word :=
  match configurationOf s.latches.cfg with
  | some c => some (mergeConf s.params.confLayout s.internal.cur c)
  | none   => none

/-- The request on the bus port (rules R24, R32, R54); none while `rst` is held (rule R213). -/
def busRequest (s : State) : Option BusRequest :=
  if s.inputs.ports.rst then none
  else
    match s.phase with
    | .rdConf   => some (readRequest s .conf)
    | .rdStatus => some (readRequest s .status)
    | .rdZmco   => some (readRequest s .zmco)
    | .wrConf   => (mergedWord s).map (writeRequest s .conf)
    | .wrBurn   => (burnCommand s.latches.op).map (fun c => writeRequest s .burn (c.setWidth 16))
    | .idle | .exec | .chkCnt | .chkMag | .settle | .done => none

/-- The request on the delay port (rule R33). -/
def delayRequest (s : State) : Option Nat :=
  if s.inputs.ports.rst then none
  else if s.phase = .settle then some burnSettleMs else none

/-- `busy` (rule R22). -/
def busy (s : State) : Bool := s.phase != .idle

/-- `done` (rule R22). -/
def isDone (s : State) : Bool := s.phase == .done

/-- Everything the block drives. -/
def outputs (s : State) : Outputs where
  busy      := busy s
  done      := isDone s
  errCode   := s.result.errCode
  errInfo   := s.result.errInfo
  resRaw    := s.result.raw
  resCfg    := s.result.cfg.map cfgRecOf
  resStatus := s.result.status.map statusCode
  resZmco   := s.result.zmco
  busReq    := busRequest s
  delayReq  := delayRequest s

end Sys2Proof.Machine
end

