-- ==== Sys2Proof/Machine/Codec.lean ====
section
/-! DEFINITION. The configuration codec's five operations (40_codec.md, rules R121 to R125). -/

namespace Sys2Proof.Machine

/-- The end of DECODE and CONFIG: the Configuration, or the codec error (rules R121, R124). -/
def endDecoded (r : Except BlockError Configuration) (s : State) : State :=
  match r with
  | .ok c    => endCfg c s
  | .error e => raise e s

/-- `DECODE` (rule R121): IDLE, EXEC, DONE. -/
def execDecode (s : State) : StepOutcome :=
  match s.phase with
  | .idle => .next (startOp .exec s)
  | .exec => .next (endDecoded (decodeConf s.params.confLayout s.latches.raw) s)
  | .done => .next (finish s)
  | .rdConf | .wrConf | .rdStatus | .rdZmco | .chkCnt | .chkMag | .wrBurn | .settle => noTransition

/-- `ENCODE` (rule R122): IDLE, EXEC, DONE; IllegalOperand at start (rule R189). -/
def execEncode (s : State) : StepOutcome :=
  match s.phase with
  | .idle => .next (startCfgOp .exec s)
  | .exec =>
    match configurationOf s.latches.cfg with
    | some c => .next (endRaw (encodeConf s.params.confLayout c) s)
    | none   => noTransition
  | .done => .next (finish s)
  | .rdConf | .wrConf | .rdStatus | .rdZmco | .chkCnt | .chkMag | .wrBurn | .settle => noTransition

/-- `MERGE` (rule R123): IDLE, EXEC, DONE; IllegalOperand at start (rule R189). -/
def execMerge (s : State) : StepOutcome :=
  match s.phase with
  | .idle => .next (startCfgOp .exec s)
  | .exec =>
    match configurationOf s.latches.cfg with
    | some c => .next (endRaw (mergeConf s.params.confLayout s.latches.raw c) s)
    | none   => noTransition
  | .done => .next (finish s)
  | .rdConf | .wrConf | .rdStatus | .rdZmco | .chkCnt | .chkMag | .wrBurn | .settle => noTransition

/-- `CONFIG` (rule R124): IDLE, RD_CONF, EXEC, DONE. -/
def execConfig (s : State) : StepOutcome :=
  match s.phase with
  | .idle   => .next (startOp .rdConf s)
  | .rdConf => rdConf .exec s
  | .exec   => .next (endDecoded (decodeConf s.params.confLayout s.internal.cur) s)
  | .done   => .next (finish s)
  | .wrConf | .rdStatus | .rdZmco | .chkCnt | .chkMag | .wrBurn | .settle => noTransition

/-- `SET_CONFIG` (rule R125): IDLE, RD_CONF, EXEC, WR_CONF, DONE. The word read is not decoded (D15,
log 21); the merge is a function of the latches, taken in WR_CONF where it is used (log 14). -/
def execSetConfig (s : State) : StepOutcome :=
  match s.phase with
  | .idle   => .next (startCfgOp .rdConf s)
  | .rdConf => rdConf .exec s
  | .exec   => .next (setPhase .wrConf s)
  | .wrConf =>
    match mergedWord s with
    | some v => writePhase .conf v (endRaw v) s
    | none   => noTransition
  | .done   => .next (finish s)
  | .rdStatus | .rdZmco | .chkCnt | .chkMag | .wrBurn | .settle => noTransition

end Sys2Proof.Machine
end

