-- ==== Sys2Proof/Machine/Guard.lean ====
section
/-! DEFINITION. The persistence guard (42_guard.md): the pure guard operations (rules R160, R161), the
two burn sequences (rules R162, R163, R170) and the two command bytes they issue (rule R98). -/

namespace Sys2Proof.Machine

/-- The end of a pure guard operation: the verdict is `err_code` alone (rules R160, R161). -/
def endVerdict (r : Except BlockError Unit) (s : State) : State :=
  match r with
  | .ok ()   => endOk s
  | .error e => raise e s

/-- A check phase of a burn (rule R170): go on, or end with the violation. -/
def checkPhase (r : Except BlockError Unit) (p : Phase) (s : State) : State :=
  match r with
  | .ok ()   => setPhase p s
  | .error e => raise e s

/-- CHK_MAG's verdict on the STATUS byte (rule R163): it decodes, then the magnet check. -/
def magnetVerdict (L : StatusLayout) (b : Byte) : Except BlockError Unit :=
  match statusDecode L b with
  | .ok t    => checkPositionMagnet t
  | .error e => .error e

/-- `GUARD_MANG_CONFIG` (rule R160): IDLE, EXEC, DONE. -/
def execGuardMangConfig (s : State) : StepOutcome :=
  match s.phase with
  | .idle => .next (startOp .exec s)
  | .exec => .next (endVerdict (checkMangConfig s.latches.zin) s)
  | .done => .next (finish s)
  | .rdConf | .wrConf | .rdStatus | .rdZmco | .chkCnt | .chkMag | .wrBurn | .settle => noTransition

/-- `GUARD_POSITION` (rule R161): IDLE, EXEC, DONE. -/
def execGuardPosition (s : State) : StepOutcome :=
  match s.phase with
  | .idle => .next (startOp .exec s)
  | .exec => .next (endVerdict (guardPosition s.latches.zin (statusOfCode s.latches.sin)) s)
  | .done => .next (finish s)
  | .rdConf | .wrConf | .rdStatus | .rdZmco | .chkCnt | .chkMag | .wrBurn | .settle => noTransition

/-- `BURN_MANG_CONFIG` (rule R162): IDLE, RD_ZMCO, CHK_CNT, WR_BURN, SETTLE, DONE. -/
def execBurnMangConfig (s : State) : StepOutcome :=
  match s.phase with
  | .idle   => .next (startOp .rdZmco s)
  | .rdZmco => rdZmco (fun _ t => setPhase .chkCnt t) s
  | .chkCnt => .next (checkPhase (checkMangConfig s.internal.z) .wrBurn s)
  | .wrBurn => wrBurn cmdMangConfigByte s
  | .settle => settleDelay s
  | .done   => .next (finish s)
  | .exec | .rdConf | .wrConf | .rdStatus | .chkMag => noTransition

/-- `BURN_POSITION` (rule R163): IDLE, RD_ZMCO, CHK_CNT, RD_STATUS, CHK_MAG, WR_BURN, SETTLE, DONE. -/
def execBurnPosition (s : State) : StepOutcome :=
  match s.phase with
  | .idle     => .next (startOp .rdZmco s)
  | .rdZmco   => rdZmco (fun _ t => setPhase .chkCnt t) s
  | .chkCnt   => .next (checkPhase (checkPositionCounter s.internal.z) .rdStatus s)
  | .rdStatus => rdStatus .chkMag s
  | .chkMag   =>
    .next (checkPhase (magnetVerdict s.params.statusLayout s.internal.sb) .wrBurn s)
  | .wrBurn   => wrBurn cmdPositionByte s
  | .settle   => settleDelay s
  | .done     => .next (finish s)
  | .exec | .rdConf | .wrConf => noTransition

/-- The command byte `0x40` (rules R98, R162, R170): the payload of the write `BURN_MANG_CONFIG`
issues in WR_BURN, and of no other step (log 15). -/
def execCmdBurnMangConfig (s : State) : StepOutcome :=
  match s.phase with
  | .wrBurn => wrBurn cmdMangConfigByte s
  | .idle | .exec | .rdConf | .wrConf | .rdStatus | .rdZmco | .chkCnt | .chkMag | .settle | .done =>
    noTransition

/-- The command byte `0x80` (rules R98, R163, R170): the payload of the write `BURN_POSITION` issues
in WR_BURN, and of no other step (log 15). -/
def execCmdBurnPosition (s : State) : StepOutcome :=
  match s.phase with
  | .wrBurn => wrBurn cmdPositionByte s
  | .idle | .exec | .rdConf | .wrConf | .rdStatus | .rdZmco | .chkCnt | .chkMag | .settle | .done =>
    noTransition

end Sys2Proof.Machine
end

