-- ==== Sys2Proof/Machine/StatusZmco.lean ====
section
/-! DEFINITION. The guard's inputs as operations (41_status_zmco.md, rules R141, R142, R147). -/

namespace Sys2Proof.Machine

/-- The end of STATUS_DECODE and MAGNET_STATUS: the member, or the status error (rules R141, R142). -/
def endStatusDecoded (r : Except BlockError Status) (s : State) : State :=
  match r with
  | .ok t    => endStatus t s
  | .error e => raise e s

/-- `STATUS_DECODE` (rule R141): IDLE, EXEC, DONE. -/
def execStatusDecode (s : State) : StepOutcome :=
  match s.phase with
  | .idle => .next (startOp .exec s)
  | .exec => .next (endStatusDecoded (statusDecode s.params.statusLayout s.latches.byte) s)
  | .done => .next (finish s)
  | .rdConf | .wrConf | .rdStatus | .rdZmco | .chkCnt | .chkMag | .wrBurn | .settle => noTransition

/-- `MAGNET_STATUS` (rule R142): IDLE, RD_STATUS, EXEC, DONE. -/
def execMagnetStatus (s : State) : StepOutcome :=
  match s.phase with
  | .idle     => .next (startOp .rdStatus s)
  | .rdStatus => rdStatus .exec s
  | .exec     => .next (endStatusDecoded (statusDecode s.params.statusLayout s.internal.sb) s)
  | .done     => .next (finish s)
  | .rdConf | .wrConf | .rdZmco | .chkCnt | .chkMag | .wrBurn | .settle => noTransition

/-- `ZMCO` (rule R147): IDLE, RD_ZMCO, DONE. -/
def execZmco (s : State) : StepOutcome :=
  match s.phase with
  | .idle   => .next (startOp .rdZmco s)
  | .rdZmco => rdZmco endZmco s
  | .done   => .next (finish s)
  | .exec | .rdConf | .wrConf | .rdStatus | .chkCnt | .chkMag | .wrBurn | .settle => noTransition

end Sys2Proof.Machine
end

