-- ==== Sys2Proof/Machine/Dispatch.lean ====
section
/-! DEFINITION. What the block does with an instruction in the phase it is in: one arm per row of the
opcode table. -/

namespace Sys2Proof.Machine

-- each meaning performs ONE row of rule R24's table for its operation
def exec (i : Instr) (s : State) : Host.Outcome State Fault Refusal :=
  match i with
  | .decode => Sys2Proof.Machine.execDecode s
  | .encode => Sys2Proof.Machine.execEncode s
  | .merge => Sys2Proof.Machine.execMerge s
  | .config => Sys2Proof.Machine.execConfig s
  | .setConfig => Sys2Proof.Machine.execSetConfig s
  | .statusDecode => Sys2Proof.Machine.execStatusDecode s
  | .magnetStatus => Sys2Proof.Machine.execMagnetStatus s
  | .zmco => Sys2Proof.Machine.execZmco s
  | .guardMangConfig => Sys2Proof.Machine.execGuardMangConfig s
  | .guardPosition => Sys2Proof.Machine.execGuardPosition s
  | .burnMangConfig => Sys2Proof.Machine.execBurnMangConfig s
  | .burnPosition => Sys2Proof.Machine.execBurnPosition s
  | .cmdBurnMangConfig => Sys2Proof.Machine.execCmdBurnMangConfig s
  | .cmdBurnPosition => Sys2Proof.Machine.execCmdBurnPosition s

end Sys2Proof.Machine
end

