-- ==== Sys2Proof/Machine/Step.lean ====
section
/-! DEFINITION. One step of the machine: the block's (rule R24), then the environment's (log 7). -/

namespace Sys2Proof.Machine

/-- One step (rules R5, R24): one row of rule R24's table by the block, then one move of HOST, SENSOR
and DELAY. -/
def step (s : State) : Host.Outcome State Fault Refusal :=
  afterBlock (blockStep exec s)

/-- `s` with the instruction whose bits are `w` where the next step finds it (log 16); a number that
is no word of either format, or a command byte that is no row of the table, leaves `s` as it is. -/
def State.withFetchWord (s : State) (nbits w : Nat) : State :=
  match wordOfBits nbits w with
  | some iw => placeWord iw s
  | none    => s

end Sys2Proof.Machine
end

