-- ==== Sys2Proof/Machine/Lines.lean ====
section
/-! DEFINITION. The operation lines of rule R107 as data: a mnemonic with its named operands, and its
encoding, which is an `op` value and the values on the operand ports. -/

namespace Sys2Proof.Machine

/-- One `field=member` of a record operand (rule R107). -/
inductive FieldSetting where
  | pm   (m : PowerMode)
  | hyst (m : Hysteresis)
  | outs (m : OutputStage)
  | pwmf (m : PwmFrequency)
  | sf   (m : SlowFilter)
  | fth  (m : FastFilterThreshold)
  | wd   (m : WatchdogState)
  deriving DecidableEq, Repr

/-- A Configuration with one field replaced. -/
def applySetting (c : Configuration) : FieldSetting → Configuration
  | .pm m   => { c with pm := m }
  | .hyst m => { c with hyst := m }
  | .outs m => { c with outs := m }
  | .pwmf m => { c with pwmf := m }
  | .sf m   => { c with sf := m }
  | .fth m  => { c with fth := m }
  | .wd m   => { c with wd := m }

/-- A `cfg=` operand: a record written out, or `$prev` with fields replaced (rule R107). DESIGN CHOICE
(log 24): the rule's `with field=member` replaces one field; the model takes any number of settings. -/
inductive RecordOperand where
  | record (r : CfgRec)
  | prev (changes : List FieldSetting)
  deriving DecidableEq, Repr

/-- The record a `cfg=` operand puts on `cfg_in`, `prev` being the `res_cfg` of the previous operation:
none where `$prev` names a field with no value, which has no meaning (rule R28). DESIGN CHOICE (log 24):
the settings are applied from left to right, so the later of two settings of one field wins. -/
def recordOf (prev : Option Configuration) : RecordOperand → Option CfgRec
  | .record r     => some r
  | .prev changes => prev.map (fun c => cfgRecOf (changes.foldl applySetting c))

/-- A line of rule R107, one constructor for each mnemonic of rule R100. -/
inductive Line where
  | decode (raw : Word)
  | encode (cfg : RecordOperand)
  | merge (raw : Word) (cfg : RecordOperand)
  | config
  | setConfig (cfg : RecordOperand)
  | statusDecode (byte : Byte)
  | magnetStatus
  | zmco
  | guardMangConfig (z : BitVec 2)
  | guardPosition (z : BitVec 2) (status : Status)
  | burnMangConfig
  | burnPosition
  deriving DecidableEq, Repr

/-- The operation a line is of. -/
def lineInstr : Line → Instr
  | .decode _          => .decode
  | .encode _          => .encode
  | .merge _ _         => .merge
  | .config            => .config
  | .setConfig _       => .setConfig
  | .statusDecode _    => .statusDecode
  | .magnetStatus      => .magnetStatus
  | .zmco              => .zmco
  | .guardMangConfig _ => .guardMangConfig
  | .guardPosition _ _ => .guardPosition
  | .burnMangConfig    => .burnMangConfig
  | .burnPosition      => .burnPosition

/-- The ports with `start` and an `op` value, the operand ports at 0: an operation reads only the
latches its rule names (rule R25). -/
def startPorts (op : BitVec 4) : HostPorts := ⟨false, true, op, 0, 0, ⟨0, 0, 0, 0, 0, 0, 0⟩, 0, 0⟩

/-- The encoding of a line (rule R107): what HOST drives to start it. -/
def linePorts (prev : Option Configuration) : Line → Option HostPorts
  | .decode raw         => some { startPorts 0x1#4 with rawIn := raw }
  | .encode cfg         => (recordOf prev cfg).map (fun r => { startPorts 0x2#4 with cfgIn := r })
  | .merge raw cfg      =>
    (recordOf prev cfg).map (fun r => { startPorts 0x3#4 with rawIn := raw, cfgIn := r })
  | .config             => some (startPorts 0x4#4)
  | .setConfig cfg      => (recordOf prev cfg).map (fun r => { startPorts 0x5#4 with cfgIn := r })
  | .statusDecode byte  => some { startPorts 0x6#4 with byteIn := byte }
  | .magnetStatus       => some (startPorts 0x7#4)
  | .zmco               => some (startPorts 0x8#4)
  | .guardMangConfig z  => some { startPorts 0x9#4 with zmcoIn := z }
  | .guardPosition z t  => some { startPorts 0xA#4 with zmcoIn := z, statusIn := statusCode t }
  | .burnMangConfig     => some (startPorts 0xB#4)
  | .burnPosition       => some (startPorts 0xC#4)

end Sys2Proof.Machine
end

