-- ==== Sys2Proof/Safety.lean ====
section
/-! DEFINITION. What claims about runs are stated in: which states are legal, what the event history
must look like, when collaborators answer, and running an operation to DONE. -/

namespace Sys2Proof.Safety

open Sys2Proof.Machine

/-! ### Legal states -/

/-- The phases an operation passes through between IDLE and DONE (rules R121 to R125, R141, R142,
R147, R160 to R163); a command byte stands in WR_BURN alone (rule R170). -/
def operationPhases : Instr → List Phase
  | .decode | .encode | .merge | .statusDecode | .guardMangConfig | .guardPosition => [.exec]
  | .config       => [.rdConf, .exec]
  | .setConfig    => [.rdConf, .exec, .wrConf]
  | .magnetStatus => [.rdStatus, .exec]
  | .zmco         => [.rdZmco]
  | .burnMangConfig => [.rdZmco, .chkCnt, .wrBurn, .settle]
  | .burnPosition   => [.rdZmco, .chkCnt, .rdStatus, .chkMag, .wrBurn, .settle]
  | .cmdBurnMangConfig | .cmdBurnPosition => [.wrBurn]

/-- The operations that read `cfg_lat` (rule R100's table, rule R189). -/
def readsCfg : Instr → Bool
  | .encode | .merge | .setConfig => true
  | .decode | .config | .statusDecode | .magnetStatus | .zmco | .guardMangConfig | .guardPosition
  | .burnMangConfig | .burnPosition | .cmdBurnMangConfig | .cmdBurnPosition => false

/-- The operation in flight is one of the twelve, the phase is in its sequence, and `cfg_lat` holds a
Configuration if the operation reads it. At IDLE and DONE there is no operation in flight. -/
def inSequence (s : State) : Bool :=
  s.phase == .idle || s.phase == .done ||
  (match decodeWord (.opsel s.latches.op) with
   | .ok i    => (operationPhases i).contains s.phase && (!readsCfg i || s.latches.cfg.wellFormed)
   | .error _ => false)

/-- The result registers: cleared while an operation is in flight (rules R24, R27, R193); after an
error no field holds a value (rule R190); only the codes of rule R181 occur. -/
def resultLegal (s : State) : Bool :=
  (s.phase == .idle || s.phase == .done || s.result == clearedResult) &&
  (s.result.errCode == 0 ||
    (s.result.raw.isNone && s.result.cfg.isNone && s.result.status.isNone && s.result.zmco.isNone)) &&
  decide (s.result.errCode ≤ 8)

/-- Where the bus answers with a transport error, it is one of `E` (rule R7). -/
def replyTyped (E : ErrorType) : BusReply → Bool
  | .pending   => true
  | .ok        => true
  | .err te _  => E.has te

/-- Where an event holds a transport error, it is one of `E` (rules R7, R16). -/
def eventTyped (E : ErrorType) : Event → Bool
  | .rd _ _ (.ok _)   => true
  | .rd _ _ (.err te) => E.has te
  | .wr _ _ .ok       => true
  | .wr _ _ (.err te) => E.has te
  | .dl _             => true

/-- Every transport error in the inputs, in the inputs to come and in the history is one of `E`. -/
def errorsTyped (s : State) : Bool :=
  replyTyped s.params.errorType s.inputs.bus &&
  s.future.all (fun m => replyTyped s.params.errorType m.inputs.bus) &&
  s.hist.all (eventTyped s.params.errorType)

/-- A legal state: the parameters meet rule R7's constraints, `dev_addr` is `DEV_ADDR` (rule R21), and
the three conditions above. -/
def legal (s : State) : Bool :=
  s.params.wellFormed && s.devAddr == s.params.devAddr && inSequence s && resultLegal s &&
  errorsTyped s

/-- The phase an operation goes to from IDLE (the `→` line of each operation's rule). A command byte is
never started from IDLE; its phase is WR_BURN. -/
def firstPhase : Instr → Phase
  | .decode | .encode | .merge | .statusDecode | .guardMangConfig | .guardPosition => .exec
  | .config | .setConfig => .rdConf
  | .magnetStatus => .rdStatus
  | .zmco | .burnMangConfig | .burnPosition => .rdZmco
  | .cmdBurnMangConfig | .cmdBurnPosition => .wrBurn

/-- The operations selected on the `op` port (rule R100's twelve). -/
def isOperation : Instr → Bool
  | .cmdBurnMangConfig | .cmdBurnPosition => false
  | .decode | .encode | .merge | .config | .setConfig | .statusDecode | .magnetStatus | .zmco
  | .guardMangConfig | .guardPosition | .burnMangConfig | .burnPosition => true

/-- Which of `res_raw`, `res_cfg`, `res_status`, `res_zmco` the operation writes on success (rules R27,
R100). -/
def writesResult : Instr → Bool × Bool × Bool × Bool
  | .encode | .merge | .setConfig => (true, false, false, false)
  | .decode | .config => (false, true, false, false)
  | .statusDecode | .magnetStatus => (false, false, true, false)
  | .zmco => (false, false, false, true)
  | .guardMangConfig | .guardPosition | .burnMangConfig | .burnPosition
  | .cmdBurnMangConfig | .cmdBurnPosition => (false, false, false, false)

/-- The seven bit ranges of the CONF word `v` carry the discriminants of `c` (rules R81, R120). -/
def carries (L : ConfLayout) (v : Word) (c : Configuration) : Prop :=
  cfgRecOf c = ⟨v.extractLsb' L.pm.lo 2, v.extractLsb' L.hyst.lo 2, v.extractLsb' L.outs.lo 2,
    v.extractLsb' L.pwmf.lo 2, v.extractLsb' L.sf.lo 2, v.extractLsb' L.fth.lo 3,
    v.extractLsb' L.wd.lo 1⟩

/-! ### The event history -/

/-- The history ends with a successful counter read of value `z` (rules R162, R163). -/
def counterJustRead (p : Params) (z : BitVec 2) (h : List Event) : Prop :=
  ∃ pre b, h = pre ++ [.rd p.addrZmco 1 (.ok [b])] ∧ mask2 p.zmcoLsb b = z

/-- The history ends with a successful counter read of value `z` and then a successful status read of
the byte `t` (rule R163). -/
def bothJustRead (p : Params) (z : BitVec 2) (t : Byte) (h : List Event) : Prop :=
  ∃ pre b, h = pre ++ [.rd p.addrZmco 1 (.ok [b]), .rd p.addrStatus 1 (.ok [t])] ∧
    mask2 p.zmcoLsb b = z

/-- What must stand last in the history when command `0x40` is written: the counter just read is 0
(rules R155, R164). -/
def mangAllowed (p : Params) (h : List Event) : Prop := counterJustRead p 0 h

/-- What must stand last in the history when command `0x80` is written: the counter just read is below
3, and then the status byte just read decodes to `MagnetDetected` (rules R155, R159, R164). -/
def positionAllowed (p : Params) (h : List Event) : Prop :=
  ∃ z t, bothJustRead p z t h ∧ z < 3 ∧ statusDecode p.statusLayout t = .ok .magnetDetected

/-- Every write to the BURN register, successful or not, is one of the two commands, and its own
precondition was read immediately before it (rules R98, R164, R165, R166). -/
def burnsGuarded (p : Params) (h : List Event) : Prop :=
  ∀ pre payload out post, h = pre ++ .wr p.addrBurn payload out :: post →
    (payload = [cmdMangConfigByte] ∧ mangAllowed p pre) ∨
    (payload = [cmdPositionByte] ∧ positionAllowed p pre)

/-- What the latches hold of the reads, in the phases of a burn (rules R26, R162, R163, R170). -/
def burnReadsFresh (s : State) : Prop :=
  (s.phase = .chkCnt → counterJustRead s.params s.internal.z s.hist) ∧
  (s.phase = .rdStatus → s.latches.op = 0xC#4 →
    s.internal.z < 3 ∧ counterJustRead s.params s.internal.z s.hist) ∧
  (s.phase = .chkMag →
    s.internal.z < 3 ∧ bothJustRead s.params s.internal.z s.internal.sb s.hist) ∧
  (s.phase = .wrBurn →
    (s.latches.op = 0xB#4 ∧ mangAllowed s.params s.hist) ∨
    (s.latches.op = 0xC#4 ∧ positionAllowed s.params s.hist))

/-- The guard's promise (rules R164 to R166, R223): a legal state whose reads are fresh and whose every
burn write was guarded. -/
def guarded (s : State) : Prop :=
  legal s = true ∧ burnReadsFresh s ∧ burnsGuarded s.params s.hist

/-- The event after a successful burn write is `Dl(1)`, or there is none yet and the block is in SETTLE
(rules R167, R220). -/
def holdKept (s : State) : Prop :=
  ∀ pre payload post, s.hist = pre ++ .wr s.params.addrBurn payload .ok :: post →
    (post = [] ∧ s.phase = .settle) ∨ post.head? = some (.dl burnSettleMs)

/-- Every write to CONF is the merge of some Configuration with the word that the event just before it
read (rules R125, R128, R225). -/
def confWritesMerged (p : Params) (h : List Event) : Prop :=
  ∀ pre payload out post, h = pre ++ .wr p.addrConf payload out :: post →
    ∃ pre' b0 b1 c, pre = pre' ++ [.rd p.addrConf 2 (.ok [b0, b1])] ∧
      payload = beBytes16 (mergeConf p.confLayout (be16 b0 b1) c)

/-- In EXEC and WR_CONF of SET_CONFIG, cur_lat is the word the last event read (rules R26, R125). -/
def confReadFresh (s : State) : Prop :=
  s.latches.op = 0x5#4 → (s.phase = .exec ∨ s.phase = .wrConf) →
    ∃ pre, s.hist = pre ++ [.rd s.params.addrConf 2 (.ok (beBytes16 s.internal.cur))]

/-- The factory bits' promise (rules R128, R225): a legal state in which every CONF write was a merge
with the word just read. -/
def factoryKept (s : State) : Prop :=
  legal s = true ∧ confReadFresh s ∧ confWritesMerged s.params s.hist

/-- An event that reached the sensor as a write. -/
def isWrite : Event → Bool
  | .wr _ _ _ => true
  | .rd _ _ _ => false
  | .dl _     => false

/-- The event a request on the bus port leads to (rules R32, R56, R57). -/
def eventAnswers : BusRequest → Event → Prop
  | .writeRead _ out n, .rd reg m outcome =>
    out = [reg] ∧ m = n ∧ (∀ bs, outcome = .ok bs → bs.length = n)
  | .write _ out, .wr reg payload _ => out = reg :: payload
  | .writeRead _ _ _, .wr _ _ _ => False
  | .writeRead _ _ _, .dl _     => False
  | .write _ _, .rd _ _ _       => False
  | .write _ _, .dl _           => False

/-- The device a request addresses (rules R21, R50). -/
def requestDevice : BusRequest → Nat
  | .writeRead d _ _ => d
  | .write d _       => d

/-! ### Runs -/

/-- Steps until the block is at DONE, at most `k` of them (rule R232: an operation is over in the step
that enters DONE). -/
def runToDone : Nat → State → StepOutcome
  | 0, s     => .next s
  | k + 1, s =>
    if s.phase = .done then .next s
    else
      match step s with
      | .next t    => runToDone k t
      | .fault r   => .fault r
      | .refused r => .refused r

/-- In every step that the inputs speak of, HOST does not reset the block. -/
def noReset (s : State) : Prop :=
  s.inputs.ports.rst = false ∧ ∀ m ∈ s.future, m.inputs.ports.rst = false

/-- The first `k` steps. -/
def runSteps : Nat → State → StepOutcome
  | 0, s     => .next s
  | k + 1, s =>
    match step s with
    | .next t    => runSteps k t
    | .fault r   => .fault r
    | .refused r => .refused r

/-- How many steps of `runToDone` change the phase; the others wait for a collaborator (rule R230 counts
the steps from phase to phase). -/
def phaseMoves : Nat → State → Nat
  | 0, _     => 0
  | k + 1, s =>
    if s.phase = .done then 0
    else
      match step s with
      | .next t    => (if t.phase = s.phase then 0 else 1) + phaseMoves k t
      | .fault _   => 0
      | .refused _ => 0

/-- SENSOR owes an answer (rules R32, R233): a bus request is out and its answer has not come. -/
def waitsOnBus (s : State) : Prop := (busRequest s).isSome = true ∧ s.inputs.bus = .pending

/-- DELAY owes its return (rules R33, R233). -/
def waitsOnDelay (s : State) : Prop :=
  (delayRequest s).isSome = true ∧ s.inputs.delayDone = false

/-- Stuck (rule R233): a phase whose collaborator has not answered yet. -/
def stuck (s : State) : Prop := waitsOnBus s ∨ waitsOnDelay s

/-- Hang (rule R233): from some step on the block is stuck for ever. -/
def hangs (s : State) : Prop := ∃ n, ∀ m, n ≤ m → ∃ t, runSteps m s = .next t ∧ stuck t

/-- Weak fairness of SENSOR (rules R230, R233): after every step there is a later one in which it does
not owe an answer. However long it takes, it does not keep the block waiting for ever. -/
def weaklyFairSensor (s : State) : Prop :=
  ∀ n, ∃ m, n ≤ m ∧ ∀ t, runSteps m s = .next t → ¬ waitsOnBus t

/-- Weak fairness of DELAY (rules R200, R230, R233). -/
def weaklyFairDelay (s : State) : Prop :=
  ∀ n, ∃ m, n ≤ m ∧ ∀ t, runSteps m s = .next t → ¬ waitsOnDelay t

/-- The weak fairness that rules R230 and R233 name as an assumption; a statement that needs it has it
as a hypothesis (log 19). -/
def weaklyFair (s : State) : Prop := weaklyFairSensor s ∧ weaklyFairDelay s

/-- The collaborators answer at once, which is more than weak fairness asks. -/
def responsive (i : Inputs) : Prop := i.bus ≠ .pending ∧ i.delayDone = true

/-- They do so in every step that the inputs speak of: no step waits, so that the bounds of rule R230
are bounds on all steps. -/
def alwaysResponsive (s : State) : Prop :=
  responsive s.inputs ∧ ∀ m ∈ s.future, responsive m.inputs

/-- The state right after a power-on reset, for any parameters, sensor and inputs (rules R41, R210). -/
def poweredOn (s : State) : Prop :=
  s.devAddr = s.params.devAddr ∧ s.phase = .idle ∧ s.result = clearedResult ∧ s.hist = []

/-- HOST drives an operation: its `op` value and operand ports with `start` (rule R231, first row). -/
def drive (p : HostPorts) (s : State) : State :=
  { s with inputs := { s.inputs with ports := { p with rst := false, start := true } } }

/-- A state is final when nothing is pending (rule R232). -/
def final (s : State) : Bool := s.phase == .idle

/-- One operation (rule R232): HOST starts it at IDLE, it is over in the step that enters DONE, its
result is what the result registers then hold (rule R231, second row), and the next step returns to
IDLE. None: it is not over within `k` steps, or the block is not at IDLE. -/
def runOperation (k : Nat) (p : HostPorts) (s : State) : Option (ResultRegs × State) :=
  if s.phase = .idle then
    match runToDone k (drive p s) with
    | .next t    =>
      if t.phase = .done then
        match step t with
        | .next u    => if final u then some (t.result, u) else none
        | .fault _   => none
        | .refused _ => none
      else none
    | .fault _   => none
    | .refused _ => none
  else none

/-- A finite list of operations that HOST starts one after another, each allowed `k` steps to its DONE:
their results in order, and the state in which the run is over (rule R232). -/
def runOperations (k : Nat) : List HostPorts → State → Option (List ResultRegs × State)
  | [], s       => if final s then some ([], s) else none
  | p :: ps, s  =>
    match runOperation k p s with
    | none        => none
    | some (r, t) =>
      match runOperations k ps t with
      | none         => none
      | some (rs, u) => some (r :: rs, u)

/-- The observation of a finished run (rule R232): the operations' results, in order, and `hist`. It says
nothing of the sensor and nothing of time. -/
structure Observation where
  results : List ResultRegs
  hist    : List Event
  deriving DecidableEq, Repr

/-- What is observed of the run of `ops` from the power-on state `s` (rules R16, R232). -/
def observation (k : Nat) (ops : List HostPorts) (s : State) : Option Observation :=
  (runOperations k ops s).map (fun r => ⟨r.1, r.2.hist⟩)

/-! ### Transport errors are opaque (rule R64) -/

/-- A reply with its transport error relabelled. -/
def relabelReply (f : TransportError → TransportError) : BusReply → BusReply
  | .pending     => .pending
  | .ok          => .ok
  | .err te left => .err (f te) left

/-- An event with its transport error relabelled. -/
def relabelEvent (f : TransportError → TransportError) : Event → Event
  | .rd a n (.ok bytes) => .rd a n (.ok bytes)
  | .rd a n (.err te)   => .rd a n (.err (f te))
  | .wr a p .ok         => .wr a p .ok
  | .wr a p (.err te)   => .wr a p (.err (f te))
  | .dl k               => .dl k

/-- Inputs with their transport error relabelled. -/
def relabelInputs (f : TransportError → TransportError) (i : Inputs) : Inputs :=
  { i with bus := relabelReply f i.bus }

/-- A state with every transport error in it relabelled. -/
def relabel (f : TransportError → TransportError) (s : State) : State :=
  { s with
    hist   := s.hist.map (relabelEvent f)
    inputs := relabelInputs f s.inputs
    future := s.future.map (fun m => { m with inputs := relabelInputs f m.inputs }) }

/-! ### What an operation line stands for (rule R107) -/

/-- A `cfg=` operand that says `$prev`. -/
def operandNamesPrev : RecordOperand → Bool
  | .record _ => false
  | .prev _   => true

/-- A line that says `$prev`. -/
def namesPrev : Line → Bool
  | .encode cfg | .merge _ cfg | .setConfig cfg => operandNamesPrev cfg
  | .decode _ | .config | .statusDecode _ | .magnetStatus | .zmco | .guardMangConfig _
  | .guardPosition _ _ | .burnMangConfig | .burnPosition => false

/-- The record of a `cfg=` operand is the one on the port: the record written out, or the previous
operation's with the fields replaced. -/
def recordOnPort (prev : Option Configuration) (r : CfgRec) : RecordOperand → Prop
  | .record q     => r = q
  | .prev changes => ∃ c, prev = some c ∧ r = cfgRecOf (changes.foldl applySetting c)

/-- The ports carry the operands the line writes, each on the port of its name (rules R22, R107). -/
def operandsOnPorts (prev : Option Configuration) (p : HostPorts) : Line → Prop
  | .decode raw        => p.rawIn = raw
  | .encode cfg        => recordOnPort prev p.cfgIn cfg
  | .merge raw cfg     => p.rawIn = raw ∧ recordOnPort prev p.cfgIn cfg
  | .setConfig cfg     => recordOnPort prev p.cfgIn cfg
  | .statusDecode byte => p.byteIn = byte
  | .guardMangConfig z => p.zmcoIn = z
  | .guardPosition z t => p.zmcoIn = z ∧ p.statusIn = statusCode t
  | .config | .magnetStatus | .zmco | .burnMangConfig | .burnPosition => True

/-! ### Budgets and possible codes -/

/-- A step budget that falls with every phase an operation moves on to: no transition leads back to an
earlier phase (rules R170, R230). -/
def phaseRank : Phase → Nat
  | .idle     => 7
  | .rdZmco   => 6
  | .chkCnt   => 5
  | .rdStatus => 4
  | .chkMag   => 3
  | .rdConf   => 3
  | .exec     => 2
  | .wrBurn   => 2
  | .wrConf   => 1
  | .settle   => 1
  | .done     => 0

/-- The error codes each operation can end with (rule R198's table; code 0 is Ok). A command byte ends
its burn only with a transport error (rule R173). -/
def possibleCodes : Instr → List (BitVec 4)
  | .decode            => [0, 2]
  | .encode            => [0, 8]
  | .merge             => [0, 8]
  | .config            => [0, 1, 2]
  | .setConfig         => [0, 1, 8]
  | .statusDecode      => [0, 3]
  | .magnetStatus      => [0, 1, 3]
  | .zmco              => [0, 1]
  | .guardMangConfig   => [0, 4]
  | .guardPosition     => [0, 5, 6]
  | .burnMangConfig    => [0, 1, 4]
  | .burnPosition      => [0, 1, 3, 5, 6]
  | .cmdBurnMangConfig => [1]
  | .cmdBurnPosition   => [1]

/-! ### Whole operations as tables (rules R162, R163, R125)

What each sequence does, given the collaborators' answers: the result registers and the events it
appends. `te` is the code of a transport error. -/

/-- An answer to a read of `a`: the transport's error, or the value read. -/
def answer {α : Type} (r : BusReply) (v : α) : Except TransportError α :=
  match r with
  | .err te _ => .error te
  | .pending  => .ok v
  | .ok       => .ok v

/-- An answer to a write. -/
def writeAnswer (r : BusReply) : WriteOutcome :=
  match r with
  | .err te _ => .err te
  | .pending  => .ok
  | .ok       => .ok

/-- The result registers after an error. -/
def failed (e : BlockError) : ResultRegs := ⟨errorCode e, errorInfo e, none, none, none, none⟩

/-- The result and the events of a burn write and what follows it (rules R162, R163, R173). -/
def burnTail (p : Params) (cmd : Byte) (w : WriteOutcome) : ResultRegs × List Event :=
  match w with
  | .err te => (failed (.transport te), [.wr p.addrBurn [cmd] (.err te)])
  | .ok     => (clearedResult, [.wr p.addrBurn [cmd] .ok, .dl 1])

/-- Rule R162's errors, in order, with the events each path appends. -/
def burnMangConfigTable (p : Params) (z : Except TransportError Byte) (w : WriteOutcome) :
    ResultRegs × List Event :=
  match z with
  | .error te => (failed (.transport te), [.rd p.addrZmco 1 (.err te)])
  | .ok b     =>
    if mask2 p.zmcoLsb b = 0 then
      ((burnTail p 0x40#8 w).1, .rd p.addrZmco 1 (.ok [b]) :: (burnTail p 0x40#8 w).2)
    else (failed .persistenceExhausted, [.rd p.addrZmco 1 (.ok [b])])

/-- Rule R163's table, row by row. -/
def burnPositionTable (p : Params) (z t : Except TransportError Byte) (w : WriteOutcome) :
    ResultRegs × List Event :=
  match z with
  | .error te => (failed (.transport te), [.rd p.addrZmco 1 (.err te)])
  | .ok b     =>
    if mask2 p.zmcoLsb b = 3 then (failed .maximumPersistsReached, [.rd p.addrZmco 1 (.ok [b])])
    else
      match t with
      | .error te =>
        (failed (.transport te), [.rd p.addrZmco 1 (.ok [b]), .rd p.addrStatus 1 (.err te)])
      | .ok y     =>
        match statusDecode p.statusLayout y with
        | .error _ =>
          (failed (.statusBitPattern y),
            [.rd p.addrZmco 1 (.ok [b]), .rd p.addrStatus 1 (.ok [y])])
        | .ok .magnetDetected =>
          ((burnTail p 0x80#8 w).1,
            .rd p.addrZmco 1 (.ok [b]) :: .rd p.addrStatus 1 (.ok [y]) :: (burnTail p 0x80#8 w).2)
        | .ok .noMagnet | .ok .magnetTooStrong | .ok .magnetTooWeak =>
          (failed .magnetRequired, [.rd p.addrZmco 1 (.ok [b]), .rd p.addrStatus 1 (.ok [y])])

/-- Rule R125's sequence: read, merge, write. -/
def setConfigTable (p : Params) (c : Configuration) (r : Except TransportError Word) (w : WriteOutcome) :
    ResultRegs × List Event :=
  match r with
  | .error te => (failed (.transport te), [.rd p.addrConf 2 (.err te)])
  | .ok cur   =>
    match w with
    | .err te =>
      (failed (.transport te),
        [.rd p.addrConf 2 (.ok (beBytes16 cur)),
         .wr p.addrConf (beBytes16 (mergeConf p.confLayout cur c)) (.err te)])
    | .ok     =>
      ({ clearedResult with raw := some (mergeConf p.confLayout cur c) },
        [.rd p.addrConf 2 (.ok (beBytes16 cur)),
         .wr p.addrConf (beBytes16 (mergeConf p.confLayout cur c)) .ok])

end Sys2Proof.Safety
end

