-- ==== Sys2Proof/Certificates/Slice0/Obligations.lean ====
section
/-! DEFINITION. The statements for the provers, from the numbered rules of spec/. -/

open Sys2Proof Sys2Proof.Machine Sys2Proof.Safety

/-! ### Encoding -/

/-- A few words written out from rules R98 and R100, and words that are no instruction (R105). -/
def Obligations.SpecWordsDecode : Prop :=
  decodeWord (.opsel 0b0001#4) = .ok .decode ∧
  decodeWord (.opsel 0b0101#4) = .ok .setConfig ∧
  decodeWord (.opsel 0b1000#4) = .ok .zmco ∧
  decodeWord (.opsel 0b1010#4) = .ok .guardPosition ∧
  decodeWord (.opsel 0b1100#4) = .ok .burnPosition ∧
  decodeWord (.burncmd 0b01000000#8) = .ok .cmdBurnMangConfig ∧
  decodeWord (.burncmd 0b10000000#8) = .ok .cmdBurnPosition ∧
  decodeWord (.opsel 0b1110#4) = .error (.reservedOp 0xE#4) ∧
  decodeWord (.burncmd 0b11000000#8) = .error (.undefinedCommand 0xC0#8)

/-- Decode after encode, for every instruction (rules R98, R100). -/
def Obligations.EncodedWordDecodes : Prop :=
  ∀ i : Instr, i.wellFormed = true → decodeWord (encodeWord i) = .ok i

/-- The other direction: a word that decodes is the encoding of what it decodes to; and the reserved
`op` values are exactly 0x0, 0xD, 0xE, 0xF (rules R98, R99, R100, R105). -/
def Obligations.DecodedWordIsEncoding : Prop :=
  (∀ w i, decodeWord w = .ok i → encodeWord i = w) ∧
  (∀ op : BitVec 4, decodeWord (.opsel op) = .error (.reservedOp op) ↔
    op = 0x0#4 ∨ op = 0xD#4 ∨ op = 0xE#4 ∨ op = 0xF#4)

/-- A line's encoding (rule R107): `start` with the `op` value of the line's operation, and the line's
operands on their ports; a `$prev` with several settings is the model's form (log 24). A line has one
for every previous result, but for a line that names `$prev`
where there is no previous Configuration. -/
def Obligations.LineSelectsOperation : Prop :=
  ∀ (prev : Option Configuration) (l : Line),
    (∀ p, linePorts prev l = some p →
      p.rst = false ∧ p.start = true ∧ decodeWord (.opsel p.op) = .ok (lineInstr l) ∧
        operandsOnPorts prev p l) ∧
    ((linePorts prev l).isSome = true ↔ namesPrev l = false ∨ prev.isSome = true)

/-! ### The step -/

/-- A step runs the instruction the sequencer holds: at IDLE with `start` the one on the `op` port; in
WR_BURN the burn's command byte; in every other phase but DONE the one latched. The environment's move
follows. The command byte in WR_BURN (log 15) and the environment's move (log 7) are the model's. -/
def Obligations.StepRunsDecoded : Prop :=
  ∀ (s : State) (i : Instr), s.inputs.ports.rst = false →
    ((s.phase = .idle ∧ s.inputs.ports.start = true ∧
        decodeWord (.opsel s.inputs.ports.op) = .ok i) ∨
      (s.phase ∈ [.exec, .rdConf, .wrConf, .rdStatus, .rdZmco, .chkCnt, .chkMag, .settle] ∧
        decodeWord (.opsel s.latches.op) = .ok i) ∨
      (s.phase = .wrBurn ∧ s.latches.op = 0xB#4 ∧ i = .cmdBurnMangConfig) ∨
      (s.phase = .wrBurn ∧ s.latches.op = 0xC#4 ∧ i = .cmdBurnPosition)) →
    step s =
      match exec i s with
      | .next t    => .next (environmentMove t)
      | .fault r   => .fault r
      | .refused r => .refused r

/-- In WR_BURN the burn's own meaning and its command byte's meaning are the same step, so it does not
matter by which of the two the step is named (rule R170, log 15). That both answer a next
state while the transport is pending is the model's convention (log 8). -/
def Obligations.CommandByteIsBurnWrite : Prop :=
  ∀ s : State, s.phase = .wrBurn →
    exec .burnMangConfig s = exec .cmdBurnMangConfig s ∧
    exec .burnPosition s = exec .cmdBurnPosition s ∧
    ∃ t u, exec .cmdBurnMangConfig s = .next t ∧ exec .cmdBurnPosition s = .next u

/-- Idle without `start` waits; DONE returns to IDLE and keeps the result (rules R24, R193). -/
def Obligations.IdleWaitsDoneReturns : Prop :=
  ∀ s : State, s.inputs.ports.rst = false →
    (s.phase = .idle → s.inputs.ports.start = false → step s = .next (environmentMove s)) ∧
    (s.phase = .done → step s = .next (environmentMove { s with phase := .idle }))

/-- Reset in any phase, with or without `start`: the state of rule R41, `hist` kept, nothing on either
port (rules R210, R214). That `rst` is honoured inside an operation is the model's choice between the
two moves R214 allows (log 11, log 12). -/
def Obligations.ResetAnyPhase : Prop :=
  State.reset.hist = [] ∧
  ∀ s : State, s.inputs.ports.rst = true →
    busRequest s = none ∧ delayRequest s = none ∧
    ∃ t, step s = .next t ∧ t.phase = .idle ∧ t.devAddr = s.params.devAddr ∧
      t.result.errCode = 0 ∧ t.result.errInfo = 0 ∧
      t.result.raw = none ∧ t.result.cfg = none ∧ t.result.status = none ∧ t.result.zmco = none ∧
      t.hist = s.hist ∧ t.params = s.params ∧ (s.future = [] → t.sensor = s.sensor)

/-- The reset values the spec gives (rule R41). -/
def Obligations.PowerOnState : Prop :=
  State.reset.devAddr = State.reset.params.devAddr ∧
  State.reset.params.devAddr = State.reset.params.defaultDevAddr ∧
  State.reset.phase = .idle ∧ phaseCode State.reset.phase = 0 ∧
  busy State.reset = false ∧ isDone State.reset = false ∧
  State.reset.result.errCode = 0 ∧ State.reset.result.errInfo = 0 ∧
  State.reset.result.raw = none ∧ State.reset.result.cfg = none ∧
  State.reset.result.status = none ∧ State.reset.result.zmco = none ∧ State.reset.hist = []

/-- The start of an operation (rules R24, R25, R193; rule R189 for the three that read `cfg_in`):
every operand latch from the port of its name, the results cleared, the first phase. -/
def Obligations.StartLatchesOperands : Prop :=
  ∀ (i : Instr) (s : State), isOperation i = true → s.phase = .idle →
    (readsCfg i = false ∨ s.inputs.ports.cfgIn.outs ≠ 3#2) →
    exec i s = .next
      { s with
        latches := ⟨s.inputs.ports.op, s.inputs.ports.rawIn, s.inputs.ports.byteIn,
          s.inputs.ports.cfgIn, s.inputs.ports.zmcoIn, s.inputs.ports.statusIn⟩
        result  := ⟨0, 0, none, none, none, none⟩
        phase   := firstPhase i }

/-- `IllegalOperand` (rule R189): in the step that leaves IDLE, before anything else; nothing is
requested in that step or at DONE, no `res_*` field holds a value. -/
def Obligations.IllegalOperandRefused : Prop :=
  ∀ s : State, s.inputs.ports.rst = false → s.phase = .idle → s.inputs.ports.start = true →
    (s.inputs.ports.op = 0x2#4 ∨ s.inputs.ports.op = 0x3#4 ∨ s.inputs.ports.op = 0x5#4) →
    s.inputs.ports.cfgIn.outs = 3#2 →
    ∃ t, step s = .next t ∧ t.phase = .done ∧ t.result = ⟨8, 0, none, none, none, none⟩ ∧
      t.hist = s.hist ∧ busRequest s = none ∧ delayRequest s = none ∧
      busRequest t = none ∧ delayRequest t = none

/-- `IllegalOperation` (rule R188). -/
def Obligations.IllegalOperationRefused : Prop :=
  ∀ s : State, s.inputs.ports.rst = false → s.phase = .idle → s.inputs.ports.start = true →
    (s.inputs.ports.op = 0x0#4 ∨ s.inputs.ports.op = 0xD#4 ∨ s.inputs.ports.op = 0xE#4 ∨
      s.inputs.ports.op = 0xF#4) →
    ∃ t, step s = .next t ∧ t.phase = .done ∧
      t.result = ⟨7, s.inputs.ports.op.setWidth 8, none, none, none, none⟩ ∧ t.hist = s.hist ∧
      busRequest s = none ∧ delayRequest s = none ∧ busRequest t = none ∧ delayRequest t = none

/-! ### The codec's operations -/

/-- DECODE's EXEC step (rule R121): the record whose discriminants the bit ranges carry, or
`CodecBitPattern(outs, 3)`; one of the two always applies. -/
def Obligations.DecodeOperation : Prop :=
  ∀ s : State, s.phase = .exec →
    ((s.latches.raw.extractLsb' s.params.confLayout.outs.lo 2 = 3#2 →
      exec .decode s = .next
        { s with result := ⟨2, 0x13#8, none, none, none, none⟩, phase := .done }) ∧
    (∀ c, carries s.params.confLayout s.latches.raw c →
      exec .decode s = .next
        { s with result := ⟨0, 0, none, some c, none, none⟩, phase := .done }) ∧
    (s.latches.raw.extractLsb' s.params.confLayout.outs.lo 2 ≠ 3#2 →
      ∃ c, carries s.params.confLayout s.latches.raw c))

/-- ENCODE's EXEC step (rule R122): the word that carries the record and has bits 15:14 clear. -/
def Obligations.EncodeOperation : Prop :=
  ∀ (s : State) (c : Configuration), s.params.confLayout.wellFormed = true → s.phase = .exec →
    s.latches.cfg = cfgRecOf c →
    ∃ v : Word, carries s.params.confLayout v c ∧ v.extractLsb' 14 2 = 0#2 ∧
      exec .encode s = .next
        { s with result := ⟨0, 0, some v, none, none, none⟩, phase := .done }

/-- MERGE's EXEC step (rule R123): the word that carries the record and has bits 15:14 of `raw_lat`. -/
def Obligations.MergeOperation : Prop :=
  ∀ (s : State) (c : Configuration), s.params.confLayout.wellFormed = true → s.phase = .exec →
    s.latches.cfg = cfgRecOf c →
    ∃ v : Word, carries s.params.confLayout v c ∧
      v.extractLsb' 14 2 = s.latches.raw.extractLsb' 14 2 ∧
      exec .merge s = .next
        { s with result := ⟨0, 0, some v, none, none, none⟩, phase := .done }

/-- CONFIG's RD_CONF and EXEC steps (rule R124): wait for the transport (a step that changes nothing:
log 8), report its error, or latch the word read (log 9); then decode it. -/
def Obligations.ConfigOperation : Prop :=
  ∀ s : State,
    (s.phase = .rdConf →
      (s.inputs.bus = .pending → exec .config s = .next s) ∧
      (∀ te left, s.inputs.bus = .err te left → exec .config s = .next
        { s with
          result := ⟨1, te.code, none, none, none, none⟩
          phase  := .done
          hist   := s.hist ++ [.rd s.params.addrConf 2 (.err te)] }) ∧
      (s.inputs.bus = .ok → exec .config s = .next
        { s with
          internal := { s.internal with cur := s.sensor.conf }
          phase    := .exec
          hist     := s.hist ++ [.rd s.params.addrConf 2 (.ok (beBytes16 s.sensor.conf))] })) ∧
    (s.phase = .exec →
      (s.internal.cur.extractLsb' s.params.confLayout.outs.lo 2 = 3#2 →
        exec .config s = .next
          { s with result := ⟨2, 0x13#8, none, none, none, none⟩, phase := .done }) ∧
      (∀ c, carries s.params.confLayout s.internal.cur c →
        exec .config s = .next
          { s with result := ⟨0, 0, none, some c, none, none⟩, phase := .done }))

/-- SET_CONFIG's RD_CONF, EXEC and WR_CONF steps (rule R125): the word read is latched, not decoded;
the word written carries the record and has the top two bits of the word read. The steps that
wait for an answer are the model's convention (log 8); a read delivers what the sensor holds (log 9);
the merged word is taken in WR_CONF (log 14); what CONF holds after a failed write is the input's value
(log 10). -/
def Obligations.SetConfigOperation : Prop :=
  ∀ s : State,
    (s.phase = .rdConf →
      (s.inputs.bus = .pending → exec .setConfig s = .next s) ∧
      (∀ te left, s.inputs.bus = .err te left → exec .setConfig s = .next
        { s with
          result := ⟨1, te.code, none, none, none, none⟩
          phase  := .done
          hist   := s.hist ++ [.rd s.params.addrConf 2 (.err te)] }) ∧
      (s.inputs.bus = .ok → exec .setConfig s = .next
        { s with
          internal := { s.internal with cur := s.sensor.conf }
          phase    := .exec
          hist     := s.hist ++ [.rd s.params.addrConf 2 (.ok (beBytes16 s.sensor.conf))] })) ∧
    (s.phase = .exec → exec .setConfig s = .next { s with phase := .wrConf }) ∧
    (∀ c, s.params.confLayout.wellFormed = true → s.phase = .wrConf → s.latches.cfg = cfgRecOf c →
      ∃ v : Word, carries s.params.confLayout v c ∧
        v.extractLsb' 14 2 = s.internal.cur.extractLsb' 14 2 ∧
        (s.inputs.bus = .pending → exec .setConfig s = .next s) ∧
        (∀ te left, s.inputs.bus = .err te left → exec .setConfig s = .next
          { s with
            result := ⟨1, te.code, none, none, none, none⟩
            phase  := .done
            sensor := { s.sensor with conf := left }
            hist   := s.hist ++ [.wr s.params.addrConf (beBytes16 v) (.err te)] }) ∧
        (s.inputs.bus = .ok → exec .setConfig s = .next
          { s with
            result := ⟨0, 0, some v, none, none, none⟩
            phase  := .done
            sensor := { s.sensor with conf := v }
            hist   := s.hist ++ [.wr s.params.addrConf (beBytes16 v) .ok] }))

/-! ### The guard's inputs -/

/-- STATUS_DECODE's EXEC step (rules R140, R141). -/
def Obligations.StatusDecodeOperation : Prop :=
  ∀ s : State, s.params.statusLayout.wellFormed = true → s.phase = .exec →
    (∀ m : Status,
      s.latches.byte &&& s.params.statusLayout.smask = s.params.statusLayout.pattern m →
      exec .statusDecode s = .next
        { s with result := ⟨0, 0, none, none, some m, none⟩, phase := .done }) ∧
    ((∀ m : Status,
      s.latches.byte &&& s.params.statusLayout.smask ≠ s.params.statusLayout.pattern m) →
      exec .statusDecode s = .next
        { s with result := ⟨3, s.latches.byte, none, none, none, none⟩, phase := .done })

/-- MAGNET_STATUS's RD_STATUS and EXEC steps (rule R142). The waiting step is the model's convention
(log 8); a read delivers what the sensor holds (log 9). -/
def Obligations.MagnetStatusOperation : Prop :=
  ∀ s : State,
    (s.phase = .rdStatus →
      (s.inputs.bus = .pending → exec .magnetStatus s = .next s) ∧
      (∀ te left, s.inputs.bus = .err te left → exec .magnetStatus s = .next
        { s with
          result := ⟨1, te.code, none, none, none, none⟩
          phase  := .done
          hist   := s.hist ++ [.rd s.params.addrStatus 1 (.err te)] }) ∧
      (s.inputs.bus = .ok → exec .magnetStatus s = .next
        { s with
          internal := { s.internal with sb := s.sensor.status }
          phase    := .exec
          hist     := s.hist ++ [.rd s.params.addrStatus 1 (.ok [s.sensor.status])] })) ∧
    (s.params.statusLayout.wellFormed = true → s.phase = .exec →
      (∀ m : Status,
        s.internal.sb &&& s.params.statusLayout.smask = s.params.statusLayout.pattern m →
        exec .magnetStatus s = .next
          { s with result := ⟨0, 0, none, none, some m, none⟩, phase := .done }) ∧
      ((∀ m : Status,
        s.internal.sb &&& s.params.statusLayout.smask ≠ s.params.statusLayout.pattern m) →
        exec .magnetStatus s = .next
          { s with result := ⟨3, s.internal.sb, none, none, none, none⟩, phase := .done }))

/-- ZMCO's RD_ZMCO step (rules R146, R147): bits `ZMCO_LSB+1 : ZMCO_LSB` of the byte read. The
waiting step is the model's convention (log 8); a read delivers what the sensor holds (log 9). -/
def Obligations.ZmcoOperation : Prop :=
  ∀ s : State, s.phase = .rdZmco →
    (s.inputs.bus = .pending → exec .zmco s = .next s) ∧
    (∀ te left, s.inputs.bus = .err te left → exec .zmco s = .next
      { s with
        result := ⟨1, te.code, none, none, none, none⟩
        phase  := .done
        hist   := s.hist ++ [.rd s.params.addrZmco 1 (.err te)] }) ∧
    (s.inputs.bus = .ok → exec .zmco s = .next
      { s with
        internal := { s.internal with z := s.sensor.zmco.extractLsb' s.params.zmcoLsb 2 }
        result := ⟨0, 0, none, none, none, some (s.sensor.zmco.extractLsb' s.params.zmcoLsb 2)⟩
        phase  := .done
        hist   := s.hist ++ [.rd s.params.addrZmco 1 (.ok [s.sensor.zmco])] })

/-! ### The guard -/

/-- GUARD_MANG_CONFIG's EXEC step (rules R156, R160). -/
def Obligations.GuardMangConfigOperation : Prop :=
  ∀ s : State, s.phase = .exec →
    (s.latches.zin = 0 → exec .guardMangConfig s = .next
      { s with result := ⟨0, 0, none, none, none, none⟩, phase := .done }) ∧
    (s.latches.zin ≠ 0 → exec .guardMangConfig s = .next
      { s with result := ⟨4, 0, none, none, none, none⟩, phase := .done })

/-- GUARD_POSITION's EXEC step (rules R157 to R159, R161): counter first, then magnet; the status port
code of MagnetDetected is 1. -/
def Obligations.GuardPositionOperation : Prop :=
  ∀ s : State, s.phase = .exec →
    (s.latches.zin = 3 → exec .guardPosition s = .next
      { s with result := ⟨5, 0, none, none, none, none⟩, phase := .done }) ∧
    (s.latches.zin < 3 → s.latches.sin ≠ 1 → exec .guardPosition s = .next
      { s with result := ⟨6, 0, none, none, none, none⟩, phase := .done }) ∧
    (s.latches.zin < 3 → s.latches.sin = 1 → exec .guardPosition s = .next
      { s with result := ⟨0, 0, none, none, none, none⟩, phase := .done })

/-- The rows of rule R170 for BURN_MANG_CONFIG, from RD_ZMCO to the return to IDLE. Beside them, the steps
that wait for an answer, which are the model's convention (log 8); a read delivers what the sensor holds
(log 9); what BURN holds after the write (log 10). -/
def Obligations.BurnMangConfigPhases : Prop :=
  ∀ s : State,
    (s.phase = .rdZmco →
      (s.inputs.bus = .pending → exec .burnMangConfig s = .next s) ∧
      (∀ te left, s.inputs.bus = .err te left → exec .burnMangConfig s = .next
        { s with
          result := ⟨1, te.code, none, none, none, none⟩
          phase  := .done
          hist   := s.hist ++ [.rd s.params.addrZmco 1 (.err te)] }) ∧
      (s.inputs.bus = .ok → exec .burnMangConfig s = .next
        { s with
          internal := { s.internal with z := s.sensor.zmco.extractLsb' s.params.zmcoLsb 2 }
          phase    := .chkCnt
          hist     := s.hist ++ [.rd s.params.addrZmco 1 (.ok [s.sensor.zmco])] })) ∧
    (s.phase = .chkCnt →
      (s.internal.z = 0 → exec .burnMangConfig s = .next { s with phase := .wrBurn }) ∧
      (s.internal.z ≠ 0 → exec .burnMangConfig s = .next
        { s with result := ⟨4, 0, none, none, none, none⟩, phase := .done })) ∧
    (s.phase = .wrBurn →
      (s.inputs.bus = .pending → exec .burnMangConfig s = .next s) ∧
      (∀ te left, s.inputs.bus = .err te left → exec .burnMangConfig s = .next
        { s with
          result := ⟨1, te.code, none, none, none, none⟩
          phase  := .done
          sensor := { s.sensor with burn := left.setWidth 8 }
          hist   := s.hist ++ [.wr s.params.addrBurn [0x40#8] (.err te)] }) ∧
      (s.inputs.bus = .ok → exec .burnMangConfig s = .next
        { s with
          phase  := .settle
          sensor := { s.sensor with burn := 0x40#8 }
          hist   := s.hist ++ [.wr s.params.addrBurn [0x40#8] .ok] })) ∧
    (s.phase = .settle →
      (s.inputs.delayDone = false → exec .burnMangConfig s = .next s) ∧
      (s.inputs.delayDone = true → exec .burnMangConfig s = .next
        { s with
          result := ⟨0, 0, none, none, none, none⟩
          phase  := .done
          hist   := s.hist ++ [.dl 1] })) ∧
    (s.phase = .done → exec .burnMangConfig s = .next { s with phase := .idle })

/-- The rows of rule R170 for BURN_POSITION, from RD_ZMCO to the return to IDLE. Beside them, the steps
that wait for an answer, which are the model's convention (log 8); a read delivers what the sensor holds
(log 9); what BURN holds after the write (log 10). -/
def Obligations.BurnPositionPhases : Prop :=
  ∀ s : State,
    (s.phase = .rdZmco →
      (s.inputs.bus = .pending → exec .burnPosition s = .next s) ∧
      (∀ te left, s.inputs.bus = .err te left → exec .burnPosition s = .next
        { s with
          result := ⟨1, te.code, none, none, none, none⟩
          phase  := .done
          hist   := s.hist ++ [.rd s.params.addrZmco 1 (.err te)] }) ∧
      (s.inputs.bus = .ok → exec .burnPosition s = .next
        { s with
          internal := { s.internal with z := s.sensor.zmco.extractLsb' s.params.zmcoLsb 2 }
          phase    := .chkCnt
          hist     := s.hist ++ [.rd s.params.addrZmco 1 (.ok [s.sensor.zmco])] })) ∧
    (s.phase = .chkCnt →
      (s.internal.z < 3 → exec .burnPosition s = .next { s with phase := .rdStatus }) ∧
      (s.internal.z = 3 → exec .burnPosition s = .next
        { s with result := ⟨5, 0, none, none, none, none⟩, phase := .done })) ∧
    (s.phase = .rdStatus →
      (s.inputs.bus = .pending → exec .burnPosition s = .next s) ∧
      (∀ te left, s.inputs.bus = .err te left → exec .burnPosition s = .next
        { s with
          result := ⟨1, te.code, none, none, none, none⟩
          phase  := .done
          hist   := s.hist ++ [.rd s.params.addrStatus 1 (.err te)] }) ∧
      (s.inputs.bus = .ok → exec .burnPosition s = .next
        { s with
          internal := { s.internal with sb := s.sensor.status }
          phase    := .chkMag
          hist     := s.hist ++ [.rd s.params.addrStatus 1 (.ok [s.sensor.status])] })) ∧
    (s.params.statusLayout.wellFormed = true → s.phase = .chkMag →
      (s.internal.sb &&& s.params.statusLayout.smask = s.params.statusLayout.pDet →
        exec .burnPosition s = .next { s with phase := .wrBurn }) ∧
      (∀ m : Status, m ≠ .magnetDetected →
        s.internal.sb &&& s.params.statusLayout.smask = s.params.statusLayout.pattern m →
        exec .burnPosition s = .next
          { s with result := ⟨6, 0, none, none, none, none⟩, phase := .done }) ∧
      ((∀ m : Status,
        s.internal.sb &&& s.params.statusLayout.smask ≠ s.params.statusLayout.pattern m) →
        exec .burnPosition s = .next
          { s with result := ⟨3, s.internal.sb, none, none, none, none⟩, phase := .done })) ∧
    (s.phase = .wrBurn →
      (s.inputs.bus = .pending → exec .burnPosition s = .next s) ∧
      (∀ te left, s.inputs.bus = .err te left → exec .burnPosition s = .next
        { s with
          result := ⟨1, te.code, none, none, none, none⟩
          phase  := .done
          sensor := { s.sensor with burn := left.setWidth 8 }
          hist   := s.hist ++ [.wr s.params.addrBurn [0x80#8] (.err te)] }) ∧
      (s.inputs.bus = .ok → exec .burnPosition s = .next
        { s with
          phase  := .settle
          sensor := { s.sensor with burn := 0x80#8 }
          hist   := s.hist ++ [.wr s.params.addrBurn [0x80#8] .ok] })) ∧
    (s.phase = .settle →
      (s.inputs.delayDone = false → exec .burnPosition s = .next s) ∧
      (s.inputs.delayDone = true → exec .burnPosition s = .next
        { s with
          result := ⟨0, 0, none, none, none, none⟩
          phase  := .done
          hist   := s.hist ++ [.dl 1] })) ∧
    (s.phase = .done → exec .burnPosition s = .next { s with phase := .idle })

/-- The two command bytes in WR_BURN (rules R98, R170, R173): the model runs them there (log 15). The
waiting step is its convention (log 8), and so is what BURN holds after the write (log 10). -/
def Obligations.BurnCommandWords : Prop :=
  ∀ (s : State) (i : Instr) (cmd : Byte),
    ((i = .cmdBurnMangConfig ∧ cmd = 0x40#8) ∨ (i = .cmdBurnPosition ∧ cmd = 0x80#8)) →
    s.phase = .wrBurn →
    (s.inputs.bus = .pending → exec i s = .next s) ∧
    (∀ te left, s.inputs.bus = .err te left → exec i s = .next
      { s with
        result := ⟨1, te.code, none, none, none, none⟩
        phase  := .done
        sensor := { s.sensor with burn := left.setWidth 8 }
        hist   := s.hist ++ [.wr s.params.addrBurn [cmd] (.err te)] }) ∧
    (s.inputs.bus = .ok → exec i s = .next
      { s with
        phase  := .settle
        sensor := { s.sensor with burn := cmd }
        hist   := s.hist ++ [.wr s.params.addrBurn [cmd] .ok] })

/-- The verdicts of the precondition functions (rules R156 to R159; the table of R159). -/
def Obligations.VerdictTable : Prop :=
  (∀ z : BitVec 2, checkMangConfig z = if z = 0 then .ok () else .error .persistenceExhausted) ∧
  (∀ z : BitVec 2, checkPositionCounter z =
    if z = 3 then .error .maximumPersistsReached else .ok ()) ∧
  (∀ m : Status, checkPositionMagnet m =
    if m = .magnetDetected then .ok () else .error .magnetRequired) ∧
  (∀ (z : BitVec 2) (m : Status), guardPosition z m =
    if z = 3 then .error .maximumPersistsReached
    else if m = .magnetDetected then .ok () else .error .magnetRequired)

/-! ### Laws of the codec, for every well-formed layout -/

/-- Extraction and insertion (rule R120). -/
def Obligations.FieldExtractInsert : Prop :=
  ∀ (L : ConfLayout) (f g : Field), L.wellFormed = true → f ≠ g →
    ∀ n : BitVec f.width,
      extractBits (L.range f).lo f.width (insertBits (L.range f).lo f.width n) = n ∧
      extractBits (L.range g).lo g.width (insertBits (L.range f).lo f.width n) = 0 ∧
      insertBits (L.range f).lo f.width n &&& fieldMask L f = insertBits (L.range f).lo f.width n

/-- Round trip (rule R126). -/
def Obligations.ConfRoundTrip : Prop :=
  ∀ (L : ConfLayout) (c : Configuration), L.wellFormed = true →
    decodeConf L (encodeConf L c) = .ok c ∧
    ∀ cur : Word, decodeConf L (mergeConf L cur c) = .ok c

/-- The other direction (rule R127, which the spec marks as derived from R120 to R122). -/
def Obligations.EncodeOfDecoded : Prop :=
  ∀ (L : ConfLayout) (v : Word) (c : Configuration), L.wellFormed = true →
    decodeConf L v = .ok c → encodeConf L c = v &&& 0x3FFF#16 ∧ mergeConf L v c = v ∧
      ∀ w : Word, decodeConf L w = .ok c → w &&& 0x3FFF#16 = v &&& 0x3FFF#16

/-- The merge keeps the top two bits and discards the rest (rules R123, R128). -/
def Obligations.MergeKeepsFactoryBits : Prop :=
  ∀ (L : ConfLayout) (cur : Word) (c d : Configuration), L.wellFormed = true →
    (mergeConf L cur c).extractLsb' 14 2 = cur.extractLsb' 14 2 ∧
    (mergeConf L cur c).extractLsb' 0 14 = (encodeConf L c).extractLsb' 0 14 ∧
    mergeConf L 0 c = encodeConf L c ∧
    mergeConf L (mergeConf L cur d) c = mergeConf L cur c

/-- Fail closed (rules R121, R129): the only failure is `CodecBitPattern(outs, 3)`, it happens exactly
when the `outs` bits are 3, and the factory bits are not read. -/
def Obligations.DecodeFailsClosed : Prop :=
  ∀ (L : ConfLayout) (v : Word), L.wellFormed = true →
    (∀ e, decodeConf L v = .error e ↔
      v.extractLsb' L.outs.lo 2 = 3#2 ∧ e = .codecBitPattern .outs 3) ∧
    decodeConf L v = decodeConf L (v &&& 0x3FFF#16) ∧
    decodeConf L v = decodeConf L (v ||| 0xC000#16)

/-- The status decoder looks at the masked bits alone; its error carries the whole byte (rules R140,
R144; R145, which the spec marks as derived; D5, log 22). -/
def Obligations.StatusDecodeByMask : Prop :=
  ∀ (L : StatusLayout) (b : Byte), L.wellFormed = true →
    (∀ m, statusDecode L b = .ok m ↔ b &&& L.smask = L.pattern m) ∧
    (∀ e, statusDecode L b = .error e → e = .statusBitPattern b) ∧
    (∀ b' m, b' &&& L.smask = b &&& L.smask →
      (statusDecode L b = .ok m ↔ statusDecode L b' = .ok m))

/-- Big-endian on the wire (rules R11, R52): the first byte carries bits 15:8. -/
def Obligations.WireIsBigEndian : Prop :=
  (∀ b0 b1 : Byte, (be16 b0 b1).extractLsb' 8 8 = b0 ∧ (be16 b0 b1).extractLsb' 0 8 = b1 ∧
    beBytes16 (be16 b0 b1) = [b0, b1]) ∧
  (∀ v : Word, wordOfBytes (beBytes16 v) = v)

/-! ### What every step keeps -/

/-- The frame of every instruction, in every phase (rules R25 to R28, R31, R36, R37, R148, R190): the
parameters, `dev_addr` and the inputs never; the operand latches only in the step that leaves IDLE;
each internal latch only in its read phase; the results only when an operation starts or ends; CONF only
in WR_CONF, BURN only in WR_BURN, ZMCO and STATUS never; `hist` only in a phase that reaches a
collaborator. -/
def Obligations.InstructionFrame : Prop :=
  ∀ (i : Instr) (s t : State), exec i s = .next t →
    t.params = s.params ∧ t.devAddr = s.devAddr ∧ t.inputs = s.inputs ∧ t.future = s.future ∧
    (s.phase ≠ .idle → t.latches = s.latches) ∧
    (s.phase ≠ .rdConf → t.internal.cur = s.internal.cur) ∧
    (s.phase ≠ .rdZmco → t.internal.z = s.internal.z) ∧
    (s.phase ≠ .rdStatus → t.internal.sb = s.internal.sb) ∧
    (s.phase ≠ .idle → t.phase ≠ .done → t.result = s.result) ∧
    (s.phase ≠ .wrConf → t.sensor.conf = s.sensor.conf) ∧
    (s.phase ≠ .wrBurn → t.sensor.burn = s.sensor.burn) ∧
    t.sensor.zmco = s.sensor.zmco ∧ t.sensor.status = s.sensor.status ∧
    (s.phase ∈ [.idle, .exec, .chkCnt, .chkMag, .done] → t.hist = s.hist)

/-- `hist` only grows, by at most one event a step, also in a reset (rules R24, R42). -/
def Obligations.HistoryOnlyGrows : Prop :=
  State.reset.hist = [] ∧
  ∀ s t : State, step s = .next t → t.hist = s.hist ∨ ∃ e, t.hist = s.hist ++ [e]

/-- Every event is the answer to the request on a port in that step, and every bus request goes to
`dev_addr` (rules R21, R32, R33, R56, R57, R200). -/
def Obligations.EventAnswersRequest : Prop :=
  (∀ s r, busRequest s = some r → requestDevice r = s.devAddr) ∧
  ∀ (s t : State) (e : Event), step s = .next t → t.hist = s.hist ++ [e] →
    (∃ r, busRequest s = some r ∧ eventAnswers r e) ∨
    (∃ k, delayRequest s = some k ∧ e = .dl k)

/-- Only CONF and BURN are ever written, BURN only with `0x40` or `0x80` (rules R36, R37, R54, R98,
R148). -/
def Obligations.OnlyConfAndBurnWritten : Prop :=
  ∀ (s t : State) (a : Byte) (payload : List Byte) (out : WriteOutcome),
    s.params.wellFormed = true → step s = .next t → t.hist = s.hist ++ [.wr a payload out] →
    a ≠ s.params.addrZmco ∧ a ≠ s.params.addrStatus ∧
    ((a = s.params.addrConf ∧ payload.length = 2) ∨
      (a = s.params.addrBurn ∧ (payload = [0x40#8] ∨ payload = [0x80#8])))

/-- The pattern `outs = 0b11` is never written to the sensor (rules R35, R122, R189). -/
def Obligations.InvalidStageNeverWritten : Prop :=
  ∀ (s t : State) (h l : Byte) (out : WriteOutcome),
    s.params.wellFormed = true → step s = .next t →
    t.hist = s.hist ++ [.wr s.params.addrConf [h, l] out] →
    (be16 h l).extractLsb' s.params.confLayout.outs.lo 2 ≠ 3#2

/-- What HOST drives while the block is busy changes nothing, `rst` apart (rules R22, R226, R231). -/
def Obligations.BusyIgnoresHost : Prop :=
  ∀ (s : State) (p : HostPorts), s.phase ≠ .idle → p.rst = s.inputs.ports.rst →
    ∀ t, step s = .next t → step { s with inputs := { s.inputs with ports := p } } = .next t

/-- The result fields an operation leaves with a value: those its rule names if it ends Ok, none if it
ends in an error, the errors of the start included (rule R28). -/
def Obligations.ResultFieldsByOperation : Prop :=
  (∀ (i : Instr) (s t : State), exec i s = .next t → s.phase ≠ .done → t.phase = .done →
    t.result.errCode = 0 →
    (t.result.raw.isSome, t.result.cfg.isSome, t.result.status.isSome, t.result.zmco.isSome) =
      writesResult i) ∧
  (∀ s t : State, step s = .next t → s.phase ≠ .done → t.phase = .done → t.result.errCode ≠ 0 →
    t.result.raw = none ∧ t.result.cfg = none ∧ t.result.status = none ∧ t.result.zmco = none)

/-- Which operation can end with which code: no other code occurs, and each of these does, from a legal
state (rule R198, which the spec marks as derived from the operation rules; a command byte is no
operation of that table). -/
def Obligations.ErrorCodesByOperation : Prop :=
  (∀ (i : Instr) (s t : State), exec i s = .next t → s.phase ≠ .done → t.phase = .done →
    t.result.errCode ∈ possibleCodes i) ∧
  (∀ i : Instr, isOperation i = true → ∀ code ∈ possibleCodes i,
    ∃ s t : State, legal s = true ∧ exec i s = .next t ∧ s.phase ≠ .done ∧ t.phase = .done ∧
      t.result.errCode = code)

/-- `err_info` by `err_code`, in every step that enters DONE (rule R199). The status byte is byte_lat
for STATUS_DECODE and sb_lat for the operations that read STATUS. -/
def Obligations.ErrorInfoByCode : Prop :=
  ∀ s t : State, step s = .next t → s.phase ≠ .done → t.phase = .done →
    (t.result.errCode = 1 →
      ∃ te left, s.inputs.bus = .err te left ∧ t.result.errInfo = te.code) ∧
    (t.result.errCode = 2 → t.result.errInfo = 0b00010011#8) ∧
    (t.result.errCode = 3 →
      t.result.errInfo = if s.latches.op = 0x6#4 then s.latches.byte else s.internal.sb) ∧
    (t.result.errCode = 7 → t.result.errInfo = s.inputs.ports.op.setWidth 8) ∧
    (t.result.errCode ∈ [(0 : BitVec 4), 4, 5, 6, 8] → t.result.errInfo = 0)

/-- Error entry and the return from it (rules R190, R193): `err_code` is not 0, no result field holds
a value, the internal latches and `dev_addr` are as they were, nothing more is requested, and the next
step without reset goes to IDLE with the error still readable. And a transport error is opaque (rules R7,
R64): relabelling the errors everywhere, whatever `E` they are taken from, relabels the next state and
changes nothing else, as long as each keeps its port code. -/
def Obligations.ErrorEntryAndReturn : Prop :=
  (∀ s t : State, step s = .next t → s.phase ≠ .done → t.phase = .done → t.result.errCode ≠ 0 →
    t.result.raw = none ∧ t.result.cfg = none ∧ t.result.status = none ∧ t.result.zmco = none ∧
    t.internal = s.internal ∧ t.devAddr = s.devAddr ∧ busRequest t = none ∧ delayRequest t = none ∧
    (t.inputs.ports.rst = false →
      ∃ u, step t = .next u ∧ u.phase = .idle ∧ u.result = t.result ∧ u.hist = t.hist)) ∧
  (∀ (f : TransportError → TransportError) (s t : State), (∀ te, (f te).code = te.code) →
    step s = .next t → step (relabel f s) = .next (relabel f t))

/-- The record and status ports (rules R101, R102): a record is well formed exactly when it is the
port form of a Configuration, of one only; every status code is the code of one member. -/
def Obligations.PortFormsAreUnique : Prop :=
  (∀ r : CfgRec, r.wellFormed = true ↔ ∃ c, cfgRecOf c = r) ∧
  (∀ (r : CfgRec) (c : Configuration), configurationOf r = some c ↔ cfgRecOf c = r) ∧
  (∀ (n : BitVec 2) (m : Status), statusOfCode n = m ↔ statusCode m = n)

/-! ### Invariants -/

/-- The three invariants hold at power-on. -/
def Obligations.PowerOnInvariants : Prop :=
  guarded State.reset ∧ holdKept State.reset ∧ factoryKept State.reset

/-- Every step keeps a legal state legal (rules R24, R27, R101, R170, R181, R189, R190). -/
def Obligations.LegalStatesKept : Prop :=
  ∀ s t : State, legal s = true → step s = .next t → legal t = true

/-- What rule R233 says can and cannot happen. A legal state always has a next state: there is no
fault (log 13), and a stuck state has a waiting step, which is the model's convention, the rule giving
the block no step of its own there (log 8). A run in which SENSOR and DELAY are weakly fair (log 19)
does not hang. -/
def Obligations.LegalStatesStep : Prop :=
  (∀ s : State, legal s = true → ∃ t, step s = .next t) ∧
  (∀ s : State, weaklyFair s → ¬ hangs s)

/-- The guard (rules R155, R164 to R166, R223): every write to BURN that ever happens is one of the two
commands, written immediately after its own precondition was read. -/
def Obligations.BurnWritesStayGuarded : Prop :=
  ∀ s t : State, guarded s → step s = .next t → guarded t

/-- The hold (rules R167, R220): as long as HOST does not reset the block, the event after a successful
burn write is `Dl(1)`. -/
def Obligations.SettleHoldKept : Prop :=
  ∀ s t : State, s.params.wellFormed = true → s.inputs.ports.rst = false → holdKept s →
    step s = .next t → holdKept t

/-- The factory bits (rules R128, R225): every write to CONF is the merge of a Configuration with the
word read immediately before it. -/
def Obligations.ConfWritesStayMerged : Prop :=
  ∀ s t : State, factoryKept s → step s = .next t → factoryKept t

/-! ### Whole operations -/

/-- Without reset, a step of a legal busy block either waits, with everything of the block as it was, or
moves on to a later phase (rules R170, R230). Where a collaborator has not answered it waits (rule R233);
that waiting is a step is the model's convention (log 8). -/
def Obligations.PhasesOnlyAdvance : Prop :=
  (∀ s t : State, legal s = true → s.inputs.ports.rst = false → s.phase ≠ .idle →
    s.phase ≠ .done → step s = .next t →
    (t.phase = s.phase ∧ t.latches = s.latches ∧ t.internal = s.internal ∧ t.result = s.result ∧
      t.devAddr = s.devAddr ∧ t.hist = s.hist) ∨
    phaseRank t.phase < phaseRank s.phase) ∧
  (∀ s : State, legal s = true → stuck s → step s = .next (environmentMove s))

/-- Termination (rule R230). With collaborators that answer in every step, a started operation is over
within 7 steps, one that is no burn within 4. With collaborators that are only weakly fair it is over
too, after any finite waits, and at most 7 of its steps (4 if it is no burn) go from phase to phase. The
fairness is the rule's assumption (log 19), the waiting steps are the model's (log 8). -/
def Obligations.OperationsEnd : Prop :=
  (∀ s : State, legal s = true → noReset s → alwaysResponsive s →
    (s.phase = .idle → s.inputs.ports.start = true) →
    (∃ t, runToDone 7 s = .next t ∧ t.phase = .done) ∧
    (s.phase = .idle → s.inputs.ports.op ≠ 0xB#4 → s.inputs.ports.op ≠ 0xC#4 →
      ∃ t, runToDone 4 s = .next t ∧ t.phase = .done)) ∧
  (∀ s : State, legal s = true → noReset s → weaklyFair s →
    (s.phase = .idle → s.inputs.ports.start = true) →
    ∃ k t, runToDone k s = .next t ∧ t.phase = .done ∧ phaseMoves k s ≤ 7 ∧
      (s.phase = .idle → s.inputs.ports.op ≠ 0xB#4 → s.inputs.ports.op ≠ 0xC#4 →
        phaseMoves k s ≤ 4))

/-- Runs (rule R232). What counts as a run is the model's choice (log 25): HOST drives each operation in
the first state at IDLE, and each has `k` steps to reach DONE. From any legal power-on state with collaborators that answer, any finite list of
operations runs to its end: as many results as operations, and the block back at IDLE. And whatever the
collaborators do, in the history of any run that is over every burn write was guarded, the event after
every successful one is `Dl(1)`, and every CONF write was a merge. -/
def Obligations.FinishedRuns : Prop :=
  (∀ (s : State) (ops : List HostPorts), poweredOn s → legal s = true → noReset s →
    alwaysResponsive s → ∃ rs t, runOperations 7 ops s = some (rs, t) ∧ rs.length = ops.length ∧
      final t = true ∧ observation 7 ops s = some ⟨rs, t.hist⟩) ∧
  (∀ (k : Nat) (s : State) (ops : List HostPorts) (o : Observation), poweredOn s → legal s = true →
    noReset s → observation k ops s = some o →
    burnsGuarded s.params o.hist ∧ confWritesMerged s.params o.hist ∧
    ∀ pre payload post, o.hist = pre ++ .wr s.params.addrBurn payload .ok :: post →
      post.head? = some (.dl burnSettleMs))

/-- BURN_MANG_CONFIG from start to DONE does what rule R162 lists, whatever the counter read and the
write are answered. -/
def Obligations.BurnMangConfigRun : Prop :=
  ∀ (s : State) (m1 m2 m3 m4 : EnvMove) (rest : List EnvMove) (r1 : SensorRegs),
    s.phase = .idle → s.inputs.ports.start = true → s.inputs.ports.op = 0xB#4 → noReset s →
    s.future = m1 :: m2 :: m3 :: m4 :: rest → m1.sensor = some r1 →
    m1.inputs.bus ≠ .pending → m3.inputs.bus ≠ .pending → m4.inputs.delayDone = true →
    ∃ t, runToDone 5 s = .next t ∧ t.phase = .done ∧
      t.result = (burnMangConfigTable s.params (answer m1.inputs.bus r1.zmco)
        (writeAnswer m3.inputs.bus)).1 ∧
      t.hist = s.hist ++ (burnMangConfigTable s.params (answer m1.inputs.bus r1.zmco)
        (writeAnswer m3.inputs.bus)).2

/-- BURN_POSITION from start to DONE does what rule R163's table lists, row by row, whatever the two
reads and the write are answered. -/
def Obligations.BurnPositionRun : Prop :=
  ∀ (s : State) (m1 m2 m3 m4 m5 m6 : EnvMove) (rest : List EnvMove) (r1 r3 : SensorRegs),
    s.phase = .idle → s.inputs.ports.start = true → s.inputs.ports.op = 0xC#4 → noReset s →
    s.future = m1 :: m2 :: m3 :: m4 :: m5 :: m6 :: rest →
    m1.sensor = some r1 → m3.sensor = some r3 → m1.inputs.bus ≠ .pending →
    m3.inputs.bus ≠ .pending → m5.inputs.bus ≠ .pending → m6.inputs.delayDone = true →
    ∃ t, runToDone 7 s = .next t ∧ t.phase = .done ∧
      t.result = (burnPositionTable s.params (answer m1.inputs.bus r1.zmco)
        (answer m3.inputs.bus r3.status) (writeAnswer m5.inputs.bus)).1 ∧
      t.hist = s.hist ++ (burnPositionTable s.params (answer m1.inputs.bus r1.zmco)
        (answer m3.inputs.bus r3.status) (writeAnswer m5.inputs.bus)).2

/-- SET_CONFIG from start to DONE: read, merge, write (rules R125, R128), whatever both transactions
are answered. -/
def Obligations.SetConfigRun : Prop :=
  ∀ (s : State) (m1 m2 m3 : EnvMove) (rest : List EnvMove) (r1 : SensorRegs) (c : Configuration),
    s.phase = .idle → s.inputs.ports.start = true → s.inputs.ports.op = 0x5#4 →
    s.inputs.ports.cfgIn = cfgRecOf c → noReset s → s.future = m1 :: m2 :: m3 :: rest →
    m1.sensor = some r1 → m1.inputs.bus ≠ .pending → m3.inputs.bus ≠ .pending →
    ∃ t, runToDone 4 s = .next t ∧ t.phase = .done ∧
      t.result = (setConfigTable s.params c (answer m1.inputs.bus r1.conf)
        (writeAnswer m3.inputs.bus)).1 ∧
      t.hist = s.hist ++ (setConfigTable s.params c (answer m1.inputs.bus r1.conf)
        (writeAnswer m3.inputs.bus)).2

/-- What SET_CONFIG's Ok means (rule R128), however long the collaborators take: the last two events
are a read of CONF and a write of CONF, and the word written has the top two bits of the word read and
the low fourteen of the encoding. -/
def Obligations.SetConfigKeepsFactoryBits : Prop :=
  ∀ (k : Nat) (s t : State) (c : Configuration), s.params.wellFormed = true → s.phase = .idle →
    s.inputs.ports.start = true → s.inputs.ports.op = 0x5#4 → s.inputs.ports.cfgIn = cfgRecOf c →
    noReset s → runToDone k s = .next t → t.phase = .done → t.result.errCode = 0 →
    ∃ b0 b1 h l : Byte, t.hist = s.hist ++
        [.rd s.params.addrConf 2 (.ok [b0, b1]), .wr s.params.addrConf [h, l] .ok] ∧
      (be16 h l).extractLsb' 14 2 = (be16 b0 b1).extractLsb' 14 2 ∧
      (be16 h l).extractLsb' 0 14 = (encodeConf s.params.confLayout c).extractLsb' 0 14 ∧
      t.result.raw = some (be16 h l)

/-- Refusal instead of attempt (rule R166), however long the collaborators take: a burn that ends with
a guard violation, an undecodable status or a transport error from a read (the last event is then that
read) has sent no write at all. -/
def Obligations.RefusedBurnWritesNothing : Prop :=
  ∀ (k : Nat) (s t : State), s.phase = .idle →
    s.inputs.ports.start = true → (s.inputs.ports.op = 0xB#4 ∨ s.inputs.ports.op = 0xC#4) →
    noReset s → runToDone k s = .next t → t.phase = .done →
    (t.result.errCode ∈ [(3 : BitVec 4), 4, 5, 6] ∨
      (t.result.errCode = 1 ∧ ∃ pre a n te, t.hist = pre ++ [.rd a n (.err te)])) →
    ∃ new, t.hist = s.hist ++ new ∧ ∀ e ∈ new, isWrite e = false

/-- What Ok means (rules R167, R168), however long the collaborators take: the precondition held for
the values read, the burn's own command was written and accepted once, the delay was asked for and
returned before DONE, and nothing else reached the sensor. `Dl(1)` stands for the hold as rule R200
says; the model keeps no clock (log 19). -/
def Obligations.OkBurnServedDelay : Prop :=
  ∀ (k : Nat) (s t : State), s.phase = .idle →
    s.inputs.ports.start = true → noReset s → runToDone k s = .next t → t.phase = .done →
    t.result.errCode = 0 →
    (s.inputs.ports.op = 0xB#4 →
      ∃ b, mask2 s.params.zmcoLsb b = 0 ∧ t.hist = s.hist ++
        [.rd s.params.addrZmco 1 (.ok [b]), .wr s.params.addrBurn [0x40#8] .ok, .dl 1]) ∧
    (s.inputs.ports.op = 0xC#4 →
      ∃ b y, mask2 s.params.zmcoLsb b < 3 ∧
        statusDecode s.params.statusLayout y = .ok .magnetDetected ∧ t.hist = s.hist ++
        [.rd s.params.addrZmco 1 (.ok [b]), .rd s.params.addrStatus 1 (.ok [y]),
         .wr s.params.addrBurn [0x80#8] .ok, .dl 1])

/-- No caching (rules R26, R164, R222): what earlier operations left in the operand latches, the
internal latches and the result registers has no effect on an operation's result or on its events. -/
def Obligations.OperationsStartFresh : Prop :=
  ∀ (k : Nat) (s t : State) (l : OperandLatches) (n : InternalLatches) (r : ResultRegs),
    s.phase = .idle → s.inputs.ports.start = true → noReset s →
    runToDone k s = .next t → t.phase = .done →
    ∃ u, runToDone k { s with latches := l, internal := n, result := r } = .next u ∧
      u.phase = .done ∧ u.result = t.result ∧ u.hist = t.hist ∧ u.sensor = t.sensor
end

