-- ==== Sys2Proof/Laws/State.lean ====
section
/-! SUPPORT. What each named update of Ops does to each field of State, so that no proof unfolds a
record update. -/

namespace Sys2Proof.Machine

/-! ### setPhase -/

@[simp] theorem setPhase_params (p : Phase) (s : State) : (setPhase p s).params = s.params := rfl
@[simp] theorem setPhase_devAddr (p : Phase) (s : State) : (setPhase p s).devAddr = s.devAddr := rfl
@[simp] theorem setPhase_phase (p : Phase) (s : State) : (setPhase p s).phase = p := rfl
@[simp] theorem setPhase_latches (p : Phase) (s : State) : (setPhase p s).latches = s.latches := rfl
@[simp] theorem setPhase_internal (p : Phase) (s : State) :
    (setPhase p s).internal = s.internal := rfl
@[simp] theorem setPhase_result (p : Phase) (s : State) : (setPhase p s).result = s.result := rfl
@[simp] theorem setPhase_sensor (p : Phase) (s : State) : (setPhase p s).sensor = s.sensor := rfl
@[simp] theorem setPhase_hist (p : Phase) (s : State) : (setPhase p s).hist = s.hist := rfl
@[simp] theorem setPhase_inputs (p : Phase) (s : State) : (setPhase p s).inputs = s.inputs := rfl
@[simp] theorem setPhase_future (p : Phase) (s : State) : (setPhase p s).future = s.future := rfl

/-! ### record -/

@[simp] theorem record_params (e : Event) (s : State) : (record e s).params = s.params := rfl
@[simp] theorem record_devAddr (e : Event) (s : State) : (record e s).devAddr = s.devAddr := rfl
@[simp] theorem record_phase (e : Event) (s : State) : (record e s).phase = s.phase := rfl
@[simp] theorem record_latches (e : Event) (s : State) : (record e s).latches = s.latches := rfl
@[simp] theorem record_internal (e : Event) (s : State) : (record e s).internal = s.internal := rfl
@[simp] theorem record_result (e : Event) (s : State) : (record e s).result = s.result := rfl
@[simp] theorem record_sensor (e : Event) (s : State) : (record e s).sensor = s.sensor := rfl
@[simp] theorem record_hist (e : Event) (s : State) : (record e s).hist = s.hist ++ [e] := rfl
@[simp] theorem record_inputs (e : Event) (s : State) : (record e s).inputs = s.inputs := rfl
@[simp] theorem record_future (e : Event) (s : State) : (record e s).future = s.future := rfl

/-! ### setCur -/

@[simp] theorem setCur_params (v : Word) (s : State) : (setCur v s).params = s.params := rfl
@[simp] theorem setCur_devAddr (v : Word) (s : State) : (setCur v s).devAddr = s.devAddr := rfl
@[simp] theorem setCur_phase (v : Word) (s : State) : (setCur v s).phase = s.phase := rfl
@[simp] theorem setCur_latches (v : Word) (s : State) : (setCur v s).latches = s.latches := rfl
@[simp] theorem setCur_internal (v : Word) (s : State) :
    (setCur v s).internal = { s.internal with cur := v } := rfl
@[simp] theorem setCur_result (v : Word) (s : State) : (setCur v s).result = s.result := rfl
@[simp] theorem setCur_sensor (v : Word) (s : State) : (setCur v s).sensor = s.sensor := rfl
@[simp] theorem setCur_hist (v : Word) (s : State) : (setCur v s).hist = s.hist := rfl
@[simp] theorem setCur_inputs (v : Word) (s : State) : (setCur v s).inputs = s.inputs := rfl
@[simp] theorem setCur_future (v : Word) (s : State) : (setCur v s).future = s.future := rfl

/-! ### setZ -/

@[simp] theorem setZ_params (z : BitVec 2) (s : State) : (setZ z s).params = s.params := rfl
@[simp] theorem setZ_devAddr (z : BitVec 2) (s : State) : (setZ z s).devAddr = s.devAddr := rfl
@[simp] theorem setZ_phase (z : BitVec 2) (s : State) : (setZ z s).phase = s.phase := rfl
@[simp] theorem setZ_latches (z : BitVec 2) (s : State) : (setZ z s).latches = s.latches := rfl
@[simp] theorem setZ_internal (z : BitVec 2) (s : State) :
    (setZ z s).internal = { s.internal with z := z } := rfl
@[simp] theorem setZ_result (z : BitVec 2) (s : State) : (setZ z s).result = s.result := rfl
@[simp] theorem setZ_sensor (z : BitVec 2) (s : State) : (setZ z s).sensor = s.sensor := rfl
@[simp] theorem setZ_hist (z : BitVec 2) (s : State) : (setZ z s).hist = s.hist := rfl
@[simp] theorem setZ_inputs (z : BitVec 2) (s : State) : (setZ z s).inputs = s.inputs := rfl
@[simp] theorem setZ_future (z : BitVec 2) (s : State) : (setZ z s).future = s.future := rfl

/-! ### setSb -/

@[simp] theorem setSb_params (b : Byte) (s : State) : (setSb b s).params = s.params := rfl
@[simp] theorem setSb_devAddr (b : Byte) (s : State) : (setSb b s).devAddr = s.devAddr := rfl
@[simp] theorem setSb_phase (b : Byte) (s : State) : (setSb b s).phase = s.phase := rfl
@[simp] theorem setSb_latches (b : Byte) (s : State) : (setSb b s).latches = s.latches := rfl
@[simp] theorem setSb_internal (b : Byte) (s : State) :
    (setSb b s).internal = { s.internal with sb := b } := rfl
@[simp] theorem setSb_result (b : Byte) (s : State) : (setSb b s).result = s.result := rfl
@[simp] theorem setSb_sensor (b : Byte) (s : State) : (setSb b s).sensor = s.sensor := rfl
@[simp] theorem setSb_hist (b : Byte) (s : State) : (setSb b s).hist = s.hist := rfl
@[simp] theorem setSb_inputs (b : Byte) (s : State) : (setSb b s).inputs = s.inputs := rfl
@[simp] theorem setSb_future (b : Byte) (s : State) : (setSb b s).future = s.future := rfl

/-! ### storeReg -/

@[simp] theorem storeReg_params (r : Reg) (v : Word) (s : State) :
    (storeReg r v s).params = s.params := rfl
@[simp] theorem storeReg_devAddr (r : Reg) (v : Word) (s : State) :
    (storeReg r v s).devAddr = s.devAddr := rfl
@[simp] theorem storeReg_phase (r : Reg) (v : Word) (s : State) :
    (storeReg r v s).phase = s.phase := rfl
@[simp] theorem storeReg_latches (r : Reg) (v : Word) (s : State) :
    (storeReg r v s).latches = s.latches := rfl
@[simp] theorem storeReg_internal (r : Reg) (v : Word) (s : State) :
    (storeReg r v s).internal = s.internal := rfl
@[simp] theorem storeReg_result (r : Reg) (v : Word) (s : State) :
    (storeReg r v s).result = s.result := rfl
@[simp] theorem storeReg_sensor (r : Reg) (v : Word) (s : State) :
    (storeReg r v s).sensor = regStore s.sensor v r := rfl
@[simp] theorem storeReg_hist (r : Reg) (v : Word) (s : State) :
    (storeReg r v s).hist = s.hist := rfl
@[simp] theorem storeReg_inputs (r : Reg) (v : Word) (s : State) :
    (storeReg r v s).inputs = s.inputs := rfl
@[simp] theorem storeReg_future (r : Reg) (v : Word) (s : State) :
    (storeReg r v s).future = s.future := rfl

/-! ### endWith -/

@[simp] theorem endWith_params (r : ResultRegs) (s : State) : (endWith r s).params = s.params := rfl
@[simp] theorem endWith_devAddr (r : ResultRegs) (s : State) :
    (endWith r s).devAddr = s.devAddr := rfl
@[simp] theorem endWith_phase (r : ResultRegs) (s : State) : (endWith r s).phase = .done := rfl
@[simp] theorem endWith_latches (r : ResultRegs) (s : State) :
    (endWith r s).latches = s.latches := rfl
@[simp] theorem endWith_internal (r : ResultRegs) (s : State) :
    (endWith r s).internal = s.internal := rfl
@[simp] theorem endWith_result (r : ResultRegs) (s : State) : (endWith r s).result = r := rfl
@[simp] theorem endWith_sensor (r : ResultRegs) (s : State) : (endWith r s).sensor = s.sensor := rfl
@[simp] theorem endWith_hist (r : ResultRegs) (s : State) : (endWith r s).hist = s.hist := rfl
@[simp] theorem endWith_inputs (r : ResultRegs) (s : State) : (endWith r s).inputs = s.inputs := rfl
@[simp] theorem endWith_future (r : ResultRegs) (s : State) : (endWith r s).future = s.future := rfl

/-! ### raise -/

@[simp] theorem raise_params (e : BlockError) (s : State) : (raise e s).params = s.params := rfl
@[simp] theorem raise_devAddr (e : BlockError) (s : State) : (raise e s).devAddr = s.devAddr := rfl
@[simp] theorem raise_phase (e : BlockError) (s : State) : (raise e s).phase = .done := rfl
@[simp] theorem raise_latches (e : BlockError) (s : State) : (raise e s).latches = s.latches := rfl
@[simp] theorem raise_internal (e : BlockError) (s : State) :
    (raise e s).internal = s.internal := rfl
@[simp] theorem raise_result (e : BlockError) (s : State) :
    (raise e s).result = ⟨errorCode e, errorInfo e, none, none, none, none⟩ := rfl
@[simp] theorem raise_sensor (e : BlockError) (s : State) : (raise e s).sensor = s.sensor := rfl
@[simp] theorem raise_hist (e : BlockError) (s : State) : (raise e s).hist = s.hist := rfl
@[simp] theorem raise_inputs (e : BlockError) (s : State) : (raise e s).inputs = s.inputs := rfl
@[simp] theorem raise_future (e : BlockError) (s : State) : (raise e s).future = s.future := rfl

/-! ### endOk -/

@[simp] theorem endOk_params (s : State) : (endOk s).params = s.params := rfl
@[simp] theorem endOk_devAddr (s : State) : (endOk s).devAddr = s.devAddr := rfl
@[simp] theorem endOk_phase (s : State) : (endOk s).phase = .done := rfl
@[simp] theorem endOk_latches (s : State) : (endOk s).latches = s.latches := rfl
@[simp] theorem endOk_internal (s : State) : (endOk s).internal = s.internal := rfl
@[simp] theorem endOk_result (s : State) : (endOk s).result = clearedResult := rfl
@[simp] theorem endOk_sensor (s : State) : (endOk s).sensor = s.sensor := rfl
@[simp] theorem endOk_hist (s : State) : (endOk s).hist = s.hist := rfl
@[simp] theorem endOk_inputs (s : State) : (endOk s).inputs = s.inputs := rfl
@[simp] theorem endOk_future (s : State) : (endOk s).future = s.future := rfl

/-! ### endRaw -/

@[simp] theorem endRaw_params (v : Word) (s : State) : (endRaw v s).params = s.params := rfl
@[simp] theorem endRaw_devAddr (v : Word) (s : State) : (endRaw v s).devAddr = s.devAddr := rfl
@[simp] theorem endRaw_phase (v : Word) (s : State) : (endRaw v s).phase = .done := rfl
@[simp] theorem endRaw_latches (v : Word) (s : State) : (endRaw v s).latches = s.latches := rfl
@[simp] theorem endRaw_internal (v : Word) (s : State) : (endRaw v s).internal = s.internal := rfl
@[simp] theorem endRaw_result (v : Word) (s : State) :
    (endRaw v s).result = { clearedResult with raw := some v } := rfl
@[simp] theorem endRaw_sensor (v : Word) (s : State) : (endRaw v s).sensor = s.sensor := rfl
@[simp] theorem endRaw_hist (v : Word) (s : State) : (endRaw v s).hist = s.hist := rfl
@[simp] theorem endRaw_inputs (v : Word) (s : State) : (endRaw v s).inputs = s.inputs := rfl
@[simp] theorem endRaw_future (v : Word) (s : State) : (endRaw v s).future = s.future := rfl

/-! ### endCfg -/

@[simp] theorem endCfg_params (c : Configuration) (s : State) :
    (endCfg c s).params = s.params := rfl
@[simp] theorem endCfg_devAddr (c : Configuration) (s : State) :
    (endCfg c s).devAddr = s.devAddr := rfl
@[simp] theorem endCfg_phase (c : Configuration) (s : State) : (endCfg c s).phase = .done := rfl
@[simp] theorem endCfg_latches (c : Configuration) (s : State) :
    (endCfg c s).latches = s.latches := rfl
@[simp] theorem endCfg_internal (c : Configuration) (s : State) :
    (endCfg c s).internal = s.internal := rfl
@[simp] theorem endCfg_result (c : Configuration) (s : State) :
    (endCfg c s).result = { clearedResult with cfg := some c } := rfl
@[simp] theorem endCfg_sensor (c : Configuration) (s : State) :
    (endCfg c s).sensor = s.sensor := rfl
@[simp] theorem endCfg_hist (c : Configuration) (s : State) : (endCfg c s).hist = s.hist := rfl
@[simp] theorem endCfg_inputs (c : Configuration) (s : State) :
    (endCfg c s).inputs = s.inputs := rfl
@[simp] theorem endCfg_future (c : Configuration) (s : State) :
    (endCfg c s).future = s.future := rfl

/-! ### endStatus -/

@[simp] theorem endStatus_params (c : Status) (s : State) : (endStatus c s).params = s.params := rfl
@[simp] theorem endStatus_devAddr (c : Status) (s : State) :
    (endStatus c s).devAddr = s.devAddr := rfl
@[simp] theorem endStatus_phase (c : Status) (s : State) : (endStatus c s).phase = .done := rfl
@[simp] theorem endStatus_latches (c : Status) (s : State) :
    (endStatus c s).latches = s.latches := rfl
@[simp] theorem endStatus_internal (c : Status) (s : State) :
    (endStatus c s).internal = s.internal := rfl
@[simp] theorem endStatus_result (c : Status) (s : State) :
    (endStatus c s).result = { clearedResult with status := some c } := rfl
@[simp] theorem endStatus_sensor (c : Status) (s : State) : (endStatus c s).sensor = s.sensor := rfl
@[simp] theorem endStatus_hist (c : Status) (s : State) : (endStatus c s).hist = s.hist := rfl
@[simp] theorem endStatus_inputs (c : Status) (s : State) : (endStatus c s).inputs = s.inputs := rfl
@[simp] theorem endStatus_future (c : Status) (s : State) : (endStatus c s).future = s.future := rfl

/-! ### endZmco -/

@[simp] theorem endZmco_params (z : BitVec 2) (s : State) : (endZmco z s).params = s.params := rfl
@[simp] theorem endZmco_devAddr (z : BitVec 2) (s : State) :
    (endZmco z s).devAddr = s.devAddr := rfl
@[simp] theorem endZmco_phase (z : BitVec 2) (s : State) : (endZmco z s).phase = .done := rfl
@[simp] theorem endZmco_latches (z : BitVec 2) (s : State) :
    (endZmco z s).latches = s.latches := rfl
@[simp] theorem endZmco_internal (z : BitVec 2) (s : State) :
    (endZmco z s).internal = s.internal := rfl
@[simp] theorem endZmco_result (z : BitVec 2) (s : State) :
    (endZmco z s).result = { clearedResult with zmco := some z } := rfl
@[simp] theorem endZmco_sensor (z : BitVec 2) (s : State) : (endZmco z s).sensor = s.sensor := rfl
@[simp] theorem endZmco_hist (z : BitVec 2) (s : State) : (endZmco z s).hist = s.hist := rfl
@[simp] theorem endZmco_inputs (z : BitVec 2) (s : State) : (endZmco z s).inputs = s.inputs := rfl
@[simp] theorem endZmco_future (z : BitVec 2) (s : State) : (endZmco z s).future = s.future := rfl

/-! ### finish -/

@[simp] theorem finish_params (s : State) : (finish s).params = s.params := rfl
@[simp] theorem finish_devAddr (s : State) : (finish s).devAddr = s.devAddr := rfl
@[simp] theorem finish_phase (s : State) : (finish s).phase = .idle := rfl
@[simp] theorem finish_latches (s : State) : (finish s).latches = s.latches := rfl
@[simp] theorem finish_internal (s : State) : (finish s).internal = s.internal := rfl
@[simp] theorem finish_result (s : State) : (finish s).result = s.result := rfl
@[simp] theorem finish_sensor (s : State) : (finish s).sensor = s.sensor := rfl
@[simp] theorem finish_hist (s : State) : (finish s).hist = s.hist := rfl
@[simp] theorem finish_inputs (s : State) : (finish s).inputs = s.inputs := rfl
@[simp] theorem finish_future (s : State) : (finish s).future = s.future := rfl

/-! ### startOp -/

@[simp] theorem startOp_params (p : Phase) (s : State) : (startOp p s).params = s.params := rfl
@[simp] theorem startOp_devAddr (p : Phase) (s : State) : (startOp p s).devAddr = s.devAddr := rfl
@[simp] theorem startOp_phase (p : Phase) (s : State) : (startOp p s).phase = p := rfl
@[simp] theorem startOp_latches (p : Phase) (s : State) :
    (startOp p s).latches = latchPorts s.inputs.ports := rfl
@[simp] theorem startOp_internal (p : Phase) (s : State) :
    (startOp p s).internal = s.internal := rfl
@[simp] theorem startOp_result (p : Phase) (s : State) : (startOp p s).result = clearedResult := rfl
@[simp] theorem startOp_sensor (p : Phase) (s : State) : (startOp p s).sensor = s.sensor := rfl
@[simp] theorem startOp_hist (p : Phase) (s : State) : (startOp p s).hist = s.hist := rfl
@[simp] theorem startOp_inputs (p : Phase) (s : State) : (startOp p s).inputs = s.inputs := rfl
@[simp] theorem startOp_future (p : Phase) (s : State) : (startOp p s).future = s.future := rfl

/-! ### resetBlock -/

@[simp] theorem resetBlock_params (s : State) : (resetBlock s).params = s.params := rfl
@[simp] theorem resetBlock_devAddr (s : State) : (resetBlock s).devAddr = s.params.devAddr := rfl
@[simp] theorem resetBlock_phase (s : State) : (resetBlock s).phase = .idle := rfl
@[simp] theorem resetBlock_latches (s : State) : (resetBlock s).latches = resetLatches := rfl
@[simp] theorem resetBlock_internal (s : State) : (resetBlock s).internal = resetInternal := rfl
@[simp] theorem resetBlock_result (s : State) : (resetBlock s).result = clearedResult := rfl
@[simp] theorem resetBlock_sensor (s : State) : (resetBlock s).sensor = s.sensor := rfl
@[simp] theorem resetBlock_hist (s : State) : (resetBlock s).hist = s.hist := rfl
@[simp] theorem resetBlock_inputs (s : State) : (resetBlock s).inputs = s.inputs := rfl
@[simp] theorem resetBlock_future (s : State) : (resetBlock s).future = s.future := rfl

/-! ### environmentMove -/

@[simp] theorem environmentMove_params (s : State) : (environmentMove s).params = s.params := by
  unfold environmentMove; split <;> rfl
@[simp] theorem environmentMove_devAddr (s : State) : (environmentMove s).devAddr = s.devAddr := by
  unfold environmentMove; split <;> rfl
@[simp] theorem environmentMove_phase (s : State) : (environmentMove s).phase = s.phase := by
  unfold environmentMove; split <;> rfl
@[simp] theorem environmentMove_latches (s : State) : (environmentMove s).latches = s.latches := by
  unfold environmentMove; split <;> rfl
@[simp] theorem environmentMove_internal (s : State) : (environmentMove s).internal = s.internal := by
  unfold environmentMove; split <;> rfl
@[simp] theorem environmentMove_result (s : State) : (environmentMove s).result = s.result := by
  unfold environmentMove; split <;> rfl
@[simp] theorem environmentMove_hist (s : State) : (environmentMove s).hist = s.hist := by
  unfold environmentMove; split <;> rfl

theorem environmentMove_nil {s : State} (h : s.future = []) :
    environmentMove s = { s with inputs := { s.inputs with ports := quietPorts } } := by
  unfold environmentMove; rw [h]

theorem environmentMove_cons {s : State} {m : EnvMove} {rest : List EnvMove}
    (h : s.future = m :: rest) :
    environmentMove s =
      { s with inputs := m.inputs, sensor := m.sensor.getD s.sensor, future := rest } := by
  unfold environmentMove; rw [h]

@[simp] theorem environmentMove_future (s : State) :
    (environmentMove s).future = s.future.tail := by
  unfold environmentMove; split <;> simp_all

end Sys2Proof.Machine
end

