-- ==== Sys2Proof/Laws/Ops.lean ====
section
/-! SUPPORT. One lemma per shared operation, saying once everything it can do: the provers cite these
instead of unfolding the operations. -/

namespace Sys2Proof.Machine

/-! ### Bytes and registers -/

@[simp] theorem wordOfBytes_beBytes16 (v : Word) : wordOfBytes (beBytes16 v) = v := by
  apply BitVec.eq_of_getLsbD_eq
  intro i hi
  simp only [wordOfBytes, beBytes16, be16, List.getD_cons_zero, List.getD_cons_succ]
  by_cases h : i < 8
  · simp [h]; omega
  · have h1 : 8 + (i - 8) = i := by omega
    have h2 : i - 8 < 8 := by omega
    simp [h, hi, h1, h2]

@[simp] theorem byteOfBytes_single (b : Byte) : byteOfBytes [b] = b := rfl

/-- A read delivers exactly as many bytes as the register is long (rules R32, R56). -/
@[simp] theorem regBytes_length (r : SensorRegs) (g : Reg) : (regBytes r g).length = regLen g := by
  cases g <;> rfl

@[simp] theorem setWidth_setWidth_byte (c : Byte) : (c.setWidth 16).setWidth 8 = c := by
  ext i hi; simp

@[simp] theorem regPayload_burn (c : Byte) : regPayload (c.setWidth 16) .burn = [c] := by
  simp [regPayload, regLen]

@[simp] theorem regPayload_conf (v : Word) : regPayload v .conf = beBytes16 v := rfl

/-! ### Phases that reach a collaborator -/

/-- What a read phase can do: wait, end with the transport's error, or go on with the bytes read. -/
theorem readPhase_cases {r : Reg} {go : List Byte → State → State} {s : State}
    {o : StepOutcome} (h : readPhase r go s = o) :
    (s.inputs.bus = .pending ∧ o = .next s) ∨
    (∃ te left, s.inputs.bus = .err te left ∧ o = .next (raise (.transport te)
      (record (.rd (regAddr s.params r) (regLen r) (.err te)) s))) ∨
    (s.inputs.bus = .ok ∧ o = .next (go (regBytes s.sensor r)
      (record (.rd (regAddr s.params r) (regLen r) (.ok (regBytes s.sensor r))) s))) := by
  subst h
  unfold readPhase memRead
  rcases s.inputs.bus with _ | _ | ⟨te, left⟩ <;> simp

/-- What a write phase can do: wait, end with the transport's error, or go on. -/
theorem writePhase_cases {r : Reg} {v : Word} {go : State → State} {s : State}
    {o : StepOutcome} (h : writePhase r v go s = o) :
    (s.inputs.bus = .pending ∧ o = .next s) ∨
    (∃ te left, s.inputs.bus = .err te left ∧ o = .next (raise (.transport te)
      (storeReg r left (record (.wr (regAddr s.params r) (regPayload v r) (.err te)) s)))) ∨
    (s.inputs.bus = .ok ∧ o = .next (go
      (storeReg r v (record (.wr (regAddr s.params r) (regPayload v r) .ok) s)))) := by
  subst h
  unfold writePhase memWrite
  rcases s.inputs.bus with _ | _ | ⟨te, left⟩ <;> simp

/-- What SETTLE can do: wait, or end with Ok once the delay has returned. -/
theorem settleDelay_cases {s : State} {o : StepOutcome} (h : settleDelay s = o) :
    (s.inputs.delayDone = false ∧ o = .next s) ∨
    (s.inputs.delayDone = true ∧ o = .next (endOk (record (.dl burnSettleMs) s))) := by
  subst h
  unfold settleDelay delayMs
  cases s.inputs.delayDone <;> simp

/-- What a check phase can do: go on, or end with the violation. -/
theorem checkPhase_cases (r : Except BlockError Unit) (p : Phase) (s : State) :
    (r = .ok () ∧ checkPhase r p s = setPhase p s) ∨
    (∃ e, r = .error e ∧ checkPhase r p s = raise e s) := by
  rcases r with e | u
  · exact .inr ⟨e, rfl, rfl⟩
  · exact .inl ⟨rfl, rfl⟩

/-- What the start of an operation that reads `cfg_lat` can do. -/
theorem startCfgOp_cases (p : Phase) (s : State) :
    (s.inputs.ports.cfgIn.wellFormed = true ∧ startCfgOp p s = startOp p s) ∨
    (s.inputs.ports.cfgIn.wellFormed = false ∧
      startCfgOp p s = raise .illegalOperand (startOp .done s)) := by
  unfold startCfgOp
  cases s.inputs.ports.cfgIn.wellFormed <;> simp

/-- A record is a Configuration exactly when it is well formed (rule R101). -/
theorem configurationOf_isSome (c : CfgRec) : (configurationOf c).isSome = c.wellFormed := by
  obtain ⟨pm, hyst, outs, pwmf, sf, fth, wd⟩ := c
  have : ∀ n : BitVec 2, (outputStageOf n).isSome = (n != 3#2) := by decide
  unfold configurationOf CfgRec.wellFormed
  rw [← this outs]
  cases outputStageOf outs <;> rfl

/-! ### The step -/

/-- A step answers a next state exactly when the block does; the environment then moves. -/
theorem step_eq_next {s t : State} :
    step s = .next t ↔ ∃ u, blockStep exec s = .next u ∧ t = environmentMove u := by
  unfold step afterBlock
  cases blockStep exec s <;> simp [eq_comm]

/-- What the block can do in a step: reset, fetch nothing, run an instruction, or meet a word that is
none. -/
theorem blockStep_cases {run : Instr → State → StepOutcome} {s : State} {o : StepOutcome}
    (h : blockStep run s = o) :
    (s.inputs.ports.rst = true ∧ o = .next (resetBlock s)) ∨
    (s.inputs.ports.rst = false ∧ fetchWord s = none ∧ o = .next (noFetch s)) ∨
    (s.inputs.ports.rst = false ∧ ∃ w i, fetchWord s = some w ∧ decodeWord w = .ok i ∧
      o = run i s) ∨
    (s.inputs.ports.rst = false ∧ ∃ w e, fetchWord s = some w ∧ decodeWord w = .error e ∧
      o = undecodable s) := by
  subst h
  unfold blockStep
  split
  · rename_i hr; exact .inl ⟨hr, rfl⟩
  · rename_i hr
    have hr : s.inputs.ports.rst = false := by simpa using hr
    split
    · rename_i hf; exact .inr (.inl ⟨hr, hf, rfl⟩)
    · rename_i w hf
      split
      · rename_i i hd; exact .inr (.inr (.inl ⟨hr, w, i, hf, hd, rfl⟩))
      · rename_i e hd; exact .inr (.inr (.inr ⟨hr, w, e, hf, hd, rfl⟩))

end Sys2Proof.Machine
end

