-- ==== Sys2Proof/Laws/Codec.lean ====
section
/-! SUPPORT. The small lemmas of the operand forms and of the codec: discriminants and members are
inverse to each other, extraction is the bit range, and decode reads what the bit ranges carry. -/

namespace Sys2Proof.Machine

open Sys2Proof.Safety

/-! ### Members and discriminants (rules R85 to R91, R102) -/

@[simp] theorem powerModeDisc_of : ∀ n, powerModeDisc (powerModeOf n) = n := by decide
@[simp] theorem powerModeOf_disc (m : PowerMode) : powerModeOf (powerModeDisc m) = m := by
  cases m <;> rfl
@[simp] theorem hysteresisDisc_of : ∀ n, hysteresisDisc (hysteresisOf n) = n := by decide
@[simp] theorem hysteresisOf_disc (m : Hysteresis) : hysteresisOf (hysteresisDisc m) = m := by
  cases m <;> rfl
@[simp] theorem outputStageOf_disc (m : OutputStage) :
    outputStageOf (outputStageDisc m) = some m := by
  cases m <;> rfl
@[simp] theorem pwmFrequencyDisc_of : ∀ n, pwmFrequencyDisc (pwmFrequencyOf n) = n := by decide
@[simp] theorem pwmFrequencyOf_disc (m : PwmFrequency) :
    pwmFrequencyOf (pwmFrequencyDisc m) = m := by
  cases m <;> rfl
@[simp] theorem slowFilterDisc_of : ∀ n, slowFilterDisc (slowFilterOf n) = n := by decide
@[simp] theorem slowFilterOf_disc (m : SlowFilter) : slowFilterOf (slowFilterDisc m) = m := by
  cases m <;> rfl
@[simp] theorem fastFilterDisc_of : ∀ n, fastFilterDisc (fastFilterOf n) = n := by decide
@[simp] theorem fastFilterOf_disc (m : FastFilterThreshold) :
    fastFilterOf (fastFilterDisc m) = m := by
  cases m <;> rfl
@[simp] theorem watchdogDisc_of : ∀ n, watchdogDisc (watchdogOf n) = n := by decide
@[simp] theorem watchdogOf_disc (m : WatchdogState) : watchdogOf (watchdogDisc m) = m := by
  cases m <;> rfl
@[simp] theorem statusCode_of : ∀ n, statusCode (statusOfCode n) = n := by decide
@[simp] theorem statusOfCode_code (m : Status) : statusOfCode (statusCode m) = m := by
  cases m <;> rfl

/-- The output stage is the one partial enumeration: no member exactly at 3 (rule R87). -/
theorem outputStageOf_eq_none : ∀ n : BitVec 2, outputStageOf n = none ↔ n = 3#2 := by decide

/-- Where there is a member, its discriminant is the pattern. -/
theorem outputStageDisc_of :
    ∀ (n : BitVec 2) (o : OutputStage), outputStageOf n = some o → outputStageDisc o = n := by
  intro n o
  cases o <;> revert n <;> decide

/-- The record of a Configuration is a record of that Configuration (rule R101). -/
@[simp] theorem configurationOf_cfgRecOf (c : Configuration) :
    configurationOf (cfgRecOf c) = some c := by
  simp [configurationOf, cfgRecOf]

/-- A Configuration's record never carries `outs = 0b11`. -/
@[simp] theorem cfgRecOf_wellFormed (c : Configuration) : (cfgRecOf c).wellFormed = true := by
  rw [← configurationOf_isSome]; simp

/-! ### Fields of a word (rule R120) -/

/-- `extract` is the bit range from `lo` up. -/
theorem extractBits_eq (lo w : Nat) (v : Word) : extractBits lo w v = v.extractLsb' lo w := by
  ext i _; simp [extractBits]

/-- `mask2` is the bit range of the counter (rules R97, R146). -/
theorem mask2_eq (lsb : Nat) (b : Byte) : mask2 lsb b = b.extractLsb' lsb 2 := by
  ext i _; simp [mask2]

/-- A bit of an inserted field. -/
theorem getLsbD_insertBits (lo w : Nat) (n : BitVec w) (i : Nat) :
    (insertBits lo w n).getLsbD i = (decide (i < 16) && decide (lo ≤ i) && n.getLsbD (i - lo)) := by
  simp only [insertBits, BitVec.getLsbD_shiftLeft, BitVec.getLsbD_setWidth]
  by_cases h1 : i < 16 <;> by_cases h2 : lo ≤ i <;> simp [h1, h2]
  have h3 : i - lo < 16 := by omega
  have h4 : ¬ i < lo := by omega
  simp [h3, h4]

/-- A bit of an extracted field. -/
theorem getLsbD_extractBits (lo w : Nat) (v : Word) (i : Nat) :
    (extractBits lo w v).getLsbD i = (decide (i < w) && v.getLsbD (lo + i)) := by
  simp [extractBits]

/-! ### Well-formed layouts (rule R82) -/

/-- Each range of a well-formed layout lies in bits 13:0 and has its field's width. -/
theorem ConfLayout_wellFormed_fits {L : ConfLayout} (h : L.wellFormed = true) (f : Field) :
    (L.range f).lo ≤ (L.range f).hi ∧ (L.range f).hi ≤ 13 ∧
      (L.range f).hi - (L.range f).lo + 1 = f.width := by
  simp [ConfLayout.wellFormed, FieldRange.fits, Field.all] at h
  cases f <;> simp_all

/-- Two ranges of a well-formed layout share no bit. -/
theorem ConfLayout_wellFormed_disjoint {L : ConfLayout} (h : L.wellFormed = true) {f g : Field}
    (hfg : f ≠ g) :
    (L.range f).hi < (L.range g).lo ∨ (L.range g).hi < (L.range f).lo := by
  simp only [ConfLayout.wellFormed, Bool.and_eq_true, List.all_eq_true] at h
  have mem : ∀ f : Field, f ∈ Field.all := by intro f; cases f <;> decide
  have := h.2 f (mem f) g (mem g)
  simpa [FieldRange.disjoint, hfg] using this

/-! ### What decode answers -/

/-- decode answers the Configuration whose discriminants the bit ranges carry, and no other. -/
theorem decodeConf_eq_ok {L : ConfLayout} {v : Word} {c : Configuration} :
    decodeConf L v = .ok c ↔ carries L v c := by
  constructor
  · intro h
    unfold decodeConf at h
    split at h
    · simp at h
    · rename_i o ho
      have ho := outputStageDisc_of _ _ ho
      simp only [Except.ok.injEq] at h
      subst h
      simp only [extractBits_eq] at ho
      simp [carries, cfgRecOf, extractBits_eq, ho]
  · intro h
    obtain ⟨pm, hyst, outs, pwmf, sf, fth, wd⟩ := c
    simp only [carries, cfgRecOf, CfgRec.mk.injEq] at h
    simp [decodeConf, extractBits_eq, ← h]

end Sys2Proof.Machine
end

