-- ==== Sys2Proof/Laws/PerInstr.lean ====
section
/-! SUPPORT. The statement about every instruction, one lemma per constructor: the decoder reads the
word of an instruction as that instruction (rules R98, R100). -/

namespace Sys2Proof.Laws.WordDecodes

/-- The word of a well-formed instruction decodes to it. -/
def Statement (i : Instr) : Prop := i.wellFormed = true ∧ decodeWord (encodeWord i) = .ok i

theorem decode : Statement .decode := by simp only [Statement]; decide
theorem encode : Statement .encode := by simp only [Statement]; decide
theorem merge : Statement .merge := by simp only [Statement]; decide
theorem config : Statement .config := by simp only [Statement]; decide
theorem setConfig : Statement .setConfig := by simp only [Statement]; decide
theorem statusDecode : Statement .statusDecode := by simp only [Statement]; decide
theorem magnetStatus : Statement .magnetStatus := by simp only [Statement]; decide
theorem zmco : Statement .zmco := by simp only [Statement]; decide
theorem guardMangConfig : Statement .guardMangConfig := by simp only [Statement]; decide
theorem guardPosition : Statement .guardPosition := by simp only [Statement]; decide
theorem burnMangConfig : Statement .burnMangConfig := by simp only [Statement]; decide
theorem burnPosition : Statement .burnPosition := by simp only [Statement]; decide
theorem cmdBurnMangConfig : Statement .cmdBurnMangConfig := by simp only [Statement]; decide
theorem cmdBurnPosition : Statement .cmdBurnPosition := by simp only [Statement]; decide

end Sys2Proof.Laws.WordDecodes
end

