-- ==== Sys2Proof/Laws/Step.lean ====
section
/-! SUPPORT. Everything a step of the block can do, said once: the moves of rules R24 and R170, and the
lemma that every next state of `exec` comes by one of them. Invariants are derived from this list. -/

namespace Sys2Proof.Machine

open Sys2Proof.Safety

/-- The moves of the block with an instruction, each with the phase it happens in. -/
inductive BlockMove (i : Instr) (s : State) : State → Prop
  /-- IDLE to the operation's first phase (rules R24, R25). -/
  | start : isOperation i = true → s.phase = .idle →
      (readsCfg i = true → s.inputs.ports.cfgIn.wellFormed = true) →
      BlockMove i s (startOp (firstPhase i) s)
  /-- IDLE to DONE with IllegalOperand (rule R189). -/
  | illegalOperand : readsCfg i = true → s.phase = .idle →
      s.inputs.ports.cfgIn.wellFormed = false →
      BlockMove i s (raise .illegalOperand (startOp .done s))
  /-- DONE to IDLE (rule R193). -/
  | finish : s.phase = .done → BlockMove i s (finish s)
  /-- A collaborator has not answered (rule R233). -/
  | wait : s.phase ∈ [Phase.rdConf, .wrConf, .rdStatus, .rdZmco, .wrBurn, .settle] →
      (s.phase ≠ .settle → s.inputs.bus = .pending) →
      (s.phase = .settle → s.inputs.delayDone = false) → BlockMove i s s
  /-- A read fails (rules R15, R182). -/
  | readFails (r : Reg) (te : TransportError) (left : Word) :
      (s.phase = .rdConf ∧ r = .conf ∧ (i = .config ∨ i = .setConfig)) ∨
        (s.phase = .rdStatus ∧ r = .status ∧ (i = .magnetStatus ∨ i = .burnPosition)) ∨
        (s.phase = .rdZmco ∧ r = .zmco ∧
          (i = .zmco ∨ i = .burnMangConfig ∨ i = .burnPosition)) →
      s.inputs.bus = .err te left →
      BlockMove i s
        (raise (.transport te) (record (.rd (regAddr s.params r) (regLen r) (.err te)) s))
  /-- RD_CONF to EXEC (rules R124, R125). -/
  | readConf : s.phase = .rdConf → (i = .config ∨ i = .setConfig) → s.inputs.bus = .ok →
      BlockMove i s (setPhase .exec (setCur s.sensor.conf
        (record (.rd s.params.addrConf 2 (.ok (beBytes16 s.sensor.conf))) s)))
  /-- RD_STATUS to EXEC or CHK_MAG (rules R142, R163). -/
  | readStatus (p : Phase) : s.phase = .rdStatus →
      (i = .magnetStatus ∧ p = .exec) ∨ (i = .burnPosition ∧ p = .chkMag) →
      s.inputs.bus = .ok →
      BlockMove i s (setPhase p (setSb s.sensor.status
        (record (.rd s.params.addrStatus 1 (.ok [s.sensor.status])) s)))
  /-- RD_ZMCO to CHK_CNT (rules R162, R163). -/
  | readCounter : s.phase = .rdZmco → (i = .burnMangConfig ∨ i = .burnPosition) →
      s.inputs.bus = .ok →
      BlockMove i s (setPhase .chkCnt (setZ (mask2 s.params.zmcoLsb s.sensor.zmco)
        (record (.rd s.params.addrZmco 1 (.ok [s.sensor.zmco])) s)))
  /-- RD_ZMCO to DONE (rule R147). -/
  | readZmco : s.phase = .rdZmco → i = .zmco → s.inputs.bus = .ok →
      BlockMove i s (endZmco (mask2 s.params.zmcoLsb s.sensor.zmco)
        (setZ (mask2 s.params.zmcoLsb s.sensor.zmco)
          (record (.rd s.params.addrZmco 1 (.ok [s.sensor.zmco])) s)))
  /-- EXEC to DONE with a CONF word (rules R122, R123). -/
  | endsRaw (v : Word) : s.phase = .exec → (i = .encode ∨ i = .merge) →
      BlockMove i s (endRaw v s)
  /-- EXEC to DONE with a Configuration (rules R121, R124). -/
  | endsCfg (c : Configuration) : s.phase = .exec → (i = .decode ∨ i = .config) →
      BlockMove i s (endCfg c s)
  /-- EXEC to DONE with the codec error (rules R121, R124, R183). -/
  | codecFails : s.phase = .exec → (i = .decode ∨ i = .config) →
      BlockMove i s (raise (.codecBitPattern .outs 3) s)
  /-- EXEC to DONE with a Status (rules R141, R142). -/
  | endsStatus (m : Status) : s.phase = .exec → (i = .statusDecode ∨ i = .magnetStatus) →
      BlockMove i s (endStatus m s)
  /-- EXEC or CHK_MAG to DONE with the status error (rules R141, R142, R163). -/
  | statusFails (b : Byte) :
      (s.phase = .exec ∧ i = .statusDecode ∧ b = s.latches.byte) ∨
        (s.phase = .exec ∧ i = .magnetStatus ∧ b = s.internal.sb) ∨
        (s.phase = .chkMag ∧ i = .burnPosition ∧ b = s.internal.sb) →
      BlockMove i s (raise (.statusBitPattern b) s)
  /-- EXEC to DONE, a guard's Ok (rules R160, R161). -/
  | guardPasses : s.phase = .exec → (i = .guardMangConfig ∨ i = .guardPosition) →
      BlockMove i s (endOk s)
  /-- A guard violation (rules R160 to R163). -/
  | guardFails (e : BlockError) :
      (s.phase = .exec ∧ i = .guardMangConfig ∧ e = .persistenceExhausted) ∨
        (s.phase = .exec ∧ i = .guardPosition ∧
          (e = .maximumPersistsReached ∨ e = .magnetRequired)) ∨
        (s.phase = .chkCnt ∧ i = .burnMangConfig ∧ e = .persistenceExhausted) ∨
        (s.phase = .chkCnt ∧ i = .burnPosition ∧ e = .maximumPersistsReached) ∨
        (s.phase = .chkMag ∧ i = .burnPosition ∧ e = .magnetRequired) →
      BlockMove i s (raise e s)
  /-- EXEC to WR_CONF (rule R125). -/
  | toWrConf : s.phase = .exec → i = .setConfig → BlockMove i s (setPhase .wrConf s)
  /-- CHK_CNT to WR_BURN (rule R170). -/
  | mangPasses : s.phase = .chkCnt → i = .burnMangConfig → s.internal.z = 0 →
      BlockMove i s (setPhase .wrBurn s)
  /-- CHK_CNT to RD_STATUS (rule R170). -/
  | counterPasses : s.phase = .chkCnt → i = .burnPosition → s.internal.z < 3 →
      BlockMove i s (setPhase .rdStatus s)
  /-- CHK_MAG to WR_BURN (rule R170). -/
  | magnetPasses : s.phase = .chkMag → i = .burnPosition →
      statusDecode s.params.statusLayout s.internal.sb = .ok .magnetDetected →
      BlockMove i s (setPhase .wrBurn s)
  /-- WR_CONF to DONE (rule R125). -/
  | writesConf (v : Word) : s.phase = .wrConf → i = .setConfig → mergedWord s = some v →
      s.inputs.bus = .ok →
      BlockMove i s (endRaw v (storeReg .conf v
        (record (.wr s.params.addrConf (beBytes16 v) .ok) s)))
  /-- WR_CONF to DONE with a transport error (rules R125, R191). -/
  | confWriteFails (v : Word) (te : TransportError) (left : Word) : s.phase = .wrConf → i = .setConfig →
      mergedWord s = some v → s.inputs.bus = .err te left →
      BlockMove i s (raise (.transport te) (storeReg .conf left
        (record (.wr s.params.addrConf (beBytes16 v) (.err te)) s)))
  /-- WR_BURN to SETTLE (rule R170). -/
  | writesBurn (cmd : Byte) : s.phase = .wrBurn →
      ((i = .burnMangConfig ∨ i = .cmdBurnMangConfig) ∧ cmd = cmdMangConfigByte) ∨
        ((i = .burnPosition ∨ i = .cmdBurnPosition) ∧ cmd = cmdPositionByte) →
      s.inputs.bus = .ok →
      BlockMove i s (setPhase .settle (storeReg .burn (cmd.setWidth 16)
        (record (.wr s.params.addrBurn [cmd] .ok) s)))
  /-- WR_BURN to DONE with a transport error, and no delay (rule R173). -/
  | burnWriteFails (cmd : Byte) (te : TransportError) (left : Word) : s.phase = .wrBurn →
      ((i = .burnMangConfig ∨ i = .cmdBurnMangConfig) ∧ cmd = cmdMangConfigByte) ∨
        ((i = .burnPosition ∨ i = .cmdBurnPosition) ∧ cmd = cmdPositionByte) →
      s.inputs.bus = .err te left →
      BlockMove i s (raise (.transport te) (storeReg .burn left
        (record (.wr s.params.addrBurn [cmd] (.err te)) s)))
  /-- SETTLE to DONE (rule R167). -/
  | settles : s.phase = .settle → (i = .burnMangConfig ∨ i = .burnPosition) →
      s.inputs.delayDone = true → BlockMove i s (endOk (record (.dl 1) s))

/-- A stuck state is no next state. -/
theorem noTransition_ne {t : State} : ¬ noTransition = .next t := by simp [noTransition]

/-! ### The shared operations, as moves -/

theorem rdConf_move {i : Instr} {s t : State} (hp : s.phase = .rdConf)
    (hi : i = .config ∨ i = .setConfig) (h : rdConf .exec s = .next t) : BlockMove i s t := by
  rcases readPhase_cases h with ⟨hb, h⟩ | ⟨te, left, hb, h⟩ | ⟨hb, h⟩ <;> cases h
  · exact .wait (by simp [hp]) (fun _ => hb) (by simp [hp])
  · exact .readFails .conf te left (.inl ⟨hp, rfl, hi⟩) hb
  · simpa [regBytes, regAddr, regLen] using BlockMove.readConf (i := i) hp hi hb

theorem rdStatus_move {i : Instr} {p : Phase} {s t : State} (hp : s.phase = .rdStatus)
    (hi : (i = .magnetStatus ∧ p = .exec) ∨ (i = .burnPosition ∧ p = .chkMag))
    (h : rdStatus p s = .next t) : BlockMove i s t := by
  rcases readPhase_cases h with ⟨hb, h⟩ | ⟨te, left, hb, h⟩ | ⟨hb, h⟩ <;> cases h
  · exact .wait (by simp [hp]) (fun _ => hb) (by simp [hp])
  · exact .readFails .status te left (.inr (.inl ⟨hp, rfl, hi.imp And.left And.left⟩)) hb
  · exact .readStatus p hp hi hb

theorem rdZmco_move {i : Instr} {go : BitVec 2 → State → State} {s t : State}
    (hp : s.phase = .rdZmco) (hi : i = .zmco ∨ i = .burnMangConfig ∨ i = .burnPosition)
    (hgo : s.inputs.bus = .ok → BlockMove i s (go (mask2 s.params.zmcoLsb s.sensor.zmco)
      (setZ (mask2 s.params.zmcoLsb s.sensor.zmco)
        (record (.rd s.params.addrZmco 1 (.ok [s.sensor.zmco])) s))))
    (h : rdZmco go s = .next t) : BlockMove i s t := by
  rcases readPhase_cases h with ⟨hb, h⟩ | ⟨te, left, hb, h⟩ | ⟨hb, h⟩ <;> cases h
  · exact .wait (by simp [hp]) (fun _ => hb) (by simp [hp])
  · exact .readFails .zmco te left (.inr (.inr ⟨hp, rfl, hi⟩)) hb
  · exact hgo hb

theorem wrBurn_move {i : Instr} {cmd : Byte} {s t : State} (hp : s.phase = .wrBurn)
    (hi : ((i = .burnMangConfig ∨ i = .cmdBurnMangConfig) ∧ cmd = cmdMangConfigByte) ∨
      ((i = .burnPosition ∨ i = .cmdBurnPosition) ∧ cmd = cmdPositionByte))
    (h : wrBurn cmd s = .next t) : BlockMove i s t := by
  rcases writePhase_cases h with ⟨hb, h⟩ | ⟨te, left, hb, h⟩ | ⟨hb, h⟩ <;> cases h
  · exact .wait (by simp [hp]) (fun _ => hb) (by simp [hp])
  · rw [regPayload_burn]; exact .burnWriteFails cmd te left hp hi hb
  · rw [regPayload_burn]; exact .writesBurn cmd hp hi hb

theorem settleDelay_move {i : Instr} {s t : State} (hp : s.phase = .settle)
    (hi : i = .burnMangConfig ∨ i = .burnPosition) (h : settleDelay s = .next t) :
    BlockMove i s t := by
  rcases settleDelay_cases h with ⟨hd, h⟩ | ⟨hd, h⟩ <;> cases h
  · exact .wait (by simp [hp]) (by simp [hp]) (fun _ => hd)
  · exact .settles hp hi hd

theorem startCfgOp_move {i : Instr} {s : State} (hp : s.phase = .idle) (hc : readsCfg i = true)
    (ho : isOperation i = true) : BlockMove i s (startCfgOp (firstPhase i) s) := by
  rcases startCfgOp_cases (firstPhase i) s with ⟨hw, h⟩ | ⟨hw, h⟩ <;> rw [h]
  · exact .start ho hp (fun _ => hw)
  · exact .illegalOperand hc hp hw

/-! ### What the verdicts can be -/

/-- The one codec error (rules R121, R183). -/
theorem decodeConf_error {L : ConfLayout} {v : Word} {e : BlockError}
    (h : decodeConf L v = .error e) : e = .codecBitPattern .outs 3 := by
  unfold decodeConf at h
  split at h
  · rename_i ho
    rw [outputStageOf_eq_none] at ho
    rw [ho] at h
    exact (Except.error.inj h).symm
  · simp at h

/-- The one status error (rule R140). -/
theorem statusDecode_error {L : StatusLayout} {b : Byte} {e : BlockError}
    (h : statusDecode L b = .error e) : e = .statusBitPattern b := by
  unfold statusDecode at h
  split_ifs at h
  exact (Except.error.inj h).symm

theorem checkMangConfig_ok : ∀ z : BitVec 2, checkMangConfig z = .ok () ↔ z = 0 := by decide

theorem checkMangConfig_error (z : BitVec 2) (e : BlockError)
    (h : checkMangConfig z = .error e) : e = .persistenceExhausted := by
  unfold checkMangConfig at h
  split_ifs at h
  exact (Except.error.inj h).symm

theorem checkPositionCounter_ok : ∀ z : BitVec 2, checkPositionCounter z = .ok () ↔ z < 3 := by
  decide

theorem checkPositionCounter_error (z : BitVec 2) (e : BlockError)
    (h : checkPositionCounter z = .error e) : e = .maximumPersistsReached := by
  unfold checkPositionCounter at h
  split_ifs at h
  exact (Except.error.inj h).symm

theorem checkPositionMagnet_ok (m : Status) :
    checkPositionMagnet m = .ok () ↔ m = .magnetDetected := by
  cases m <;> decide

theorem checkPositionMagnet_error (m : Status) (e : BlockError)
    (h : checkPositionMagnet m = .error e) : e = .magnetRequired := by
  unfold checkPositionMagnet at h
  split_ifs at h
  exact (Except.error.inj h).symm

theorem guardPosition_error (z : BitVec 2) (m : Status) (e : BlockError)
    (h : guardPosition z m = .error e) : e = .maximumPersistsReached ∨ e = .magnetRequired := by
  unfold guardPosition at h
  split at h
  · rename_i he
    cases h
    exact .inl (checkPositionCounter_error z e he)
  · exact .inr (checkPositionMagnet_error m e h)

/-! ### Every meaning makes one of the moves -/

theorem execDecode_move {s t : State} (h : execDecode s = .next t) : BlockMove .decode s t := by
  unfold execDecode at h
  split at h <;> try exact absurd h noTransition_ne
  all_goals cases h
  · exact .start rfl ‹_› (by simp [readsCfg])
  · cases hd : decodeConf s.params.confLayout s.latches.raw with
    | ok c    => exact .endsCfg c ‹_› (.inl rfl)
    | error e => rw [decodeConf_error hd]; exact .codecFails ‹_› (.inl rfl)
  · exact .finish ‹_›

theorem execEncode_move {s t : State} (h : execEncode s = .next t) : BlockMove .encode s t := by
  unfold execEncode at h
  split at h <;> try exact absurd h noTransition_ne
  · cases h; exact startCfgOp_move ‹_› rfl rfl
  · split at h
    · cases h; exact .endsRaw _ ‹_› (.inl rfl)
    · exact absurd h noTransition_ne
  · cases h; exact .finish ‹_›

theorem execMerge_move {s t : State} (h : execMerge s = .next t) : BlockMove .merge s t := by
  unfold execMerge at h
  split at h <;> try exact absurd h noTransition_ne
  · cases h; exact startCfgOp_move ‹_› rfl rfl
  · split at h
    · cases h; exact .endsRaw _ ‹_› (.inr rfl)
    · exact absurd h noTransition_ne
  · cases h; exact .finish ‹_›

theorem execConfig_move {s t : State} (h : execConfig s = .next t) : BlockMove .config s t := by
  unfold execConfig at h
  split at h <;> try exact absurd h noTransition_ne
  · cases h; exact .start rfl ‹_› (by simp [readsCfg])
  · exact rdConf_move ‹_› (.inl rfl) h
  · cases h
    cases hd : decodeConf s.params.confLayout s.internal.cur with
    | ok c    => exact .endsCfg c ‹_› (.inr rfl)
    | error e => rw [decodeConf_error hd]; exact .codecFails ‹_› (.inr rfl)
  · cases h; exact .finish ‹_›

theorem execSetConfig_move {s t : State} (h : execSetConfig s = .next t) :
    BlockMove .setConfig s t := by
  unfold execSetConfig at h
  split at h <;> try exact absurd h noTransition_ne
  · cases h; exact startCfgOp_move ‹_› rfl rfl
  · exact rdConf_move ‹_› (.inr rfl) h
  · cases h; exact .toWrConf ‹_› rfl
  · rename_i hp
    split at h
    · rename_i v hv
      rcases writePhase_cases h with ⟨hb, h⟩ | ⟨te, left, hb, h⟩ | ⟨hb, h⟩ <;> cases h
      · exact .wait (by simp [hp]) (fun _ => hb) (by simp [hp])
      · exact .confWriteFails v te left hp rfl hv hb
      · exact .writesConf v hp rfl hv hb
    · exact absurd h noTransition_ne
  · cases h; exact .finish ‹_›

theorem execStatusDecode_move {s t : State} (h : execStatusDecode s = .next t) :
    BlockMove .statusDecode s t := by
  unfold execStatusDecode at h
  split at h <;> try exact absurd h noTransition_ne
  all_goals cases h
  · exact .start rfl ‹_› (by simp [readsCfg])
  · cases hd : statusDecode s.params.statusLayout s.latches.byte with
    | ok m    => exact .endsStatus m ‹_› (.inl rfl)
    | error e => rw [statusDecode_error hd]; exact .statusFails _ (.inl ⟨‹_›, rfl, rfl⟩)
  · exact .finish ‹_›

theorem execMagnetStatus_move {s t : State} (h : execMagnetStatus s = .next t) :
    BlockMove .magnetStatus s t := by
  unfold execMagnetStatus at h
  split at h <;> try exact absurd h noTransition_ne
  · cases h; exact .start rfl ‹_› (by simp [readsCfg])
  · exact rdStatus_move ‹_› (.inl ⟨rfl, rfl⟩) h
  · cases h
    cases hd : statusDecode s.params.statusLayout s.internal.sb with
    | ok m    => exact .endsStatus m ‹_› (.inr rfl)
    | error e => rw [statusDecode_error hd]; exact .statusFails _ (.inr (.inl ⟨‹_›, rfl, rfl⟩))
  · cases h; exact .finish ‹_›

theorem execZmco_move {s t : State} (h : execZmco s = .next t) : BlockMove .zmco s t := by
  unfold execZmco at h
  split at h <;> try exact absurd h noTransition_ne
  · cases h; exact .start rfl ‹_› (by simp [readsCfg])
  · exact rdZmco_move ‹_› (.inl rfl) (.readZmco ‹_› rfl) h
  · cases h; exact .finish ‹_›

theorem execGuardMangConfig_move {s t : State} (h : execGuardMangConfig s = .next t) :
    BlockMove .guardMangConfig s t := by
  unfold execGuardMangConfig at h
  split at h <;> try exact absurd h noTransition_ne
  all_goals cases h
  · exact .start rfl ‹_› (by simp [readsCfg])
  · cases hd : checkMangConfig s.latches.zin with
    | ok _    => exact .guardPasses ‹_› (.inl rfl)
    | error e => exact .guardFails e (.inl ⟨‹_›, rfl, checkMangConfig_error _ _ hd⟩)
  · exact .finish ‹_›

theorem execGuardPosition_move {s t : State} (h : execGuardPosition s = .next t) :
    BlockMove .guardPosition s t := by
  unfold execGuardPosition at h
  split at h <;> try exact absurd h noTransition_ne
  all_goals cases h
  · exact .start rfl ‹_› (by simp [readsCfg])
  · cases hd : guardPosition s.latches.zin (statusOfCode s.latches.sin) with
    | ok _    => exact .guardPasses ‹_› (.inr rfl)
    | error e => exact .guardFails e (.inr (.inl ⟨‹_›, rfl, guardPosition_error _ _ _ hd⟩))
  · exact .finish ‹_›

theorem execBurnMangConfig_move {s t : State} (h : execBurnMangConfig s = .next t) :
    BlockMove .burnMangConfig s t := by
  unfold execBurnMangConfig at h
  split at h <;> try exact absurd h noTransition_ne
  · cases h; exact .start rfl ‹_› (by simp [readsCfg])
  · exact rdZmco_move ‹_› (.inr (.inl rfl)) (.readCounter ‹_› (.inl rfl)) h
  · cases h
    rcases checkPhase_cases (checkMangConfig s.internal.z) .wrBurn s with ⟨hz, h⟩ | ⟨e, he, h⟩ <;>
      rw [h]
    · exact .mangPasses ‹_› rfl ((checkMangConfig_ok _).1 hz)
    · exact .guardFails e (.inr (.inr (.inl ⟨‹_›, rfl, checkMangConfig_error _ _ he⟩)))
  · exact wrBurn_move ‹_› (.inl ⟨.inl rfl, rfl⟩) h
  · exact settleDelay_move ‹_› (.inl rfl) h
  · cases h; exact .finish ‹_›

theorem execBurnPosition_move {s t : State} (h : execBurnPosition s = .next t) :
    BlockMove .burnPosition s t := by
  unfold execBurnPosition at h
  split at h <;> try exact absurd h noTransition_ne
  · cases h; exact .start rfl ‹_› (by simp [readsCfg])
  · exact rdZmco_move ‹_› (.inr (.inr rfl)) (.readCounter ‹_› (.inr rfl)) h
  · cases h
    rcases checkPhase_cases (checkPositionCounter s.internal.z) .rdStatus s with
      ⟨hz, h⟩ | ⟨e, he, h⟩ <;> rw [h]
    · exact .counterPasses ‹_› rfl ((checkPositionCounter_ok _).1 hz)
    · exact .guardFails e
        (.inr (.inr (.inr (.inl ⟨‹_›, rfl, checkPositionCounter_error _ _ he⟩))))
  · exact rdStatus_move ‹_› (.inr ⟨rfl, rfl⟩) h
  · rename_i hp
    cases h
    cases hd : statusDecode s.params.statusLayout s.internal.sb with
    | error e =>
      have he := statusDecode_error hd
      subst he
      simp only [magnetVerdict, hd, checkPhase]
      exact .statusFails _ (.inr (.inr ⟨hp, rfl, rfl⟩))
    | ok m =>
      simp only [magnetVerdict, hd]
      rcases checkPhase_cases (checkPositionMagnet m) .wrBurn s with ⟨hm, h⟩ | ⟨e, he, h⟩ <;> rw [h]
      · rw [(checkPositionMagnet_ok m).1 hm] at hd
        exact .magnetPasses hp rfl hd
      · exact .guardFails e
          (.inr (.inr (.inr (.inr ⟨hp, rfl, checkPositionMagnet_error _ _ he⟩))))
  · exact wrBurn_move ‹_› (.inr ⟨.inl rfl, rfl⟩) h
  · exact settleDelay_move ‹_› (.inr rfl) h
  · cases h; exact .finish ‹_›

theorem execCmdBurnMangConfig_move {s t : State} (h : execCmdBurnMangConfig s = .next t) :
    BlockMove .cmdBurnMangConfig s t := by
  unfold execCmdBurnMangConfig at h
  split at h
  · exact wrBurn_move ‹_› (.inl ⟨.inr rfl, rfl⟩) h
  all_goals exact absurd h noTransition_ne

theorem execCmdBurnPosition_move {s t : State} (h : execCmdBurnPosition s = .next t) :
    BlockMove .cmdBurnPosition s t := by
  unfold execCmdBurnPosition at h
  split at h
  · exact wrBurn_move ‹_› (.inr ⟨.inr rfl, rfl⟩) h
  all_goals exact absurd h noTransition_ne

/-- Every next state of `exec` comes by one of the moves. -/
theorem exec_move {i : Instr} {s t : State} (h : exec i s = .next t) : BlockMove i s t := by
  cases i with
  | decode            => exact execDecode_move h
  | encode            => exact execEncode_move h
  | merge             => exact execMerge_move h
  | config            => exact execConfig_move h
  | setConfig         => exact execSetConfig_move h
  | statusDecode      => exact execStatusDecode_move h
  | magnetStatus      => exact execMagnetStatus_move h
  | zmco              => exact execZmco_move h
  | guardMangConfig   => exact execGuardMangConfig_move h
  | guardPosition     => exact execGuardPosition_move h
  | burnMangConfig    => exact execBurnMangConfig_move h
  | burnPosition      => exact execBurnPosition_move h
  | cmdBurnMangConfig => exact execCmdBurnMangConfig_move h
  | cmdBurnPosition   => exact execCmdBurnPosition_move h

/-! ### The step of the machine -/

/-- The command byte of each operation (rule R170). -/
theorem burnCommand_eq (op : BitVec 4) : burnCommand op =
    if op = 0xB#4 then some cmdMangConfigByte
    else if op = 0xC#4 then some cmdPositionByte else none := by
  revert op; decide

/-- No `op` value selects a command byte. -/
theorem decodeWord_opsel_isOperation {op : BitVec 4} {i : Instr}
    (h : decodeWord (.opsel op) = .ok i) : isOperation i = true ∧ encodeWord i = .opsel op := by
  have key : ∀ op : BitVec 4, ∀ i ∈ Instr.all, decodeWord (.opsel op) = .ok i →
      isOperation i = true ∧ encodeWord i = .opsel op := by decide
  exact key op i (by cases i <;> decide) h

/-- Which instruction a step runs, by phase. -/
def runs (s : State) (i : Instr) : Prop :=
  (s.phase = .idle ∧ s.inputs.ports.start = true ∧
    decodeWord (.opsel s.inputs.ports.op) = .ok i) ∨
  (s.phase ≠ .idle ∧ s.phase ≠ .done ∧ s.phase ≠ .wrBurn ∧
    decodeWord (.opsel s.latches.op) = .ok i) ∨
  (s.phase = .wrBurn ∧ s.latches.op = 0xB#4 ∧ i = .cmdBurnMangConfig) ∨
  (s.phase = .wrBurn ∧ s.latches.op = 0xC#4 ∧ i = .cmdBurnPosition) ∨
  (s.phase = .wrBurn ∧ s.latches.op ≠ 0xB#4 ∧ s.latches.op ≠ 0xC#4 ∧
    decodeWord (.opsel s.latches.op) = .ok i)

theorem fetchWord_runs {s : State} {w : InstrWord} {i : Instr} (hf : fetchWord s = some w)
    (hd : decodeWord w = .ok i) : runs s i := by
  unfold fetchWord at hf
  have cmds : decodeWord (.burncmd cmdMangConfigByte) = .ok .cmdBurnMangConfig ∧
      decodeWord (.burncmd cmdPositionByte) = .ok .cmdBurnPosition := by decide
  unfold runs
  cases hp : s.phase <;> simp only [hp] at hf
  case idle =>
    split at hf
    · cases hf; simp_all
    · cases hf
  case done => cases hf
  case wrBurn =>
    rw [burnCommand_eq] at hf
    by_cases hb : s.latches.op = 0xB#4
    · simp only [hb, if_true] at hf
      cases hf
      have : i = .cmdBurnMangConfig := by
        have := hd.symm.trans cmds.1; simpa using this
      simp [hb, this]
    · by_cases hc : s.latches.op = 0xC#4
      · simp only [hc] at hf
        cases hf
        have : i = .cmdBurnPosition := by
          have := hd.symm.trans cmds.2; simpa using this
        simp [hc, this]
      · simp only [hb, hc, if_false] at hf
        cases hf
        simp [hb, hc, hd]
  all_goals (cases hf; simp [hd])

/-- Everything a step can do: reset, wait at IDLE, leave DONE, refuse a reserved `op`, or run an
instruction by one of the moves; then the environment moves. -/
theorem step_cases {s t : State} (h : step s = .next t) :
    ∃ u, t = environmentMove u ∧
      ((s.inputs.ports.rst = true ∧ u = resetBlock s) ∨
       (s.inputs.ports.rst = false ∧
        ((s.phase = .idle ∧ s.inputs.ports.start = false ∧ u = s) ∨
         (s.phase = .done ∧ u = finish s) ∨
         (s.phase = .idle ∧ s.inputs.ports.start = true ∧
          decodeWord (.opsel s.inputs.ports.op) = .error (.reservedOp s.inputs.ports.op) ∧
          u = startIllegal s) ∨
         (∃ i, runs s i ∧ BlockMove i s u)))) := by
  obtain ⟨u, hu, ht⟩ := step_eq_next.1 h
  refine ⟨u, ht, ?_⟩
  rcases blockStep_cases hu with ⟨hr, h⟩ | ⟨hr, hf, h⟩ | ⟨hr, w, i, hf, hd, h⟩ | ⟨hr, w, e, hf, hd, h⟩
  · cases h; exact .inl ⟨hr, rfl⟩
  · cases h
    refine .inr ⟨hr, ?_⟩
    cases hp : s.phase <;> simp only [fetchWord, hp] at hf
    case idle =>
      refine .inl ⟨rfl, ?_, by simp [noFetch, hp]⟩
      cases hs : s.inputs.ports.start
      · rfl
      · simp [hs] at hf
    case done => exact .inr (.inl ⟨rfl, by simp [noFetch, hp]⟩)
    case wrBurn => split at hf <;> cases hf
    all_goals cases hf
  · exact .inr ⟨hr, .inr (.inr (.inr ⟨i, fetchWord_runs hf hd, exec_move h.symm⟩))⟩
  · refine .inr ⟨hr, .inr (.inr (.inl ?_))⟩
    unfold undecodable at h
    split at h
    · rename_i hp
      cases h
      simp only [fetchWord, hp] at hf
      cases hs : s.inputs.ports.start
      · simp [hs] at hf
      · simp only [hs, if_true] at hf
        cases hf
        have key : ∀ op e, decodeWord (.opsel op) = .error e → e = .reservedOp op := by
          intro op e he
          simp only [decodeWord] at he
          split at he
          · cases he
          · cases he; rfl
        rw [key _ _ hd] at hd
        exact ⟨hp, rfl, hd, rfl⟩
    · cases h

end Sys2Proof.Machine
end

