-- ==== Sys2Proof/Laws/Runs.lean ====
section
/-! SUPPORT. Lemmas about runs: what the environment's move keeps, what a stuck state is and does, and
when the collaborators are weakly fair. -/

namespace Sys2Proof.Machine

open Sys2Proof.Safety

/-! ### What a step keeps of the inputs to come -/

/-- No reset now and later stays so. -/
theorem noReset_environmentMove {s : State} (h : noReset s) : noReset (environmentMove s) := by
  obtain ⟨-, hf⟩ := h
  unfold environmentMove
  cases hs : s.future with
  | nil => exact ⟨rfl, by simp⟩
  | cons m rest =>
    rw [hs] at hf
    exact ⟨hf m (by simp), fun x hx => hf x (by simp_all)⟩

/-- Collaborators that always answer go on doing so. -/
theorem alwaysResponsive_environmentMove {s : State} (h : alwaysResponsive s) :
    alwaysResponsive (environmentMove s) := by
  obtain ⟨hi, hf⟩ := h
  unfold environmentMove
  cases hs : s.future with
  | nil => exact ⟨hi, by simp⟩
  | cons m rest =>
    rw [hs] at hf
    exact ⟨hf m (by simp), fun x hx => hf x (by simp_all)⟩

/-- No move of the block touches the inputs. -/
theorem BlockMove_inputs {i : Instr} {s t : State} (h : BlockMove i s t) :
    t.inputs = s.inputs ∧ t.future = s.future := by
  cases h <;> simp [startOp]

/-- A step is a move of the block that leaves the inputs alone, and the environment's move. -/
theorem step_inputs {s t : State} (h : step s = .next t) :
    ∃ u, t = environmentMove u ∧ u.inputs = s.inputs ∧ u.future = s.future := by
  obtain ⟨u, ht, hu⟩ := step_cases h
  refine ⟨u, ht, ?_⟩
  rcases hu with ⟨-, rfl⟩ | ⟨-, ⟨-, -, rfl⟩ | ⟨-, rfl⟩ | ⟨-, -, -, rfl⟩ | ⟨i, -, hm⟩⟩
  · simp
  · simp
  · simp
  · simp [startIllegal, startOp]
  · exact BlockMove_inputs hm

theorem noReset_step {s t : State} (hs : noReset s) (h : step s = .next t) : noReset t := by
  obtain ⟨u, rfl, hi, hf⟩ := step_inputs h
  exact noReset_environmentMove (by rw [noReset, hi, hf]; exact hs)

theorem alwaysResponsive_step {s t : State} (hs : alwaysResponsive s) (h : step s = .next t) :
    alwaysResponsive t := by
  obtain ⟨u, rfl, hi, hf⟩ := step_inputs h
  exact alwaysResponsive_environmentMove (by rw [alwaysResponsive, hi, hf]; exact hs)

/-! ### Stuck states (rule R233) -/

/-- A stuck state is not in reset, and which collaborator it waits for is told by its phase. -/
theorem stuck_phase {s : State} (h : stuck s) : s.inputs.ports.rst = false ∧
    ((waitsOnBus s ∧ s.phase ∈ [Phase.rdConf, .rdStatus, .rdZmco, .wrConf, .wrBurn]) ∨
     (waitsOnDelay s ∧ s.phase = .settle)) := by
  rcases h with h | h
  · have hb := h.1
    unfold busRequest at hb
    split at hb
    · simp at hb
    · rename_i hr
      refine ⟨by simpa using hr, .inl ⟨h, ?_⟩⟩
      split at hb <;> simp_all
  · have hd := h.1
    unfold delayRequest at hd
    split at hd
    · simp at hd
    · rename_i hr
      refine ⟨by simpa using hr, .inr ⟨h, ?_⟩⟩
      split at hd <;> simp_all

/-! ### Steps in a row -/

/-- One step more at the end. -/
theorem runSteps_add_one {m : Nat} : ∀ {s t : State}, runSteps m s = .next t →
    runSteps (m + 1) s = step t := by
  induction m with
  | zero => intro s t h; cases h; simp only [runSteps]; cases step s <;> rfl
  | succ m ih =>
    intro s t h
    rw [runSteps] at h ⊢
    cases hs : step s <;> rw [hs] at h
    · exact ih h
    all_goals cases h

/-- One step more at the beginning. -/
theorem runSteps_of_step {s t : State} (h : step s = .next t) (m : Nat) :
    runSteps (m + 1) s = runSteps m t := by
  rw [runSteps, h]

/-- A state that steps to itself stays. -/
theorem runSteps_fixed {s : State} (h : step s = .next s) (m : Nat) : runSteps m s = .next s := by
  induction m with
  | zero => rfl
  | succ m ih => rw [runSteps_of_step h, ih]

/-- What every step keeps holds after any number of steps. -/
theorem runSteps_induct {P : State → Prop} (hP : ∀ s t, P s → step s = .next t → P t) {m : Nat} :
    ∀ {s t : State}, P s → runSteps m s = .next t → P t := by
  induction m with
  | zero => intro s t hs h; cases h; exact hs
  | succ m ih =>
    intro s t hs h
    rw [runSteps] at h
    cases hu : step s <;> rw [hu] at h
    · exact ih (hP _ _ hs hu) h
    all_goals cases h

/-! ### Weak fairness (rules R230, R233) -/

/-- Collaborators that answer in every step are weakly fair. -/
theorem weaklyFair_of_alwaysResponsive {s : State} (h : alwaysResponsive s) : weaklyFair s := by
  constructor <;> intro n <;> refine ⟨n, le_refl n, fun t ht hw => ?_⟩ <;>
    have hr := (runSteps_induct (P := alwaysResponsive) (fun _ _ => alwaysResponsive_step) h ht).1
  · exact hr.1 hw.2
  · exact absurd (hw.2.symm.trans hr.2) (by simp)

/-- Weak fairness of what follows a step is weak fairness before it: a finite wait does no harm. -/
theorem weaklyFair_of_step {s t : State} (h : step s = .next t) (ht : weaklyFair t) :
    weaklyFair s := by
  constructor <;> intro n
  · obtain ⟨m, hm, hf⟩ := ht.1 n
    exact ⟨m + 1, by omega, by rw [runSteps_of_step h]; exact hf⟩
  · obtain ⟨m, hm, hf⟩ := ht.2 n
    exact ⟨m + 1, by omega, by rw [runSteps_of_step h]; exact hf⟩

/-- And the other way round. -/
theorem weaklyFair_step {s t : State} (h : step s = .next t) (hs : weaklyFair s) : weaklyFair t := by
  constructor <;> intro n
  · obtain ⟨m, hm, hf⟩ := hs.1 (n + 1)
    obtain ⟨d, rfl⟩ : ∃ d, m = d + 1 := ⟨m - 1, by omega⟩
    exact ⟨d, by omega, by rw [← runSteps_of_step h]; exact hf⟩
  · obtain ⟨m, hm, hf⟩ := hs.2 (n + 1)
    obtain ⟨d, rfl⟩ : ∃ d, m = d + 1 := ⟨m - 1, by omega⟩
    exact ⟨d, by omega, by rw [← runSteps_of_step h]; exact hf⟩

/-! ### drive and relabel, field by field -/

@[simp] theorem drive_params (p : HostPorts) (s : State) : (drive p s).params = s.params := rfl
@[simp] theorem drive_devAddr (p : HostPorts) (s : State) : (drive p s).devAddr = s.devAddr := rfl
@[simp] theorem drive_phase (p : HostPorts) (s : State) : (drive p s).phase = s.phase := rfl
@[simp] theorem drive_latches (p : HostPorts) (s : State) : (drive p s).latches = s.latches := rfl
@[simp] theorem drive_internal (p : HostPorts) (s : State) : (drive p s).internal = s.internal := rfl
@[simp] theorem drive_result (p : HostPorts) (s : State) : (drive p s).result = s.result := rfl
@[simp] theorem drive_sensor (p : HostPorts) (s : State) : (drive p s).sensor = s.sensor := rfl
@[simp] theorem drive_hist (p : HostPorts) (s : State) : (drive p s).hist = s.hist := rfl
@[simp] theorem drive_future (p : HostPorts) (s : State) : (drive p s).future = s.future := rfl
@[simp] theorem drive_inputs (p : HostPorts) (s : State) :
    (drive p s).inputs = { s.inputs with ports := { p with rst := false, start := true } } := rfl

@[simp] theorem relabel_params (f : TransportError → TransportError) (s : State) :
    (relabel f s).params = s.params := rfl
@[simp] theorem relabel_devAddr (f : TransportError → TransportError) (s : State) :
    (relabel f s).devAddr = s.devAddr := rfl
@[simp] theorem relabel_phase (f : TransportError → TransportError) (s : State) :
    (relabel f s).phase = s.phase := rfl
@[simp] theorem relabel_latches (f : TransportError → TransportError) (s : State) :
    (relabel f s).latches = s.latches := rfl
@[simp] theorem relabel_internal (f : TransportError → TransportError) (s : State) :
    (relabel f s).internal = s.internal := rfl
@[simp] theorem relabel_result (f : TransportError → TransportError) (s : State) :
    (relabel f s).result = s.result := rfl
@[simp] theorem relabel_sensor (f : TransportError → TransportError) (s : State) :
    (relabel f s).sensor = s.sensor := rfl
@[simp] theorem relabel_hist (f : TransportError → TransportError) (s : State) :
    (relabel f s).hist = s.hist.map (relabelEvent f) := rfl
@[simp] theorem relabel_inputs (f : TransportError → TransportError) (s : State) :
    (relabel f s).inputs = relabelInputs f s.inputs := rfl
@[simp] theorem relabel_future (f : TransportError → TransportError) (s : State) :
    (relabel f s).future = s.future.map (fun m => { m with inputs := relabelInputs f m.inputs }) := rfl
@[simp] theorem relabelInputs_ports (f : TransportError → TransportError) (i : Inputs) :
    (relabelInputs f i).ports = i.ports := rfl
@[simp] theorem relabelInputs_bus (f : TransportError → TransportError) (i : Inputs) :
    (relabelInputs f i).bus = relabelReply f i.bus := rfl
@[simp] theorem relabelInputs_delayDone (f : TransportError → TransportError) (i : Inputs) :
    (relabelInputs f i).delayDone = i.delayDone := rfl

/-- Relabelling commutes with the environment's move. -/
theorem environmentMove_relabel (f : TransportError → TransportError) (s : State) :
    environmentMove (relabel f s) = relabel f (environmentMove s) := by
  unfold environmentMove
  rw [relabel_future]
  cases s.future <;> rfl

/-- No fetch looks at a transport error. -/
@[simp] theorem fetchWord_relabel (f : TransportError → TransportError) (s : State) :
    fetchWord (relabel f s) = fetchWord s := rfl

end Sys2Proof.Machine
end

