-- ==== Sys2Proof/Tests/Slice0.lean ====
section
/-! SUPPORT. The model's own tests. Expected values are from spec/95_test_vectors.md (V1 to V10, tables
2.1 to 2.8) and from the tables of 30_encoding.md; after them one witness for each obligation that has
hypotheses. -/

namespace Sys2Proof.Tests

open Sys2Proof.Machine Sys2Proof.Safety

/-! ### Helpers -/

/-- The next state, if there is one. -/
def nextOf : StepOutcome → Option State
  | .next s    => some s
  | .fault _   => none
  | .refused _ => none

/-- The power-on state with the collaborators answering. -/
def ready : State := { State.reset with inputs := { powerOnInputs with bus := .ok, delayDone := true } }

/-- HOST starts `op`. -/
def started (op : BitVec 4) : State :=
  { ready with inputs := { ready.inputs with ports := { quietPorts with start := true, op := op } } }

/-- Operation `op` is in flight in phase `p`. -/
def inFlight (op : BitVec 4) (p : Phase) : State :=
  { ready with phase := p, latches := { resetLatches with op := op } }

/-- The bus has this answer. -/
def onBus (r : BusReply) (s : State) : State := { s with inputs := { s.inputs with bus := r } }

/-- A transport error of the default type: its port code alone (rule R7). -/
def portError (code : Byte) : TransportError := ⟨code, 0⟩

/-- The result registers after one step of the instruction. -/
def resultOf (i : Instr) (s : State) : Option ResultRegs := (nextOf (exec i s)).map (·.result)

/-- The phase and the history after one step of the instruction. -/
def moveOf (i : Instr) (s : State) : Option (Phase × List Event) :=
  (nextOf (exec i s)).map (fun t => (t.phase, t.hist))

/-- The Configuration `[1,1,2,2,1,3,1]` of V5. -/
def cfgV5 : Configuration := ⟨.lowPower1, .lsb1, .digitalPwm, .hz460, .x8, .fth3, .wdOn⟩

/-- `[3,3,2,3,3,7,1]`, every last member (table 2.1). -/
def cfgLast : Configuration := ⟨.lowPower3, .lsb3, .digitalPwm, .hz920, .x2, .fth7, .wdOn⟩

/-- `[0,0,0,0,0,0,0]`, every first member (table 2.1). -/
def cfgFirst : Configuration :=
  ⟨.normal, .hystOff, .analogFullRange, .hz115, .x16, .slowFilterOnly, .wdOff⟩

/-! ### Decoding: each row's word, bit by bit (rules R98, R100), and the words that are no row -/

theorem test_decode_op1 : decodeWord (.opsel 0b0001#4) = .ok .decode := by decide
theorem test_decode_op2 : decodeWord (.opsel 0b0010#4) = .ok .encode := by decide
theorem test_decode_op3 : decodeWord (.opsel 0b0011#4) = .ok .merge := by decide
theorem test_decode_op4 : decodeWord (.opsel 0b0100#4) = .ok .config := by decide
theorem test_decode_op5 : decodeWord (.opsel 0b0101#4) = .ok .setConfig := by decide
theorem test_decode_op6 : decodeWord (.opsel 0b0110#4) = .ok .statusDecode := by decide
theorem test_decode_op7 : decodeWord (.opsel 0b0111#4) = .ok .magnetStatus := by decide
theorem test_decode_op8 : decodeWord (.opsel 0b1000#4) = .ok .zmco := by decide
theorem test_decode_op9 : decodeWord (.opsel 0b1001#4) = .ok .guardMangConfig := by decide
theorem test_decode_opA : decodeWord (.opsel 0b1010#4) = .ok .guardPosition := by decide
theorem test_decode_opB : decodeWord (.opsel 0b1011#4) = .ok .burnMangConfig := by decide
theorem test_decode_opC : decodeWord (.opsel 0b1100#4) = .ok .burnPosition := by decide
theorem test_decode_cmd40 : decodeWord (.burncmd 0b0100_0000#8) = .ok .cmdBurnMangConfig := by decide
theorem test_decode_cmd80 : decodeWord (.burncmd 0b1000_0000#8) = .ok .cmdBurnPosition := by decide

theorem test_reserved_ops :
    decodeWord (.opsel 0b0000#4) = .error (.reservedOp 0b0000#4) ∧
    decodeWord (.opsel 0b1101#4) = .error (.reservedOp 0b1101#4) ∧
    decodeWord (.opsel 0b1110#4) = .error (.reservedOp 0b1110#4) ∧
    decodeWord (.opsel 0b1111#4) = .error (.reservedOp 0b1111#4) := by decide

/-- No byte but `0x40` and `0x80` is a command. -/
theorem test_undefined_commands : ∀ c : Byte, c = 0x40#8 ∨ c = 0x80#8 ∨
    decodeWord (.burncmd c) = .error (.undefinedCommand c) := by decide

/-- The rows of spec/opcode_table.json by their bits. -/
theorem test_decodeTableWord :
    decodeTableWord 4 0x1 = some .decode ∧ decodeTableWord 4 0xC = some .burnPosition ∧
    decodeTableWord 8 0x1 = some .decode ∧ decodeTableWord 8 0x40 = some .cmdBurnMangConfig ∧
    decodeTableWord 8 0x80 = some .cmdBurnPosition ∧ decodeTableWord 4 0xE = none ∧
    decodeTableWord 8 0xC0 = none ∧ decodeTableWord 4 0x40 = none := by decide

/-- A step runs the word that withFetchWord places: MERGE leaves IDLE; the command byte is written. -/
theorem test_withFetchWord :
    ((nextOf (step (State.reset.withFetchWord 4 0x3))).map (·.phase) = some .exec) ∧
    ((nextOf (step (State.reset.withFetchWord 8 0x80))).map (·.hist) =
      some [.wr 0xFF#8 [0x80#8] .ok]) := by decide

/-- A byte that no burn issues places nothing (rule R98: it is never written). -/
theorem test_withFetchWord_undefined_byte : State.reset.withFetchWord 8 0xC0 = State.reset := by decide

/-! ### Well-formedness: the spec's layouts pass, one ill-formed term per check is refused -/

theorem test_layouts_wellFormed : layoutDoc.wellFormed = true ∧ layoutDs.wellFormed = true ∧
    statusOneHot543.wellFormed = true ∧ defaultParams.wellFormed = true := by decide

/-- A range upside down, one that reaches a factory bit, one of the wrong width (rule R82). -/
theorem test_range_refused :
    FieldRange.fits ⟨4, 5⟩ 2 = false ∧ FieldRange.fits ⟨14, 13⟩ 2 = false ∧
    FieldRange.fits ⟨3, 1⟩ 2 = false := by decide

/-- A layout whose ranges do not fit, and one in which `pm` and `hyst` share bits (rule R82). -/
theorem test_layout_refused :
    ConfLayout.wellFormed { layoutDoc with pm := ⟨15, 14⟩ } = false ∧
    ConfLayout.wellFormed { layoutDoc with pm := ⟨11, 10⟩ } = false := by decide

/-- Two bits in the mask, a pattern outside the mask, a pattern twice (rule R95). -/
theorem test_status_layout_refused :
    StatusLayout.wellFormed { statusOneHot543 with smask := 0x30#8, pStrong := 0x30#8 } = false ∧
    StatusLayout.wellFormed { statusOneHot543 with pWeak := 0x40#8 } = false ∧
    StatusLayout.wellFormed { statusOneHot543 with pWeak := 0x20#8 } = false := by decide

/-- Each constraint of rule R7's table. -/
theorem test_params_refused :
    Params.wellFormed { defaultParams with confLayout := { layoutDoc with wd := ⟨1, 1⟩ } } = false ∧
    Params.wellFormed { defaultParams with statusLayout := ⟨0, 0, 0, 0, 0⟩ } = false ∧
    Params.wellFormed { defaultParams with zmcoLsb := 7 } = false ∧
    Params.wellFormed { defaultParams with addrBurn := 0x07#8 } = false ∧
    Params.wellFormed { defaultParams with devAddrW := 0, defaultDevAddr := 0, devAddr := 0 } = false ∧
    Params.wellFormed { defaultParams with defaultDevAddr := 0x80 } = false ∧
    Params.wellFormed { defaultParams with devAddr := 0x80 } = false ∧
    Params.wellFormed { defaultParams with errorType := .listed [] } = false := by decide

/-- An error that is none of `E`, on the bus and in the history, is in no legal state (rule R7). -/
theorem test_error_type_refused :
    ErrorType.has .portCode ⟨0x05#8, 1⟩ = false ∧ ErrorType.has .unbounded ⟨0x05#8, 1⟩ = true ∧
    legal (onBus (.err ⟨0x05#8, 1⟩ 0) ready) = false ∧
    legal { ready with hist := [.rd 0x00#8 1 (.err ⟨0x05#8, 1⟩)] } = false ∧
    legal (onBus (.err (portError 0x05#8) 0) ready) = true := by decide

/-- `outs = 0b11` on the record port is no Configuration (rule R101). -/
theorem test_record_refused : CfgRec.wellFormed ⟨0, 0, 3, 0, 0, 0, 0⟩ = false ∧
    configurationOf ⟨0, 0, 3, 0, 0, 0, 0⟩ = none ∧
    CfgRec.wellFormed ⟨3, 3, 2, 3, 3, 7, 1⟩ = true := by decide

/-! ### The codec's functions (V3, tables 2.1 to 2.3) -/

theorem test_be16 : be16 0x0F#8 0xFF#8 = 0x0FFF#16 ∧ be16 0x01#8 0x02#8 = 0x0102#16 ∧
    beBytes16 0xD697#16 = [0xD6#8, 0x97#8] ∧ mask12 0xFFFF#16 = 0x0FFF#16 := by decide

theorem test_encode_words :
    encodeConf layoutDoc cfgLast = 0x3EFF#16 ∧ encodeConf layoutDs cfgLast = 0x3FEF#16 ∧
    encodeConf layoutDoc ⟨.lowPower1, .lsb2, .analogFullRange, .hz920, .x8, .fth5, .wdOn⟩ = 0x18DB#16 ∧
    encodeConf layoutDs ⟨.lowPower1, .lsb2, .analogFullRange, .hz920, .x8, .fth5, .wdOn⟩ = 0x35C9#16 ∧
    encodeConf layoutDoc ⟨.lowPower2, .lsb1, .digitalPwm, .hz115, .x2, .fth4, .wdOff⟩ = 0x2638#16 ∧
    encodeConf layoutDs ⟨.lowPower2, .lsb1, .digitalPwm, .hz115, .x2, .fth4, .wdOff⟩ = 0x1326#16 := by
  decide

theorem test_decode_words :
    decodeConf layoutDoc 0xC697#16 =
      .ok ⟨.normal, .lsb1, .digitalPwm, .hz460, .x8, .fth3, .wdOn⟩ ∧
    decodeConf layoutDs 0xC697#16 =
      .ok ⟨.lowPower3, .lsb1, .analogReduced, .hz460, .x4, .fth1, .wdOff⟩ ∧
    decodeConf layoutDoc 0xBEFF#16 = .ok cfgLast ∧
    decodeConf layoutDs 0x1555#16 =
      .ok ⟨.lowPower1, .lsb1, .analogReduced, .hz230, .x8, .fth5, .wdOff⟩ ∧
    decodeConf layoutDoc 0x4300#16 = .error (.codecBitPattern .outs 3) ∧
    decodeConf layoutDs 0x3EFF#16 = .error (.codecBitPattern .outs 3) := by decide

theorem test_merge_words :
    mergeConf layoutDoc 0xC697#16 cfgV5 = 0xD697#16 ∧
    mergeConf layoutDs 0xC697#16 cfgV5 = 0xEDA5#16 ∧
    mergeConf layoutDoc 0xFFFF#16 cfgFirst = 0xC000#16 ∧
    mergeConf layoutDs 0x8030#16 cfgLast = 0xBFEF#16 := by decide

/-! ### One step of each instruction (tables 2.2 to 2.8, V5, V7, V8) -/

theorem test_decode_fails :
    resultOf .decode { inFlight 0x1 .exec with latches := { resetLatches with raw := 0x0300#16 } } =
      some ⟨2, 0x13#8, none, none, none, none⟩ := by decide
theorem test_decode_last :
    resultOf .decode { inFlight 0x1 .exec with latches := { resetLatches with raw := 0x3EFF#16 } } =
      some ⟨0, 0, none, some cfgLast, none, none⟩ := by decide

theorem test_encode_mixed :
    resultOf .encode { inFlight 0x2 .exec with
        latches := { resetLatches with cfg := ⟨1, 2, 0, 3, 1, 5, 1⟩ } } =
      some ⟨0, 0, some 0x18DB#16, none, none, none⟩ := by decide
theorem test_encode_illegal :
    resultOf .encode { started 0x2 with
        inputs := ⟨{ quietPorts with cfgIn := ⟨0, 0, 3, 0, 0, 0, 0⟩ }, .pending, false⟩ } =
      some ⟨8, 0, none, none, none, none⟩ := by decide

theorem test_merge_v5 :
    resultOf .merge { inFlight 0x3 .exec with
        latches := { resetLatches with raw := 0xC697#16, cfg := ⟨1, 1, 2, 2, 1, 3, 1⟩ } } =
      some ⟨0, 0, some 0xD697#16, none, none, none⟩ := by decide
theorem test_merge_undecodable_word :
    resultOf .merge { inFlight 0x3 .exec with
        latches := { resetLatches with raw := 0x4300#16, cfg := ⟨2, 1, 2, 0, 3, 4, 0⟩ } } =
      some ⟨0, 0, some 0x6638#16, none, none, none⟩ := by decide

theorem test_config_reads :
    moveOf .config { inFlight 0x4 .rdConf with sensor := ⟨0xC697#16, 0, 0, 0⟩ } =
      some (.exec, [.rd 0x07#8 2 (.ok [0xC6#8, 0x97#8])]) := by decide
theorem test_config_transport :
    resultOf .config (onBus (.err (portError 0x05#8) 0) (inFlight 0x4 .rdConf)) =
      some ⟨1, 0x05#8, none, none, none, none⟩ := by decide

theorem test_setConfig_writes :
    moveOf .setConfig { inFlight 0x5 .wrConf with
        internal := { resetInternal with cur := 0xC697#16 }
        latches := { resetLatches with op := 0x5, cfg := ⟨1, 1, 2, 2, 1, 3, 1⟩ } } =
      some (.done, [.wr 0x07#8 [0xD6#8, 0x97#8] .ok]) := by decide
theorem test_setConfig_result :
    resultOf .setConfig { inFlight 0x5 .wrConf with internal := { resetInternal with cur := 0x4300#16 } } =
      some ⟨0, 0, some 0x4000#16, none, none, none⟩ := by decide

theorem test_statusDecode_detected :
    resultOf .statusDecode { inFlight 0x6 .exec with latches := { resetLatches with byte := 0xE7#8 } } =
      some ⟨0, 0, none, none, some .magnetDetected, none⟩ := by decide
theorem test_statusDecode_fails :
    resultOf .statusDecode { inFlight 0x6 .exec with latches := { resetLatches with byte := 0xFF#8 } } =
      some ⟨3, 0xFF#8, none, none, none, none⟩ := by decide

theorem test_magnetStatus_reads :
    moveOf .magnetStatus { inFlight 0x7 .rdStatus with sensor := ⟨0, 0, 0x28#8, 0⟩ } =
      some (.exec, [.rd 0x0B#8 1 (.ok [0x28#8])]) := by decide
theorem test_magnetStatus_strong :
    resultOf .magnetStatus { inFlight 0x7 .exec with internal := { resetInternal with sb := 0xCF#8 } } =
      some ⟨0, 0, none, none, some .magnetTooStrong, none⟩ := by decide

theorem test_zmco_masks :
    resultOf .zmco { inFlight 0x8 .rdZmco with sensor := ⟨0, 0xFE#8, 0, 0⟩ } =
      some ⟨0, 0, none, none, none, some 2⟩ := by decide
theorem test_zmco_event :
    moveOf .zmco { inFlight 0x8 .rdZmco with sensor := ⟨0, 0xFC#8, 0, 0⟩ } =
      some (.done, [.rd 0x00#8 1 (.ok [0xFC#8])]) := by decide

/-- The sixteen cells of table 2.6 for GUARD_POSITION, and its four for GUARD_MANG_CONFIG. -/
theorem test_guardPosition_cells : ∀ z n : BitVec 2,
    (resultOf .guardPosition { inFlight 0xA .exec with
        latches := { resetLatches with zin := z, sin := n } }).map (·.errCode) =
      some (if z = 3 then 5 else if n = 1 then 0 else 6) := by decide
theorem test_guardMangConfig_cells : ∀ z : BitVec 2,
    (resultOf .guardMangConfig { inFlight 0x9 .exec with
        latches := { resetLatches with zin := z } }).map (·.errCode) =
      some (if z = 0 then 0 else 4) := by decide

theorem test_burnMangConfig_refused :
    resultOf .burnMangConfig { inFlight 0xB .chkCnt with internal := { resetInternal with z := 1 } } =
      some ⟨4, 0, none, none, none, none⟩ := by decide
theorem test_burnMangConfig_delay :
    moveOf .burnMangConfig (inFlight 0xB .settle) = some (.done, [.dl 1]) := by decide

theorem test_burnPosition_counter :
    resultOf .burnPosition { inFlight 0xC .chkCnt with internal := { resetInternal with z := 3 } } =
      some ⟨5, 0, none, none, none, none⟩ := by decide
theorem test_burnPosition_tooStrong :
    resultOf .burnPosition { inFlight 0xC .chkMag with internal := { resetInternal with sb := 0x08#8 } } =
      some ⟨6, 0, none, none, none, none⟩ := by decide

theorem test_cmdBurnMangConfig_writes :
    moveOf .cmdBurnMangConfig (inFlight 0xB .wrBurn) =
      some (.settle, [.wr 0xFF#8 [0x40#8] .ok]) := by decide
theorem test_cmdBurnMangConfig_fails :
    moveOf .cmdBurnMangConfig (onBus (.err (portError 0x05#8) 0x1234#16) (inFlight 0xB .wrBurn)) =
      some (.done, [.wr 0xFF#8 [0x40#8] (.err (portError 0x05#8))]) := by decide

theorem test_cmdBurnPosition_writes :
    moveOf .cmdBurnPosition (inFlight 0xC .wrBurn) =
      some (.settle, [.wr 0xFF#8 [0x80#8] .ok]) := by decide
theorem test_cmdBurnPosition_fails :
    resultOf .cmdBurnPosition (onBus (.err (portError 0x05#8) 0x1234#16) (inFlight 0xC .wrBurn)) =
      some ⟨1, 0x05#8, none, none, none, none⟩ := by decide

/-- Reserved `op` at start (table 2.8). -/
theorem test_reserved_start :
    (nextOf (step (started 0xD))).map (fun t => (t.phase, t.result, t.hist)) =
      some (.done, ⟨7, 0x0D#8, none, none, none, none⟩, []) := by decide

/-- Bytes on the bus for a write of `0xD697` to CONF (table 2.3). -/
theorem test_bus_bytes :
    busRequest { inFlight 0x5 .wrConf with
        internal := { resetInternal with cur := 0xC697#16 }
        latches := { resetLatches with op := 0x5, cfg := ⟨1, 1, 2, 2, 1, 3, 1⟩ } } =
      some (.write 0x36 [0x07#8, 0xD6#8, 0x97#8]) := by decide

/-- The second line of program P1: `SET_CONFIG cfg=$prev with pm=LowPower1` (rule R107). -/
theorem test_line_ports :
    linePorts (some ⟨.normal, .lsb1, .digitalPwm, .hz460, .x8, .fth3, .wdOn⟩)
        (.setConfig (.prev [.pm .lowPower1])) =
      some { startPorts 0x5#4 with cfgIn := ⟨1, 1, 2, 2, 1, 3, 1⟩ } ∧
    linePorts none (.setConfig (.prev [])) = none ∧
    linePorts none (.guardPosition 2 .magnetDetected) =
      some { startPorts 0xA#4 with zmcoIn := 2, statusIn := 1 } := by decide

/-- Port codes (rules R24, R92, R102). -/
theorem test_port_codes : statusCode .magnetTooStrong = 2 ∧ statusCode .magnetTooWeak = 3 ∧
    phaseCode .settle = 9 ∧ phaseCode .done = 10 ∧ fieldId .outs = 2 ∧
    errorInfo (.codecBitPattern .outs 3) = 0x13#8 := by decide

/-! ### Witnesses: for each obligation with hypotheses, states and operands that meet them together,
one for each clause -/

theorem test_witness_EncodedWordDecodes :
    Instr.decode.wellFormed = true ∧ Instr.cmdBurnPosition.wellFormed = true := by decide

theorem test_witness_DecodedWordIsEncoding :
    decodeWord (.opsel 0x1#4) = .ok .decode ∧ decodeWord (.opsel 0xC#4) = .ok .burnPosition ∧
    decodeWord (.burncmd 0x80#8) = .ok .cmdBurnPosition ∧
    decodeWord (.opsel 0xD#4) = .error (.reservedOp 0xD#4) := by decide

theorem test_witness_LineSelectsOperation :
    linePorts none (.decode 0xFFFF#16) = some { startPorts 0x1#4 with rawIn := 0xFFFF#16 } ∧
    (some cfgV5).isSome = true ∧ namesPrev .config = false ∧
    (linePorts none .config).isSome = true ∧ namesPrev (.encode (.prev [])) = true := by decide

theorem test_witness_StepRunsDecoded :
    (started 0x1).inputs.ports.rst = false ∧ (inFlight 0xC .wrBurn).inputs.ports.rst = false ∧
    ((started 0x1).phase = .idle ∧ (started 0x1).inputs.ports.start = true ∧
      decodeWord (.opsel (started 0x1).inputs.ports.op) = .ok .decode) ∧
    ((inFlight 0xC .settle).phase ∈
        [Phase.exec, .rdConf, .wrConf, .rdStatus, .rdZmco, .chkCnt, .chkMag, .settle] ∧
      decodeWord (.opsel (inFlight 0xC .settle).latches.op) = .ok .burnPosition) ∧
    ((inFlight 0xB .wrBurn).phase = .wrBurn ∧ (inFlight 0xB .wrBurn).latches.op = 0xB#4) ∧
    ((inFlight 0xC .wrBurn).phase = .wrBurn ∧ (inFlight 0xC .wrBurn).latches.op = 0xC#4) := by decide

theorem test_witness_CommandByteIsBurnWrite : (inFlight 0xB .wrBurn).phase = .wrBurn := by decide

theorem test_witness_IdleWaitsDoneReturns :
    ready.inputs.ports.rst = false ∧ ready.phase = .idle ∧ ready.inputs.ports.start = false ∧
    (inFlight 0x1 .done).inputs.ports.rst = false ∧ (inFlight 0x1 .done).phase = .done := by decide

/-- HOST holds `rst` during the burn's hold, the case (b) of rule R214. -/
def resetDuringHold : State :=
  { inFlight 0xB .settle with
    hist := [.wr 0xFF#8 [0x40#8] .ok], inputs := ⟨{ quietPorts with rst := true }, .ok, false⟩ }

theorem test_witness_ResetAnyPhase :
    resetDuringHold.inputs.ports.rst = true ∧ resetDuringHold.future = [] := by decide

theorem test_witness_StartLatchesOperands :
    isOperation .decode = true ∧ isOperation .encode = true ∧ (started 0x2).phase = .idle ∧
    readsCfg .decode = false ∧ (started 0x2).inputs.ports.cfgIn.outs ≠ 3#2 := by decide

/-- A record port with `outs = 0b11` (table 2.8). -/
def illegalRecord (op : BitVec 4) : State :=
  { ready with
    inputs := { ready.inputs with
      ports := { quietPorts with start := true, op := op, cfgIn := ⟨0, 0, 3, 0, 0, 0, 0⟩ } } }

theorem test_witness_IllegalOperandRefused : ∀ op : BitVec 4, op = 0x2#4 ∨ op = 0x3#4 ∨ op = 0x5#4 →
    (illegalRecord op).inputs.ports.rst = false ∧ (illegalRecord op).phase = .idle ∧
    (illegalRecord op).inputs.ports.start = true ∧ (illegalRecord op).inputs.ports.op = op ∧
    (illegalRecord op).inputs.ports.cfgIn.outs = 3#2 := by decide

theorem test_witness_IllegalOperationRefused : ∀ op : BitVec 4,
    op = 0x0#4 ∨ op = 0xD#4 ∨ op = 0xE#4 ∨ op = 0xF#4 →
    (started op).inputs.ports.rst = false ∧ (started op).phase = .idle ∧
    (started op).inputs.ports.start = true ∧ (started op).inputs.ports.op = op := by decide

theorem test_witness_DecodeOperation :
    (inFlight 0x1 .exec).phase = .exec ∧
    (0x4300#16).extractLsb' layoutDoc.outs.lo 2 = 3#2 ∧
    (0x3EFF#16).extractLsb' layoutDoc.outs.lo 2 ≠ 3#2 ∧
    carries layoutDoc 0x3EFF#16 cfgLast ∧ carries layoutDs 0x3FEF#16 cfgLast := by
  simp only [carries]; decide

theorem test_witness_EncodeOperation :
    (inFlight 0x2 .exec).params.confLayout.wellFormed = true ∧ (inFlight 0x2 .exec).phase = .exec ∧
    (inFlight 0x2 .exec).latches.cfg = cfgRecOf cfgFirst := by decide

theorem test_witness_MergeOperation :
    (inFlight 0x3 .exec).params.confLayout.wellFormed = true ∧ (inFlight 0x3 .exec).phase = .exec ∧
    (inFlight 0x3 .exec).latches.cfg = cfgRecOf cfgFirst := by decide

theorem test_witness_ConfigOperation :
    (inFlight 0x4 .rdConf).phase = .rdConf ∧ (inFlight 0x4 .rdConf).inputs.bus = .ok ∧
    (onBus .pending (inFlight 0x4 .rdConf)).inputs.bus = .pending ∧
    (onBus (.err (portError 0xFF#8) 0) (inFlight 0x4 .rdConf)).inputs.bus = .err (portError 0xFF#8) 0 ∧
    (inFlight 0x4 .exec).phase = .exec ∧ (0x0300#16).extractLsb' layoutDoc.outs.lo 2 = 3#2 ∧
    carries layoutDoc (inFlight 0x4 .exec).internal.cur cfgFirst := by simp only [carries]; decide

theorem test_witness_SetConfigOperation :
    (inFlight 0x5 .rdConf).phase = .rdConf ∧ (inFlight 0x5 .rdConf).inputs.bus = .ok ∧
    (onBus (.err (portError 0xFF#8) 0) (inFlight 0x5 .rdConf)).inputs.bus = .err (portError 0xFF#8) 0 ∧
    (inFlight 0x5 .exec).phase = .exec ∧ (inFlight 0x5 .wrConf).phase = .wrConf ∧
    (inFlight 0x5 .wrConf).params.confLayout.wellFormed = true ∧
    (inFlight 0x5 .wrConf).latches.cfg = cfgRecOf cfgFirst ∧
    (inFlight 0x5 .wrConf).inputs.bus = .ok ∧
    (onBus .pending (inFlight 0x5 .wrConf)).inputs.bus = .pending ∧
    (onBus (.err (portError 0xFF#8) 0xFFFF#16) (inFlight 0x5 .wrConf)).inputs.bus = .err (portError 0xFF#8) 0xFFFF#16 := by
  decide

theorem test_witness_StatusDecodeOperation :
    statusOneHot543.wellFormed = true ∧ (inFlight 0x6 .exec).phase = .exec ∧
    0xFF#8 &&& statusOneHot543.smask = 0x38#8 ∧
    0xC7#8 &&& statusOneHot543.smask = statusOneHot543.pattern .noMagnet ∧
    0xE7#8 &&& statusOneHot543.smask = statusOneHot543.pattern .magnetDetected ∧
    (∀ m, 0xFF#8 &&& statusOneHot543.smask ≠ statusOneHot543.pattern m) := by
  refine ⟨by decide, by decide, by decide, by decide, by decide, fun m => ?_⟩
  cases m <;> decide

theorem test_witness_MagnetStatusOperation :
    (inFlight 0x7 .rdStatus).phase = .rdStatus ∧ (inFlight 0x7 .rdStatus).inputs.bus = .ok ∧
    (onBus .pending (inFlight 0x7 .rdStatus)).inputs.bus = .pending ∧
    (onBus (.err (portError 0x00#8) 0) (inFlight 0x7 .rdStatus)).inputs.bus = .err (portError 0x00#8) 0 ∧
    statusOneHot543.wellFormed = true ∧ (inFlight 0x7 .exec).phase = .exec ∧
    (inFlight 0x7 .exec).internal.sb &&& statusOneHot543.smask =
      statusOneHot543.pattern .noMagnet ∧
    (∀ m, 0x18#8 &&& statusOneHot543.smask ≠ statusOneHot543.pattern m) := by
  refine ⟨by decide, by decide, by decide, by decide, by decide, by decide, by decide, fun m => ?_⟩
  cases m <;> decide

theorem test_witness_ZmcoOperation :
    (inFlight 0x8 .rdZmco).phase = .rdZmco ∧ (inFlight 0x8 .rdZmco).inputs.bus = .ok ∧
    (onBus .pending (inFlight 0x8 .rdZmco)).inputs.bus = .pending ∧
    (onBus (.err (portError 0xFF#8) 0) (inFlight 0x8 .rdZmco)).inputs.bus = .err (portError 0xFF#8) 0 := by decide

/-- Operands of the pure guards at the values where their clauses meet. -/
def guardInput (op : BitVec 4) (z n : BitVec 2) : State :=
  { inFlight op .exec with latches := { resetLatches with op := op, zin := z, sin := n } }

theorem test_witness_GuardMangConfigOperation :
    (guardInput 0x9 0 0).phase = .exec ∧ (guardInput 0x9 0 0).latches.zin = 0 ∧
    (guardInput 0x9 1 0).latches.zin ≠ 0 ∧ (guardInput 0x9 3 0).latches.zin ≠ 0 := by decide

theorem test_witness_GuardPositionOperation :
    (guardInput 0xA 3 1).phase = .exec ∧ (guardInput 0xA 3 1).latches.zin = 3 ∧
    ((guardInput 0xA 2 0).latches.zin < 3 ∧ (guardInput 0xA 2 0).latches.sin ≠ 1) ∧
    ((guardInput 0xA 0 2).latches.zin < 3 ∧ (guardInput 0xA 0 2).latches.sin ≠ 1) ∧
    ((guardInput 0xA 2 1).latches.zin < 3 ∧ (guardInput 0xA 2 1).latches.sin = 1) := by decide

theorem test_witness_BurnMangConfigPhases :
    (inFlight 0xB .rdZmco).phase = .rdZmco ∧ (inFlight 0xB .chkCnt).phase = .chkCnt ∧
    (inFlight 0xB .wrBurn).phase = .wrBurn ∧ (inFlight 0xB .settle).phase = .settle ∧
    (inFlight 0xB .done).phase = .done ∧ (inFlight 0xB .rdZmco).inputs.bus = .ok ∧
    (onBus .pending (inFlight 0xB .wrBurn)).inputs.bus = .pending ∧
    (onBus (.err (portError 0x05#8) 0xFFFF#16) (inFlight 0xB .wrBurn)).inputs.bus = .err (portError 0x05#8) 0xFFFF#16 ∧
    (inFlight 0xB .chkCnt).internal.z = 0 ∧
    ({ inFlight 0xB .chkCnt with internal := ⟨0, 1, 0⟩ } : State).internal.z ≠ 0 ∧
    (inFlight 0xB .settle).inputs.delayDone = true ∧
    ({ inFlight 0xB .settle with inputs := powerOnInputs } : State).inputs.delayDone = false := by
  decide

theorem test_witness_BurnPositionPhases :
    (inFlight 0xC .rdZmco).phase = .rdZmco ∧ (inFlight 0xC .chkCnt).phase = .chkCnt ∧
    (inFlight 0xC .rdStatus).phase = .rdStatus ∧ (inFlight 0xC .chkMag).phase = .chkMag ∧
    (inFlight 0xC .wrBurn).phase = .wrBurn ∧ ((inFlight 0xC .settle).phase = .settle ∧
      (inFlight 0xC .done).phase = .done) ∧
    (inFlight 0xC .rdStatus).inputs.bus = .ok ∧
    (onBus .pending (inFlight 0xC .rdStatus)).inputs.bus = .pending ∧
    (onBus (.err (portError 0x05#8) 0) (inFlight 0xC .rdStatus)).inputs.bus = .err (portError 0x05#8) 0 ∧
    ({ inFlight 0xC .chkCnt with internal := ⟨0, 2, 0⟩ } : State).internal.z < 3 ∧
    ({ inFlight 0xC .chkCnt with internal := ⟨0, 3, 0⟩ } : State).internal.z = 3 ∧
    statusOneHot543.wellFormed = true ∧
    0x20#8 &&& statusOneHot543.smask = statusOneHot543.pattern .magnetDetected ∧
    0x10#8 &&& statusOneHot543.smask = statusOneHot543.pattern .magnetTooWeak ∧
    (∀ m, 0x28#8 &&& statusOneHot543.smask ≠ statusOneHot543.pattern m) := by
  refine ⟨by decide, by decide, by decide, by decide, by decide, by decide, by decide, by decide,
    by decide, by decide, by decide, by decide, by decide, by decide, fun m => ?_⟩
  cases m <;> decide

theorem test_witness_BurnCommandWords :
    (inFlight 0xB .wrBurn).phase = .wrBurn ∧ (inFlight 0xB .wrBurn).inputs.bus = .ok ∧
    (onBus .pending (inFlight 0xC .wrBurn)).inputs.bus = .pending ∧
    (onBus (.err (portError 0x05#8) 0xFFFF#16) (inFlight 0xC .wrBurn)).inputs.bus = .err (portError 0x05#8) 0xFFFF#16 := by
  decide

theorem test_witness_FieldExtractInsert :
    layoutDoc.wellFormed = true ∧ layoutDs.wellFormed = true ∧ Field.pm ≠ Field.wd := by decide

theorem test_witness_ConfRoundTrip : layoutDoc.wellFormed = true ∧ layoutDs.wellFormed = true := by
  decide

theorem test_witness_EncodeOfDecoded :
    layoutDs.wellFormed = true ∧ decodeConf layoutDs 0x7FEF#16 = .ok cfgLast ∧
    decodeConf layoutDs 0x3FEF#16 = .ok cfgLast := by decide

theorem test_witness_MergeKeepsFactoryBits : layoutDs.wellFormed = true := by decide

theorem test_witness_DecodeFailsClosed :
    layoutDoc.wellFormed = true ∧ decodeConf layoutDoc 0xFFFF#16 = .error (.codecBitPattern .outs 3) ∧
    (0xFFFF#16).extractLsb' layoutDoc.outs.lo 2 = 3#2 := by decide

theorem test_witness_StatusDecodeByMask :
    statusOneHot543.wellFormed = true ∧
    statusDecode statusOneHot543 0x18#8 = .error (.statusBitPattern 0x18#8) ∧
    0xE7#8 &&& statusOneHot543.smask = 0x20#8 &&& statusOneHot543.smask ∧
    statusDecode statusOneHot543 0x20#8 = .ok .magnetDetected := by decide

/-- The steps the whole-step statements speak of happen: one that starts, one that waits, one that
reads, one that writes each register, one that ends. -/
theorem test_witness_InstructionFrame :
    (∃ t, exec .decode (started 0x1) = .next t ∧ t.phase = .exec) ∧
    (∃ t, exec .config (onBus .pending (inFlight 0x4 .rdConf)) = .next t ∧ t.phase = .rdConf) ∧
    (∃ t, exec .zmco (inFlight 0x8 .rdZmco) = .next t ∧ t.phase = .done) ∧
    (∃ t, exec .setConfig (inFlight 0x5 .exec) = .next t ∧ t.phase ≠ .done) := by
  exact ⟨⟨_, rfl, by decide⟩, ⟨_, rfl, by decide⟩, ⟨_, rfl, by decide⟩, ⟨_, rfl, by decide⟩⟩

theorem test_witness_HistoryOnlyGrows : ∃ t, step resetDuringHold = .next t := ⟨_, rfl⟩

theorem test_witness_EventAnswersRequest :
    busRequest (inFlight 0x4 .rdConf) = some (.writeRead 0x36 [0x07#8] 2) ∧
    (∃ t, step (inFlight 0x4 .rdConf) = .next t ∧
      t.hist = (inFlight 0x4 .rdConf).hist ++ [.rd 0x07#8 2 (.ok [0, 0])]) ∧
    (∃ t, step (inFlight 0xB .settle) = .next t ∧
      t.hist = (inFlight 0xB .settle).hist ++ [.dl 1]) := by
  exact ⟨by decide, ⟨_, rfl, by decide⟩, ⟨_, rfl, by decide⟩⟩

theorem test_witness_OnlyConfAndBurnWritten :
    (inFlight 0x5 .wrConf).params.wellFormed = true ∧
    (∃ t, step (inFlight 0x5 .wrConf) = .next t ∧
      t.hist = (inFlight 0x5 .wrConf).hist ++ [.wr 0x07#8 [0, 0] .ok]) ∧
    (∃ t, step (inFlight 0xC .wrBurn) = .next t ∧
      t.hist = (inFlight 0xC .wrBurn).hist ++ [.wr 0xFF#8 [0x80#8] .ok]) := by
  exact ⟨by decide, ⟨_, rfl, by decide⟩, ⟨_, rfl, by decide⟩⟩

theorem test_witness_InvalidStageNeverWritten :
    (inFlight 0x5 .wrConf).params.wellFormed = true ∧
    (∃ t, step (inFlight 0x5 .wrConf) = .next t ∧
      t.hist = (inFlight 0x5 .wrConf).hist ++
        [.wr (inFlight 0x5 .wrConf).params.addrConf [0, 0] .ok]) := by
  exact ⟨by decide, ⟨_, rfl, by decide⟩⟩

theorem test_witness_BusyIgnoresHost :
    (inFlight 0xB .settle).phase ≠ .idle ∧
    (started 0x1).inputs.ports.rst = (inFlight 0xB .settle).inputs.ports.rst ∧
    (∃ t, step (inFlight 0xB .settle) = .next t) := by
  exact ⟨by decide, by decide, ⟨_, rfl⟩⟩

theorem test_witness_ResultFieldsByOperation :
    (∃ t, exec .zmco (inFlight 0x8 .rdZmco) = .next t ∧ (inFlight 0x8 .rdZmco).phase ≠ .done ∧
      t.phase = .done ∧ t.result.errCode = 0) ∧
    (∃ t, step (started 0xF) = .next t ∧ (started 0xF).phase ≠ .done ∧ t.phase = .done ∧
      t.result.errCode ≠ 0) := by
  exact ⟨⟨_, rfl, by decide⟩, ⟨_, rfl, by decide⟩⟩

theorem test_witness_ErrorCodesByOperation :
    (∃ t, exec .encode (illegalRecord 0x2) = .next t ∧ (illegalRecord 0x2).phase ≠ .done ∧
      t.phase = .done) ∧
    isOperation .burnPosition = true ∧ (6 : BitVec 4) ∈ possibleCodes .burnPosition := by
  exact ⟨⟨_, rfl, by decide⟩, by decide, by decide⟩

theorem test_witness_ErrorInfoByCode :
    (∃ t, step (onBus (.err (portError 0x05#8) 0) (inFlight 0x8 .rdZmco)) = .next t ∧ t.phase = .done ∧
      t.result.errCode = 1) ∧
    (∃ t, step { inFlight 0x4 .exec with internal := ⟨0x0300#16, 0, 0⟩ } = .next t ∧
      t.phase = .done ∧ t.result.errCode = 2) ∧
    (∃ t, step { inFlight 0xC .chkMag with internal := ⟨0, 0, 0x28#8⟩ } = .next t ∧
      t.phase = .done ∧ t.result.errCode = 3) ∧
    (∃ t, step (started 0xF) = .next t ∧ t.phase = .done ∧ t.result.errCode = 7) ∧
    (∃ t, step (illegalRecord 0x5) = .next t ∧ t.phase = .done ∧ t.result.errCode = 8) := by
  exact ⟨⟨_, rfl, by decide⟩, ⟨_, rfl, by decide⟩, ⟨_, rfl, by decide⟩, ⟨_, rfl, by decide⟩,
    ⟨_, rfl, by decide⟩⟩

theorem test_witness_ErrorEntryAndReturn :
    ∃ t, step (guardInput 0xA 3 1) = .next t ∧ (guardInput 0xA 3 1).phase ≠ .done ∧
      t.phase = .done ∧ t.result.errCode ≠ 0 ∧ t.inputs.ports.rst = false :=
  ⟨_, rfl, by decide⟩

/-- A relabelling of transport errors that keeps port codes. -/
def nextDetail (te : TransportError) : TransportError := ⟨te.code, te.detail + 1⟩

theorem test_witness_ErrorEntryAndReturn_relabel :
    (∀ te, (nextDetail te).code = te.code) ∧
    (∃ t, step (onBus (.err (portError 0x05#8) 0) (inFlight 0x8 .rdZmco)) = .next t ∧
      (relabel nextDetail t).hist = [.rd 0x00#8 1 (.err ⟨0x05#8, 1⟩)]) := by
  exact ⟨fun _ => rfl, _, rfl, by decide⟩

theorem test_witness_LegalStatesKept :
    legal State.reset = true ∧ legal (inFlight 0xC .chkMag) = true ∧
    (∃ t, step State.reset = .next t) ∧ (∃ t, step (inFlight 0xC .chkMag) = .next t) := by
  exact ⟨by decide, by decide, ⟨_, rfl⟩, ⟨_, rfl⟩⟩

theorem test_witness_LegalStatesStep :
    legal (inFlight 0xB .wrBurn) = true ∧ legal (started 0xE) = true ∧
    legal (inFlight 0x5 .wrConf) = true := by decide

/-- The bus answers nothing for two steps, and then everything: no step is responsive at first. -/
def slowBus : State :=
  { started 0x8 with
    inputs := { (started 0x8).inputs with bus := .pending }
    future := [⟨⟨quietPorts, .pending, true⟩, none⟩, ⟨⟨quietPorts, .pending, true⟩, none⟩,
      ⟨⟨quietPorts, .ok, true⟩, none⟩] }

/-- A run that waits and is weakly fair all the same. -/
theorem test_witness_LegalStatesStep_fair : weaklyFair slowBus := by
  refine weaklyFair_of_step rfl (weaklyFair_of_step rfl (weaklyFair_of_step rfl
    (weaklyFair_of_alwaysResponsive ?_)))
  simp only [alwaysResponsive, responsive]
  decide

/-- A hang is possible, so fairness excludes something: the bus never answers (rule R230). -/
theorem test_hang : hangs (onBus .pending (inFlight 0x4 .rdConf)) :=
  ⟨0, fun m _ => ⟨_, runSteps_fixed rfl m, .inl (by simp only [waitsOnBus]; decide)⟩⟩

/-- BURN_MANG_CONFIG about to write, its counter just read. -/
def aboutToBurn : State :=
  { inFlight 0xB .wrBurn with hist := [.rd 0x00#8 1 (.ok [0xFC#8])] }

theorem test_witness_BurnWritesStayGuarded :
    guarded aboutToBurn ∧ ∃ t, step aboutToBurn = .next t := by
  refine ⟨⟨by decide, ⟨nofun, nofun, nofun,
    fun _ => .inl ⟨rfl, [], 0xFC#8, rfl, by decide⟩⟩, ?_⟩, _, rfl⟩
  intro pre payload out post h
  rcases pre with _ | ⟨e, _ | _⟩ <;> simp [aboutToBurn, inFlight, ready] at h

/-- The burn's write was accepted and the delay is running. -/
def holding : State :=
  { inFlight 0xB .settle with hist := [.rd 0x00#8 1 (.ok [0]), .wr 0xFF#8 [0x40#8] .ok] }

theorem test_witness_SettleHoldKept :
    holding.params.wellFormed = true ∧ holding.inputs.ports.rst = false ∧ holdKept holding ∧
    ∃ t, step holding = .next t := by
  refine ⟨by decide, by decide, ?_, _, rfl⟩
  intro pre payload post h
  rcases pre with _ | ⟨e, _ | ⟨e', _ | _⟩⟩ <;> simp [holding, inFlight, ready] at h
  exact .inl ⟨h.2.2, rfl⟩

/-- SET_CONFIG about to write, CONF just read. -/
def aboutToWrite : State :=
  { inFlight 0x5 .wrConf with
    internal := ⟨0xC697#16, 0, 0⟩, hist := [.rd 0x07#8 2 (.ok [0xC6#8, 0x97#8])] }

theorem test_witness_ConfWritesStayMerged :
    factoryKept aboutToWrite ∧ ∃ t, step aboutToWrite = .next t := by
  refine ⟨⟨by decide, fun _ _ => ⟨[], by decide⟩, ?_⟩, _, rfl⟩
  intro pre payload out post h
  rcases pre with _ | ⟨e, _ | _⟩ <;> simp [aboutToWrite, inFlight, ready] at h

theorem test_witness_PhasesOnlyAdvance :
    (legal aboutToBurn = true ∧ aboutToBurn.inputs.ports.rst = false ∧ aboutToBurn.phase ≠ .idle ∧
      aboutToBurn.phase ≠ .done ∧ ∃ t, step aboutToBurn = .next t ∧ t.phase = .settle) ∧
    (legal (onBus .pending aboutToBurn) = true ∧
      ∃ t, step (onBus .pending aboutToBurn) = .next t ∧ t.phase = .wrBurn) := by
  exact ⟨⟨by decide, by decide, by decide, by decide, _, rfl, rfl⟩, ⟨by decide, _, rfl, rfl⟩⟩

theorem test_witness_PhasesOnlyAdvance_stuck :
    legal (onBus .pending aboutToBurn) = true ∧ stuck (onBus .pending aboutToBurn) ∧
    legal { holding with inputs := powerOnInputs } = true ∧
    stuck { holding with inputs := powerOnInputs } :=
  ⟨by decide, .inl (by simp only [waitsOnBus]; decide), by decide,
    .inr (by simp only [waitsOnDelay]; decide)⟩

theorem test_witness_OperationsEnd_fair :
    legal slowBus = true ∧ noReset slowBus ∧ weaklyFair slowBus ∧
    slowBus.inputs.ports.start = true ∧ ¬ alwaysResponsive slowBus := by
  refine ⟨by decide, ?_, test_witness_LegalStatesStep_fair, by decide, ?_⟩
  · simp only [noReset]; decide
  · simp only [alwaysResponsive, responsive]; decide

/-- Waiting steps are no moves: ZMCO over the slow bus takes five steps and two moves. -/
theorem test_phaseMoves : phaseMoves 5 slowBus = 2 := by decide

theorem test_witness_OperationsEnd :
    legal (started 0xC) = true ∧ noReset (started 0xC) ∧ alwaysResponsive (started 0xC) ∧
    (started 0xC).inputs.ports.start = true ∧ (started 0x5).phase = .idle ∧
    (started 0x5).inputs.ports.op ≠ 0xB#4 ∧ (started 0x5).inputs.ports.op ≠ 0xC#4 := by
  simp only [noReset, alwaysResponsive, responsive]; decide

/-- An environment that answers every request Ok, with these registers. -/
def okMove (r : SensorRegs) : EnvMove := ⟨⟨quietPorts, .ok, true⟩, some r⟩

/-- `op` started against a sensor with these registers. -/
def startedWith (op : BitVec 4) (r : SensorRegs) : State :=
  { started op with future := List.replicate 6 (okMove r) }

theorem test_witness_BurnMangConfigRun :
    (startedWith 0xB ⟨0, 0, 0x20#8, 0⟩).phase = .idle ∧
    (startedWith 0xB ⟨0, 0, 0x20#8, 0⟩).inputs.ports.start = true ∧
    (startedWith 0xB ⟨0, 0, 0x20#8, 0⟩).inputs.ports.op = 0xB#4 ∧
    noReset (startedWith 0xB ⟨0, 0, 0x20#8, 0⟩) ∧
    (startedWith 0xB ⟨0, 0, 0x20#8, 0⟩).future = okMove ⟨0, 0, 0x20#8, 0⟩ ::
      okMove ⟨0, 0, 0x20#8, 0⟩ :: okMove ⟨0, 0, 0x20#8, 0⟩ :: okMove ⟨0, 0, 0x20#8, 0⟩ ::
      List.replicate 2 (okMove ⟨0, 0, 0x20#8, 0⟩) ∧
    (okMove ⟨0, 0, 0x20#8, 0⟩).sensor = some ⟨0, 0, 0x20#8, 0⟩ ∧
    (okMove ⟨0, 0, 0x20#8, 0⟩).inputs.bus ≠ .pending ∧
    (okMove ⟨0, 0, 0x20#8, 0⟩).inputs.delayDone = true := by simp only [noReset]; decide

theorem test_witness_BurnPositionRun :
    (startedWith 0xC ⟨0, 2, 0x20#8, 0⟩).phase = .idle ∧
    (startedWith 0xC ⟨0, 2, 0x20#8, 0⟩).inputs.ports.start = true ∧
    (startedWith 0xC ⟨0, 2, 0x20#8, 0⟩).inputs.ports.op = 0xC#4 ∧
    noReset (startedWith 0xC ⟨0, 2, 0x20#8, 0⟩) ∧
    (startedWith 0xC ⟨0, 2, 0x20#8, 0⟩).future = List.replicate 6 (okMove ⟨0, 2, 0x20#8, 0⟩) ∧
    (okMove ⟨0, 2, 0x20#8, 0⟩).sensor = some ⟨0, 2, 0x20#8, 0⟩ ∧
    (okMove ⟨0, 2, 0x20#8, 0⟩).inputs.bus ≠ .pending ∧
    (okMove ⟨0, 2, 0x20#8, 0⟩).inputs.delayDone = true := by simp only [noReset]; decide

theorem test_witness_SetConfigRun :
    (startedWith 0x5 ⟨0xC697#16, 0, 0, 0⟩).phase = .idle ∧
    (startedWith 0x5 ⟨0xC697#16, 0, 0, 0⟩).inputs.ports.start = true ∧
    (startedWith 0x5 ⟨0xC697#16, 0, 0, 0⟩).inputs.ports.op = 0x5#4 ∧
    (startedWith 0x5 ⟨0xC697#16, 0, 0, 0⟩).inputs.ports.cfgIn = cfgRecOf cfgFirst ∧
    noReset (startedWith 0x5 ⟨0xC697#16, 0, 0, 0⟩) ∧
    (startedWith 0x5 ⟨0xC697#16, 0, 0, 0⟩).future =
      List.replicate 6 (okMove ⟨0xC697#16, 0, 0, 0⟩) ∧
    (okMove ⟨0xC697#16, 0, 0, 0⟩).sensor = some ⟨0xC697#16, 0, 0, 0⟩ ∧
    (okMove ⟨0xC697#16, 0, 0, 0⟩).inputs.bus ≠ .pending := by simp only [noReset]; decide

theorem test_witness_SetConfigKeepsFactoryBits :
    (startedWith 0x5 ⟨0xC697#16, 0, 0, 0⟩).params.wellFormed = true ∧
    (startedWith 0x5 ⟨0xC697#16, 0, 0, 0⟩).inputs.ports.cfgIn = cfgRecOf cfgFirst ∧
    noReset (startedWith 0x5 ⟨0xC697#16, 0, 0, 0⟩) ∧
    ∃ t, runToDone 4 (startedWith 0x5 ⟨0xC697#16, 0, 0, 0⟩) = .next t ∧ t.phase = .done ∧
      t.result.errCode = 0 := by
  exact ⟨by decide, by decide, by simp only [noReset]; decide, _, rfl, by decide⟩

/-- V7 and, with the transport failing on the first read, table 2.7's first row. -/
theorem test_witness_RefusedBurnWritesNothing :
    noReset (startedWith 0xC ⟨0, 3, 0x20#8, 0⟩) ∧
    (∃ t, runToDone 7 (startedWith 0xC ⟨0, 3, 0x20#8, 0⟩) = .next t ∧ t.phase = .done ∧
      t.result.errCode ∈ [(3 : BitVec 4), 4, 5, 6]) ∧
    (∃ t, runToDone 5 { started 0xB with future := [⟨⟨quietPorts, .err (portError 0x05#8) 0, true⟩, none⟩] } =
      .next t ∧ t.phase = .done ∧ t.result.errCode = 1 ∧
      t.hist = [] ++ [.rd 0x00#8 1 (.err (portError 0x05#8))]) := by
  exact ⟨by simp only [noReset]; decide, ⟨_, rfl, by decide⟩, ⟨_, rfl, by decide⟩⟩

theorem test_witness_OkBurnServedDelay :
    noReset (startedWith 0xB ⟨0, 0, 0, 0⟩) ∧ noReset (startedWith 0xC ⟨0, 2, 0x20#8, 0⟩) ∧
    (∃ t, runToDone 5 (startedWith 0xB ⟨0, 0, 0, 0⟩) = .next t ∧ t.phase = .done ∧
      t.result.errCode = 0) ∧
    (∃ t, runToDone 7 (startedWith 0xC ⟨0, 2, 0x20#8, 0⟩) = .next t ∧ t.phase = .done ∧
      t.result.errCode = 0) := by
  exact ⟨by simp only [noReset]; decide, by simp only [noReset]; decide, ⟨_, rfl, by decide⟩,
    ⟨_, rfl, by decide⟩⟩

theorem test_witness_OperationsStartFresh :
    noReset (startedWith 0xC ⟨0, 2, 0x20#8, 0⟩) ∧
    (startedWith 0xC ⟨0, 2, 0x20#8, 0⟩).phase = .idle ∧
    (startedWith 0xC ⟨0, 2, 0x20#8, 0⟩).inputs.ports.start = true ∧
    ∃ t, runToDone 7 (startedWith 0xC ⟨0, 2, 0x20#8, 0⟩) = .next t ∧ t.phase = .done := by
  exact ⟨by simp only [noReset]; decide, by decide, by decide, _, rfl, by decide⟩

/-- The first two lines of program P2: ZMCO and BURN_POSITION against a counter of 3. -/
def programP2 : List HostPorts := [startPorts 0x8#4, startPorts 0xC#4]

/-- The power-on state against P2's sensor. -/
def sensorP2 : State := { ready with sensor := ⟨0, 3, 0x20#8, 0⟩ }

theorem test_witness_FinishedRuns :
    poweredOn sensorP2 ∧ legal sensorP2 = true ∧ noReset sensorP2 ∧ alwaysResponsive sensorP2 ∧
    observation 7 programP2 sensorP2 =
      some ⟨[⟨0, 0, none, none, none, some 3⟩, ⟨5, 0, none, none, none, none⟩],
        [.rd 0x00#8 1 (.ok [0x03#8]), .rd 0x00#8 1 (.ok [0x03#8])]⟩ := by
  refine ⟨?_, by decide, ?_, ?_, by decide⟩
  · simp only [poweredOn]; decide
  · simp only [noReset]; decide
  · simp only [alwaysResponsive, responsive]; decide

end Sys2Proof.Tests
end

section
/-! Legal states (rules R7, R24, R27, R101, R170, R181, R189, R190): what legality says, what each move
of the block does to its parts, and that every step keeps it. -/

namespace Sys2Proof.Proofs

open Sys2Proof.Machine Sys2Proof.Safety

/-! ### What legality says -/

/-- Operation `i` is in flight: it is the one latched, the phase is in its sequence, and `cfg_lat` holds
a Configuration if it reads one. -/
def inFlight (s : State) (i : Instr) : Prop :=
  decodeWord (.opsel s.latches.op) = .ok i ∧ s.phase ∈ operationPhases i ∧
    (readsCfg i = true → s.latches.cfg.wellFormed = true)

theorem inSequence_iff {s : State} : inSequence s = true ↔
    s.phase = .idle ∨ s.phase = .done ∨ ∃ i, inFlight s i := by
  unfold inSequence inFlight
  cases hd : decodeWord (.opsel s.latches.op) with
  | error e => simp
  | ok j => cases hc : readsCfg j <;> simp [or_assoc, hc]

/-- What rules R181 and R190 ask of the result registers in every phase. -/
def regsLegal (r : ResultRegs) : Prop :=
  (r.errCode = 0 ∨ (r.raw = none ∧ r.cfg = none ∧ r.status = none ∧ r.zmco = none)) ∧ r.errCode ≤ 8

theorem resultLegal_iff {s : State} : resultLegal s = true ↔
    (s.phase = .idle ∨ s.phase = .done ∨ s.result = clearedResult) ∧ regsLegal s.result := by
  simp [resultLegal, regsLegal, and_assoc, or_assoc]

theorem errorsTyped_iff {s : State} : errorsTyped s = true ↔
    replyTyped s.params.errorType s.inputs.bus = true ∧
    (∀ m ∈ s.future, replyTyped s.params.errorType m.inputs.bus = true) ∧
    ∀ e ∈ s.hist, eventTyped s.params.errorType e = true := by
  simp [errorsTyped, and_assoc]

theorem legal_iff {s : State} : legal s = true ↔
    s.params.wellFormed = true ∧ s.devAddr = s.params.devAddr ∧ inSequence s = true ∧
    resultLegal s = true ∧ errorsTyped s = true := by
  simp [legal, and_assoc]

/-- A legal state that is neither at IDLE nor at DONE has an operation in flight. -/
theorem inFlight_of_legal {s : State} (h : legal s = true) (hi : s.phase ≠ .idle)
    (hd : s.phase ≠ .done) : ∃ i, inFlight s i := by
  obtain ⟨-, -, hseq, -, -⟩ := legal_iff.1 h
  exact ((inSequence_iff.1 hseq).resolve_left hi).resolve_left hd

/-- Where the parameters are well formed, CONF and BURN have different addresses (rule R7). -/
theorem addrConf_ne_addrBurn {p : Params} (h : p.wellFormed = true) : p.addrConf ≠ p.addrBurn := by
  have hn : [p.addrZmco, p.addrConf, p.addrStatus, p.addrBurn].Nodup := by
    simp only [Params.wellFormed, Bool.and_eq_true, decide_eq_true_eq] at h
    obtain ⟨⟨⟨⟨⟨-, hn⟩, -⟩, -⟩, -⟩, -⟩ := h
    exact hn
  intro he
  simp [he] at hn

/-! ### Result registers -/

theorem regsLegal_cleared : regsLegal clearedResult := ⟨.inl rfl, by decide⟩

/-- Only the codes of rule R181 occur. -/
theorem errorCode_le (e : BlockError) : errorCode e ≤ 8 := by
  cases e <;> simp only [errorCode] <;> decide

theorem regsLegal_error (e : BlockError) :
    regsLegal ⟨errorCode e, errorInfo e, none, none, none, none⟩ :=
  ⟨.inr ⟨rfl, rfl, rfl, rfl⟩, errorCode_le e⟩

/-- The registers after an Ok ending: whatever the fields hold, the code is 0. -/
theorem regsLegal_ok {r : ResultRegs} (h : r.errCode = 0) : regsLegal r :=
  ⟨.inl h, by rw [h]; decide⟩

theorem resultLegal_done {s : State} (hp : s.phase = .done) (hr : regsLegal s.result) :
    resultLegal s = true :=
  resultLegal_iff.2 ⟨.inr (.inl hp), hr⟩

theorem resultLegal_raise (e : BlockError) (s : State) : resultLegal (raise e s) = true :=
  resultLegal_done rfl (regsLegal_error e)

theorem resultLegal_cleared {s : State} (h : s.result = clearedResult) : resultLegal s = true :=
  resultLegal_iff.2 ⟨.inr (.inr h), h ▸ regsLegal_cleared⟩

/-- While an operation is in flight the result registers are cleared. -/
theorem result_cleared {s : State} (h : resultLegal s = true) (hi : s.phase ≠ .idle)
    (hd : s.phase ≠ .done) : s.result = clearedResult :=
  ((resultLegal_iff.1 h).1.resolve_left hi).resolve_left hd

/-- So a step from there that leaves them alone keeps them legal, whatever its phase. -/
theorem resultLegal_busy {s u : State} (h : resultLegal s = true) (hi : s.phase ≠ .idle)
    (hd : s.phase ≠ .done) (hu : u.result = s.result) : resultLegal u = true :=
  resultLegal_cleared (hu.trans (result_cleared h hi hd))

/-! ### The event a move appends -/

/-- The bus answered the transport error `te`. -/
def busFails (s : State) (te : TransportError) : Prop := ∃ left, s.inputs.bus = .err te left

/-- The events a move of instruction `i` from `s` to `u` can append, each with what the move says of it
(rules R16, R24, R54, R98, R173). -/
inductive MoveEvent (i : Instr) (s u : State) : Event → Prop
  | read (r : Reg) (out : ReadOutcome) :
      s.phase ∈ [Phase.rdConf, .rdStatus, .rdZmco] → (∀ te, out = .err te → busFails s te) →
      MoveEvent i s u (.rd (regAddr s.params r) (regLen r) out)
  | writeConf (v : Word) (out : WriteOutcome) :
      s.phase = .wrConf → i = .setConfig → mergedWord s = some v →
      (∀ te, out = .err te → busFails s te) →
      MoveEvent i s u (.wr s.params.addrConf (beBytes16 v) out)
  | writeBurn (cmd : Byte) (out : WriteOutcome) :
      s.phase = .wrBurn →
      ((i = .burnMangConfig ∨ i = .cmdBurnMangConfig) ∧ cmd = cmdMangConfigByte) ∨
        ((i = .burnPosition ∨ i = .cmdBurnPosition) ∧ cmd = cmdPositionByte) →
      (∀ te, out = .err te → busFails s te) → (out = .ok → u.phase = .settle) →
      MoveEvent i s u (.wr s.params.addrBurn [cmd] out)
  | delay : s.phase = .settle → MoveEvent i s u (.dl burnSettleMs)

/-- What a move does to `hist`: nothing, or one event is appended. Leaving SETTLE appends one. -/
theorem BlockMove_hist {i : Instr} {s u : State} (h : BlockMove i s u) :
    (u.hist = s.hist ∧ (s.phase = .settle → u.phase = .settle)) ∨
    ∃ e, MoveEvent i s u e ∧ u.hist = s.hist ++ [e] := by
  cases h
  case readFails r te left hp hb =>
    exact .inr ⟨_, .read r (.err te) (by rcases hp with ⟨h, -⟩ | ⟨h, -⟩ | ⟨h, -⟩ <;> simp [h])
      (by rintro _ ⟨⟩; exact ⟨left, hb⟩), rfl⟩
  case readConf hp hi hb => exact .inr ⟨_, .read .conf _ (by simp [hp]) (by simp), rfl⟩
  case readStatus p hp hi hb => exact .inr ⟨_, .read .status _ (by simp [hp]) (by simp), rfl⟩
  case readCounter hp hi hb => exact .inr ⟨_, .read .zmco _ (by simp [hp]) (by simp), rfl⟩
  case readZmco hp hi hb => exact .inr ⟨_, .read .zmco _ (by simp [hp]) (by simp), rfl⟩
  case writesConf v hp hi hv hb => exact .inr ⟨_, .writeConf v .ok hp hi hv (by simp), rfl⟩
  case confWriteFails v te left hp hi hv hb =>
    exact .inr ⟨_, .writeConf v (.err te) hp hi hv (by rintro _ ⟨⟩; exact ⟨left, hb⟩), rfl⟩
  case writesBurn cmd hp hi hb =>
    exact .inr ⟨_, .writeBurn cmd .ok hp hi (by simp) (by simp), rfl⟩
  case burnWriteFails cmd te left hp hi hb =>
    exact .inr ⟨_, .writeBurn cmd (.err te) hp hi (by rintro _ ⟨⟩; exact ⟨left, hb⟩) (by simp), rfl⟩
  case settles hp hi hd => exact .inr ⟨_, .delay hp, rfl⟩
  case statusFails b hp => exact .inl ⟨rfl, by rcases hp with ⟨h, -⟩ | ⟨h, -⟩ | ⟨h, -⟩ <;> simp [h]⟩
  case guardFails e hp =>
    exact .inl ⟨rfl, by rcases hp with ⟨h, -⟩ | ⟨h, -⟩ | ⟨h, -⟩ | ⟨h, -⟩ | ⟨h, -⟩ <;> simp [h]⟩
  case wait => exact .inl ⟨rfl, id⟩
  all_goals exact .inl ⟨rfl, by simp [*]⟩

/-- The event a move appends holds a transport error only if the bus just answered it. -/
theorem MoveEvent_typed {i : Instr} {s u : State} {e : Event} (h : MoveEvent i s u e)
    {E : ErrorType} (hb : replyTyped E s.inputs.bus = true) : eventTyped E e = true := by
  have typed {te : TransportError} (hte : busFails s te) : E.has te = true := by
    obtain ⟨left, hl⟩ := hte
    rw [hl] at hb
    exact hb
  cases h with
  | read r out hp ht =>
    cases out with
    | ok bytes => rfl
    | err te   => exact typed (ht te rfl)
  | writeConf v out hp hi hv ht =>
    cases out with
    | ok     => rfl
    | err te => exact typed (ht te rfl)
  | writeBurn cmd out hp hi ht hs =>
    cases out with
    | ok     => rfl
    | err te => exact typed (ht te rfl)
  | delay hp => rfl

/-! ### What a move does to the parts of legality -/

/-- No move touches the parameters or the device address. -/
theorem BlockMove_constants {i : Instr} {s u : State} (h : BlockMove i s u) :
    u.params = s.params ∧ u.devAddr = s.devAddr := by
  cases h <;> exact ⟨rfl, rfl⟩

/-- A move of an operation in flight keeps the operand latches, and ends the operation, waits, or goes
on in its sequence; the step from WR_BURN to SETTLE is the command byte's. -/
theorem BlockMove_busy {i : Instr} {s u : State} (h : BlockMove i s u) (hi : s.phase ≠ .idle)
    (hd : s.phase ≠ .done) : u.latches = s.latches ∧
    (u.phase = .done ∨ u.phase = s.phase ∨ (s.phase ≠ .wrBurn ∧ u.phase ∈ operationPhases i) ∨
      (s.phase = .wrBurn ∧ u.phase = .settle)) := by
  cases h
  case start ho hp hc => exact absurd hp hi
  case illegalOperand hc hp hw => exact absurd hp hi
  case finish hp => exact absurd hp hd
  case wait => exact ⟨rfl, .inr (.inl rfl)⟩
  case readConf hp hj hb => rcases hj with rfl | rfl <;> simp [hp, operationPhases]
  case readStatus p hp hj hb => rcases hj with ⟨rfl, rfl⟩ | ⟨rfl, rfl⟩ <;> simp [hp, operationPhases]
  case readCounter hp hj hb => rcases hj with rfl | rfl <;> simp [hp, operationPhases]
  case toWrConf hp hj => subst hj; simp [hp, operationPhases]
  case mangPasses hp hj hz => subst hj; simp [hp, operationPhases]
  case counterPasses hp hj hz => subst hj; simp [hp, operationPhases]
  case magnetPasses hp hj hm => subst hj; simp [hp, operationPhases]
  case writesBurn cmd hp hj hb => exact ⟨rfl, .inr (.inr (.inr ⟨hp, rfl⟩))⟩
  all_goals exact ⟨rfl, .inl rfl⟩

/-- The first phase of an operation is in its sequence. -/
theorem firstPhase_mem (i : Instr) : firstPhase i ∈ operationPhases i := by
  cases i <;> decide

/-- An operation that reaches WR_BURN has SETTLE in its sequence. -/
theorem settle_mem_of_wrBurn_mem {i : Instr} (ho : isOperation i = true)
    (h : .wrBurn ∈ operationPhases i) : .settle ∈ operationPhases i := by
  revert ho h
  cases i <;> decide

/-- What a step at IDLE runs is the operation on the `op` port. -/
theorem runs_idle {s : State} {i : Instr} (h : runs s i) (hp : s.phase = .idle) :
    s.inputs.ports.start = true ∧ decodeWord (.opsel s.inputs.ports.op) = .ok i := by
  rcases h with ⟨-, hs, hd⟩ | ⟨h, -⟩ | ⟨h, -⟩ | ⟨h, -⟩ | ⟨h, -⟩
  · exact ⟨hs, hd⟩
  · exact absurd hp h
  all_goals rw [hp] at h; cases h

/-- What a step in another phase than WR_BURN runs is the operation latched. -/
theorem runs_latched {s : State} {i : Instr} (h : runs s i) (hi : s.phase ≠ .idle)
    (hw : s.phase ≠ .wrBurn) : decodeWord (.opsel s.latches.op) = .ok i := by
  rcases h with ⟨h, -⟩ | ⟨-, -, -, hd⟩ | ⟨h, -⟩ | ⟨h, -⟩ | ⟨h, -⟩
  · exact absurd h hi
  · exact hd
  all_goals exact absurd h hw

/-- Nothing is run at DONE. -/
theorem runs_not_done {s : State} {i : Instr} (h : runs s i) : s.phase ≠ .done := by
  intro hp
  rcases h with ⟨h, -⟩ | ⟨-, h, -⟩ | ⟨h, -⟩ | ⟨h, -⟩ | ⟨h, -⟩
  case inr.inl => exact h hp
  all_goals rw [hp] at h; cases h

theorem BlockMove_inSequence {i : Instr} {s u : State} (h : BlockMove i s u) (hr : runs s i)
    (hs : inSequence s = true) : inSequence u = true := by
  rw [inSequence_iff] at hs ⊢
  by_cases hi : s.phase = .idle
  · obtain ⟨-, hdec⟩ := runs_idle hr hi
    cases h
    case start ho hp hc =>
      exact .inr (.inr ⟨i, hdec, firstPhase_mem i, hc⟩)
    case illegalOperand => exact .inr (.inl rfl)
    -- no other move is made at IDLE
    all_goals simp_all
  · have hd := runs_not_done hr
    obtain ⟨j, hj, hmem, hcfg⟩ := (hs.resolve_left hi).resolve_left hd
    obtain ⟨hlat, hph⟩ := BlockMove_busy h hi hd
    rcases hph with hph | hph | ⟨hw, hph⟩ | ⟨hw, hph⟩
    · exact .inr (.inl hph)
    · exact .inr (.inr ⟨j, hlat ▸ hj, hph ▸ hmem, hlat ▸ hcfg⟩)
    · have hij : i = j := Except.ok.inj ((runs_latched hr hi hw).symm.trans hj)
      exact .inr (.inr ⟨j, hlat ▸ hj, hij ▸ hph, hlat ▸ hcfg⟩)
    · have hset := settle_mem_of_wrBurn_mem (decodeWord_opsel_isOperation hj).1 (hw ▸ hmem)
      exact .inr (.inr ⟨j, hlat ▸ hj, hph ▸ hset, hlat ▸ hcfg⟩)

/-- A move starts with cleared registers, leaves them alone while the operation is in flight, and ends
it with legal ones. -/
theorem BlockMove_resultLegal {i : Instr} {s u : State} (h : BlockMove i s u)
    (hs : resultLegal s = true) : resultLegal u = true := by
  cases h
  case start => exact resultLegal_cleared rfl
  case finish => exact resultLegal_iff.2 ⟨.inl rfl, (resultLegal_iff.1 hs).2⟩
  case wait => exact hs
  case illegalOperand => exact resultLegal_raise _ _
  case readFails => exact resultLegal_raise _ _
  case codecFails => exact resultLegal_raise _ _
  case statusFails => exact resultLegal_raise _ _
  case guardFails => exact resultLegal_raise _ _
  case confWriteFails => exact resultLegal_raise _ _
  case burnWriteFails => exact resultLegal_raise _ _
  case readZmco => exact resultLegal_done rfl (regsLegal_ok rfl)
  case endsRaw => exact resultLegal_done rfl (regsLegal_ok rfl)
  case endsCfg => exact resultLegal_done rfl (regsLegal_ok rfl)
  case endsStatus => exact resultLegal_done rfl (regsLegal_ok rfl)
  case guardPasses => exact resultLegal_cleared rfl
  case writesConf => exact resultLegal_done rfl (regsLegal_ok rfl)
  case settles => exact resultLegal_cleared rfl
  all_goals exact resultLegal_busy hs (by simp [*]) (by simp [*]) rfl

theorem BlockMove_errorsTyped {i : Instr} {s u : State} (h : BlockMove i s u)
    (hs : errorsTyped s = true) : errorsTyped u = true := by
  rw [errorsTyped_iff] at hs ⊢
  obtain ⟨hbus, hfut, hhist⟩ := hs
  rw [(BlockMove_constants h).1, (BlockMove_inputs h).1, (BlockMove_inputs h).2]
  refine ⟨hbus, hfut, ?_⟩
  rcases BlockMove_hist h with ⟨hu, -⟩ | ⟨e, he, hu⟩ <;> rw [hu]
  · exact hhist
  · intro x hx
    rcases List.mem_append.1 hx with hx | hx
    · exact hhist x hx
    · rw [List.mem_singleton.1 hx]
      exact MoveEvent_typed he hbus

/-! ### Every step keeps a legal state legal -/

/-- A predicate that the environment's move and each of the block's moves keep is kept by the step. -/
theorem step_keeps {P : State → Prop} {s t : State} (h : step s = .next t) (hs : P s)
    (env : ∀ u, P u → P (environmentMove u))
    (reset : s.inputs.ports.rst = true → P (resetBlock s))
    (finish : s.phase = .done → P (finish s))
    (illegal : s.phase = .idle → P (startIllegal s))
    (move : ∀ i u, runs s i → BlockMove i s u → P u) : P t := by
  obtain ⟨u, rfl, hu⟩ := step_cases h
  apply env
  rcases hu with ⟨hr, rfl⟩ | ⟨-, ⟨-, -, rfl⟩ | ⟨hp, rfl⟩ | ⟨hp, -, -, rfl⟩ | ⟨i, hi, hm⟩⟩
  · exact reset hr
  · exact hs
  · exact finish hp
  · exact illegal hp
  · exact move i u hi hm

theorem legal_environmentMove {s : State} (h : legal s = true) :
    legal (environmentMove s) = true := by
  obtain ⟨hp, hd, hseq, hres, herr⟩ := legal_iff.1 h
  obtain ⟨hbus, hfut, hhist⟩ := errorsTyped_iff.1 herr
  refine legal_iff.2 ⟨by simpa using hp, by simpa using hd, by simpa [inSequence] using hseq,
    by simpa [resultLegal] using hres, errorsTyped_iff.2 ?_⟩
  cases hf : s.future with
  | nil => rw [environmentMove_nil hf]; exact ⟨hbus, hfut, hhist⟩
  | cons m rest =>
    rw [environmentMove_cons hf]
    rw [hf] at hfut
    exact ⟨hfut m (by simp), fun x hx => hfut x (List.mem_cons_of_mem m hx), hhist⟩

theorem legal_resetBlock {s : State} (h : legal s = true) : legal (resetBlock s) = true := by
  obtain ⟨hp, -, -, -, herr⟩ := legal_iff.1 h
  exact legal_iff.2 ⟨hp, rfl, inSequence_iff.2 (.inl rfl), resultLegal_cleared rfl, herr⟩

theorem legal_finish {s : State} (h : legal s = true) : legal (finish s) = true := by
  obtain ⟨hp, hd, -, hres, herr⟩ := legal_iff.1 h
  exact legal_iff.2 ⟨hp, hd, inSequence_iff.2 (.inl rfl),
    resultLegal_iff.2 ⟨.inl rfl, (resultLegal_iff.1 hres).2⟩, herr⟩

theorem legal_startIllegal {s : State} (h : legal s = true) : legal (startIllegal s) = true := by
  obtain ⟨hp, hd, -, -, herr⟩ := legal_iff.1 h
  exact legal_iff.2 ⟨hp, hd, inSequence_iff.2 (.inr (.inl rfl)), resultLegal_raise _ _, herr⟩

theorem legal_move {i : Instr} {s u : State} (h : legal s = true) (hr : runs s i)
    (hm : BlockMove i s u) : legal u = true := by
  obtain ⟨hp, hd, hseq, hres, herr⟩ := legal_iff.1 h
  obtain ⟨hup, hud⟩ := BlockMove_constants hm
  exact legal_iff.2 ⟨by rw [hup]; exact hp, by rw [hud, hup]; exact hd,
    BlockMove_inSequence hm hr hseq, BlockMove_resultLegal hm hres, BlockMove_errorsTyped hm herr⟩

theorem legal_step {s t : State} (h : legal s = true) (hst : step s = .next t) : legal t = true :=
  step_keeps (P := fun u => legal u = true) hst h (fun _ => legal_environmentMove)
    (fun _ => legal_resetBlock h) (fun _ => legal_finish h) (fun _ => legal_startIllegal h)
    (fun _ _ => legal_move h)

/-- Settles O46: each part of legality is kept by each move of the block, and by the environment's. -/
theorem legalStatesKept : Obligations.LegalStatesKept := by
  unfold Obligations.LegalStatesKept
  exact fun s t h hst => legal_step h hst

end Sys2Proof.Proofs
end

section
/-! The history's three promises (rules R128, R155, R164 to R167, R220, R225), kept by every step: burn
writes are guarded, successful ones are followed by the hold, CONF writes are merges. -/

namespace Sys2Proof.Proofs

open Sys2Proof.Machine Sys2Proof.Safety

/-! ### A history with one event more -/

/-- Where an event stands in a history with one event more: it is the new one, or it stood there
before. -/
theorem concat_eq_append_cons {h pre post : List Event} {e x : Event}
    (hx : h ++ [e] = pre ++ x :: post) :
    (pre = h ∧ x = e ∧ post = []) ∨ ∃ post', post = post' ++ [e] ∧ h = pre ++ x :: post' := by
  rcases List.eq_nil_or_concat' post with rfl | ⟨post', y, rfl⟩
  · obtain ⟨rfl, he⟩ := List.append_inj' hx rfl
    exact .inl ⟨rfl, (List.singleton_inj.1 he).symm, rfl⟩
  · rw [← List.cons_append, ← List.append_assoc] at hx
    obtain ⟨rfl, he⟩ := List.append_inj' hx rfl
    rw [List.singleton_inj.1 he]
    exact .inr ⟨post', rfl, rfl⟩

theorem burnsGuarded_concat {p : Params} {h : List Event} {e : Event} (hg : burnsGuarded p h)
    (he : ∀ payload out, e = .wr p.addrBurn payload out →
      (payload = [cmdMangConfigByte] ∧ mangAllowed p h) ∨
      (payload = [cmdPositionByte] ∧ positionAllowed p h)) :
    burnsGuarded p (h ++ [e]) := by
  intro pre payload out post hx
  rcases concat_eq_append_cons hx with ⟨rfl, hxe, -⟩ | ⟨post', -, hx'⟩
  · exact he payload out hxe.symm
  · exact hg pre payload out post' hx'

theorem confWritesMerged_concat {p : Params} {h : List Event} {e : Event}
    (hm : confWritesMerged p h)
    (he : ∀ payload out, e = .wr p.addrConf payload out →
      ∃ pre' b0 b1 c, h = pre' ++ [.rd p.addrConf 2 (.ok [b0, b1])] ∧
        payload = beBytes16 (mergeConf p.confLayout (be16 b0 b1) c)) :
    confWritesMerged p (h ++ [e]) := by
  intro pre payload out post hx
  rcases concat_eq_append_cons hx with ⟨rfl, hxe, -⟩ | ⟨post', -, hx'⟩
  · exact he payload out hxe.symm
  · exact hm pre payload out post' hx'

/-! ### The operation latched -/

/-- The instruction that a step runs outside IDLE and WR_BURN has its `op` value latched. -/
theorem latched_op_eq {s : State} {i : Instr} {op : BitVec 4} (h : runs s i) (hi : s.phase ≠ .idle)
    (hw : s.phase ≠ .wrBurn) (he : encodeWord i = .opsel op) : s.latches.op = op :=
  InstrWord.opsel.inj
    ((decodeWord_opsel_isOperation (runs_latched h hi hw)).2.symm.trans he)

/-- In WR_BURN of a burn, the step runs that burn's command byte. -/
theorem runs_wrBurn {s : State} {i : Instr} (h : runs s i) (hp : s.phase = .wrBurn)
    (hop : s.latches.op = 0xB#4 ∨ s.latches.op = 0xC#4) :
    (s.latches.op = 0xB#4 ∧ i = .cmdBurnMangConfig) ∨
    (s.latches.op = 0xC#4 ∧ i = .cmdBurnPosition) := by
  rcases h with ⟨h, -⟩ | ⟨-, -, h, -⟩ | ⟨-, h⟩ | ⟨-, h⟩ | ⟨-, hb, hc, -⟩
  · rw [hp] at h; cases h
  · exact absurd hp h
  · exact .inl h
  · exact .inr h
  · exact absurd hop (not_or.2 ⟨hb, hc⟩)

/-! ### The guard (rules R155, R164 to R166) -/

/-- Outside the four phases that follow a burn's reads there is nothing to say of them. -/
theorem burnReadsFresh_of_phase {s : State}
    (h : s.phase ∉ [Phase.chkCnt, .rdStatus, .chkMag, .wrBurn]) : burnReadsFresh s := by
  simp only [List.mem_cons, List.not_mem_nil, or_false, not_or] at h
  obtain ⟨hc, hs, hm, hw⟩ := h
  exact ⟨fun h => absurd h hc, fun h => absurd h hs, fun h => absurd h hm, fun h => absurd h hw⟩

theorem BlockMove_burnReadsFresh {i : Instr} {s u : State} (h : BlockMove i s u) (hr : runs s i)
    (hs : burnReadsFresh s) : burnReadsFresh u := by
  obtain ⟨hchk, hstat, hmag, -⟩ := id hs
  cases h
  case wait => exact hs
  case start ho hp hc =>
    refine ⟨fun h => ?_, fun h hop => ?_, fun h => ?_, fun h => ?_⟩
    case refine_2 =>
      have hdec := (runs_idle hr hp).2
      have hop : s.inputs.ports.op = 0xC#4 := hop
      rw [hop] at hdec
      cases hdec
      cases h
    all_goals revert h ho; cases i <;> simp [firstPhase, isOperation]
  case readCounter hp hi hb =>
    exact ⟨fun _ => ⟨s.hist, s.sensor.zmco, rfl, rfl⟩, by simp, by simp, by simp⟩
  case counterPasses hp hi hz =>
    exact ⟨by simp, fun _ _ => ⟨hz, hchk hp⟩, by simp, by simp⟩
  case readStatus p hp hi hb =>
    rcases hi with ⟨rfl, rfl⟩ | ⟨rfl, rfl⟩
    · exact burnReadsFresh_of_phase (by simp)
    · have hop := latched_op_eq (op := 0xC#4) hr (by simp [hp]) (by simp [hp]) rfl
      obtain ⟨hz, pre, b, hpre, hb⟩ := hstat hp hop
      exact ⟨by simp, by simp, fun _ => ⟨hz, pre, b, by simp [hpre], hb⟩, by simp⟩
  case mangPasses hp hi hz =>
    subst hi
    have hop := latched_op_eq (op := 0xB#4) hr (by simp [hp]) (by simp [hp]) rfl
    have hread := hchk hp
    rw [hz] at hread
    exact ⟨by simp, by simp, by simp, fun _ => .inl ⟨hop, hread⟩⟩
  case magnetPasses hp hi hd =>
    subst hi
    have hop := latched_op_eq (op := 0xC#4) hr (by simp [hp]) (by simp [hp]) rfl
    obtain ⟨hz, hread⟩ := hmag hp
    exact ⟨by simp, by simp, by simp, fun _ => .inr ⟨hop, _, _, hread, hz, hd⟩⟩
  all_goals exact burnReadsFresh_of_phase (by simp)

theorem BlockMove_burnsGuarded {i : Instr} {s u : State} (h : BlockMove i s u) (hr : runs s i)
    (hs : guarded s) : burnsGuarded u.params u.hist := by
  obtain ⟨hl, ⟨-, -, -, hburn⟩, hg⟩ := hs
  rw [(BlockMove_constants h).1]
  rcases BlockMove_hist h with ⟨hu, -⟩ | ⟨e, he, hu⟩ <;> rw [hu]
  · exact hg
  · refine burnsGuarded_concat hg ?_
    rintro payload out rfl
    generalize hx : Event.wr s.params.addrBurn payload out = x at he
    cases he with
    | read => cases hx
    | delay => cases hx
    | writeConf v out =>
      exact absurd (Event.wr.inj hx).1.symm (addrConf_ne_addrBurn (legal_iff.1 hl).1)
    | writeBurn cmd out hp hi =>
      rw [(Event.wr.inj hx).2.1]
      have hburn := hburn hp
      rcases runs_wrBurn hr hp (hburn.imp And.left And.left) with ⟨hop, rfl⟩ | ⟨hop, rfl⟩
      · obtain ⟨-, hallow⟩ := hburn.resolve_right (by simp [hop])
        exact .inl ⟨by simpa using hi, hallow⟩
      · obtain ⟨-, hallow⟩ := hburn.resolve_left (by simp [hop])
        exact .inr ⟨by simpa using hi, hallow⟩

theorem guarded_environmentMove {s : State} (h : guarded s) : guarded (environmentMove s) := by
  obtain ⟨hl, hf, hg⟩ := h
  exact ⟨legal_environmentMove hl, by simpa [burnReadsFresh] using hf, by simpa using hg⟩

/-- Every step keeps the guard's promise. -/
theorem guarded_step {s t : State} (h : guarded s) (hst : step s = .next t) : guarded t := by
  obtain ⟨hl, hf, hg⟩ := id h
  refine step_keeps hst h (fun _ => guarded_environmentMove) (fun _ => ?_) (fun _ => ?_) (fun _ => ?_)
    (fun i u hr hm => ?_)
  · exact ⟨legal_resetBlock hl, burnReadsFresh_of_phase (by simp), hg⟩
  · exact ⟨legal_finish hl, burnReadsFresh_of_phase (by simp), hg⟩
  · exact ⟨legal_startIllegal hl, burnReadsFresh_of_phase (by simp [startIllegal]), hg⟩
  · exact ⟨legal_move hl hr hm, BlockMove_burnReadsFresh hm hr hf, BlockMove_burnsGuarded hm hr h⟩

/-! ### The hold (rules R167, R220) -/

/-- The hold depends on the phase and the history alone, and outside SETTLE on the history. -/
theorem holdKept_of_hist {s u : State} (h : holdKept s) (hparams : u.params = s.params)
    (hhist : u.hist = s.hist) (hphase : s.phase = .settle → u.phase = .settle) : holdKept u := by
  intro pre payload post hx
  rw [hhist, hparams] at hx
  exact (h pre payload post hx).imp_left (And.imp_right hphase)

theorem BlockMove_holdKept {i : Instr} {s u : State} (h : BlockMove i s u)
    (hp : s.params.wellFormed = true) (hs : holdKept s) : holdKept u := by
  have hparams := (BlockMove_constants h).1
  rcases BlockMove_hist h with ⟨hu, hset⟩ | ⟨e, he, hu⟩
  · exact holdKept_of_hist hs hparams hu hset
  · intro pre payload post hx
    rw [hu, hparams] at hx
    rcases concat_eq_append_cons hx with ⟨-, hxe, rfl⟩ | ⟨post', rfl, hx'⟩
    · cases he with
      | read => cases hxe
      | delay => cases hxe
      | writeConf v out => exact absurd (Event.wr.inj hxe).1.symm (addrConf_ne_addrBurn hp)
      | writeBurn cmd out hw hi ht hok =>
        exact .inl ⟨rfl, hok (Event.wr.inj hxe).2.2.symm⟩
    · right
      rcases hs pre payload post' hx' with ⟨rfl, hset⟩ | hhead
      · cases he with
        | read r out hmem => simp [hset] at hmem
        | delay => rfl
        | writeConf v out hw => rw [hset] at hw; cases hw
        | writeBurn cmd out hw => rw [hset] at hw; cases hw
      · rw [List.head?_append, hhead]; rfl

theorem holdKept_environmentMove {s : State} (h : holdKept s) : holdKept (environmentMove s) :=
  holdKept_of_hist h (by simp) (by simp) (by simp)

/-- Every step without reset keeps the hold. -/
theorem holdKept_step {s t : State} (hp : s.params.wellFormed = true)
    (hr : s.inputs.ports.rst = false) (h : holdKept s) (hst : step s = .next t) : holdKept t := by
  refine step_keeps hst h (fun _ => holdKept_environmentMove) (fun hrst => ?_) (fun hd => ?_)
    (fun hi => ?_) (fun i u _ hm => BlockMove_holdKept hm hp h)
  · rw [hr] at hrst; cases hrst
  · exact holdKept_of_hist h rfl rfl (by simp [hd])
  · exact holdKept_of_hist h rfl rfl (by simp [hi])

/-! ### The factory bits (rules R128, R225) -/

theorem confReadFresh_of_phase {s : State} (h : s.phase ≠ .exec) (hw : s.phase ≠ .wrConf) :
    confReadFresh s :=
  fun _ hp => absurd hp (not_or.2 ⟨h, hw⟩)

/-- An instruction latched with another `op` value than SET_CONFIG's. -/
theorem confReadFresh_of_latched {s : State} {i : Instr}
    (hd : decodeWord (.opsel s.latches.op) = .ok i) (hi : i ≠ .setConfig) : confReadFresh s := by
  intro hop
  rw [hop] at hd
  exact absurd (Except.ok.inj hd).symm hi

theorem BlockMove_confReadFresh {i : Instr} {s u : State} (h : BlockMove i s u) (hr : runs s i)
    (hs : confReadFresh s) : confReadFresh u := by
  cases h
  case wait => exact hs
  case start ho hp hc =>
    by_cases hi : i = .setConfig
    · subst hi; exact confReadFresh_of_phase (by simp [firstPhase]) (by simp [firstPhase])
    · exact confReadFresh_of_latched (runs_idle hr hp).2 hi
  case readConf => exact fun _ _ => ⟨s.hist, rfl⟩
  case readStatus p hp hi hb =>
    have hd := runs_latched hr (by simp [hp]) (by simp [hp])
    refine confReadFresh_of_latched hd ?_
    rcases hi with ⟨rfl, -⟩ | ⟨rfl, -⟩ <;> simp
  case toWrConf hp hi => exact fun hop _ => hs hop (.inl hp)
  all_goals exact confReadFresh_of_phase (by simp) (by simp)

/-- The word SET_CONFIG writes is a merge with cur_lat. -/
theorem mergedWord_eq_some {s : State} {v : Word} (h : mergedWord s = some v) :
    ∃ c, v = mergeConf s.params.confLayout s.internal.cur c := by
  unfold mergedWord at h
  split at h
  · exact ⟨_, (Option.some.inj h).symm⟩
  · cases h

theorem BlockMove_confWritesMerged {i : Instr} {s u : State} (h : BlockMove i s u) (hr : runs s i)
    (hs : factoryKept s) : confWritesMerged u.params u.hist := by
  obtain ⟨hl, hf, hm⟩ := hs
  rw [(BlockMove_constants h).1]
  rcases BlockMove_hist h with ⟨hu, -⟩ | ⟨e, he, hu⟩ <;> rw [hu]
  · exact hm
  · refine confWritesMerged_concat hm ?_
    rintro payload out rfl
    generalize hx : Event.wr s.params.addrConf payload out = x at he
    cases he with
    | read => cases hx
    | delay => cases hx
    | writeBurn cmd out =>
      exact absurd (Event.wr.inj hx).1 (addrConf_ne_addrBurn (legal_iff.1 hl).1)
    | writeConf v out hp hi hv =>
      subst hi
      have hop := latched_op_eq (op := 0x5#4) hr (by simp [hp]) (by simp [hp]) rfl
      obtain ⟨pre, hpre⟩ := hf hop (.inr hp)
      obtain ⟨c, rfl⟩ := mergedWord_eq_some hv
      refine ⟨pre, _, _, c, hpre, ?_⟩
      rw [(Event.wr.inj hx).2.1]
      exact congrArg (fun w => beBytes16 (mergeConf _ w c)) (wordOfBytes_beBytes16 _).symm

theorem factoryKept_environmentMove {s : State} (h : factoryKept s) :
    factoryKept (environmentMove s) := by
  obtain ⟨hl, hf, hm⟩ := h
  exact ⟨legal_environmentMove hl, by simpa [confReadFresh] using hf, by simpa using hm⟩

/-- Every step keeps the factory bits' promise. -/
theorem factoryKept_step {s t : State} (h : factoryKept s) (hst : step s = .next t) :
    factoryKept t := by
  obtain ⟨hl, hf, hm⟩ := id h
  refine step_keeps hst h (fun _ => factoryKept_environmentMove) (fun _ => ?_) (fun _ => ?_)
    (fun _ => ?_) (fun i u hr hmv => ?_)
  · exact ⟨legal_resetBlock hl, confReadFresh_of_phase (by simp) (by simp), hm⟩
  · exact ⟨legal_finish hl, confReadFresh_of_phase (by simp) (by simp), hm⟩
  · exact ⟨legal_startIllegal hl,
      confReadFresh_of_phase (by simp [startIllegal]) (by simp [startIllegal]), hm⟩
  · exact ⟨legal_move hl hr hmv, BlockMove_confReadFresh hmv hr hf, BlockMove_confWritesMerged hmv hr h⟩

end Sys2Proof.Proofs
end

section
/-! Finished runs (rules R16, R220, R230, R232): a legal state always steps, answering collaborators
bring every operation to DONE in at most seven steps, and what every step keeps holds along a run. -/

namespace Sys2Proof.Proofs

open Sys2Proof.Machine Sys2Proof.Safety

/-! ### A legal state has a next state -/

@[simp] theorem readPhase_next (r : Reg) (go : List Byte → State → State) (s : State) :
    ∃ t, readPhase r go s = .next t := by
  rcases readPhase_cases (r := r) (go := go) (s := s) rfl with ⟨-, h⟩ | ⟨_, _, -, h⟩ | ⟨-, h⟩ <;>
    exact ⟨_, h⟩

@[simp] theorem writePhase_next (r : Reg) (v : Word) (go : State → State) (s : State) :
    ∃ t, writePhase r v go s = .next t := by
  rcases writePhase_cases (r := r) (v := v) (go := go) (s := s) rfl with
    ⟨-, h⟩ | ⟨_, _, -, h⟩ | ⟨-, h⟩ <;> exact ⟨_, h⟩

@[simp] theorem settleDelay_next (s : State) : ∃ t, settleDelay s = .next t := by
  rcases settleDelay_cases (s := s) rfl with ⟨-, h⟩ | ⟨-, h⟩ <;> exact ⟨_, h⟩

/-- A well-formed record is a Configuration (rule R101). -/
theorem configurationOf_eq_some {r : CfgRec} (h : r.wellFormed = true) :
    ∃ c, configurationOf r = some c :=
  Option.isSome_iff_exists.1 ((configurationOf_isSome r).trans h)

/-- Every operation can be started. -/
theorem exec_next_of_idle {i : Instr} {s : State} (ho : isOperation i = true)
    (hp : s.phase = .idle) : ∃ t, exec i s = .next t := by
  cases i with
  | cmdBurnMangConfig => cases ho
  | cmdBurnPosition   => cases ho
  | decode            => simp [exec, execDecode, hp]
  | encode            => simp [exec, execEncode, hp]
  | merge             => simp [exec, execMerge, hp]
  | config            => simp [exec, execConfig, hp]
  | setConfig         => simp [exec, execSetConfig, hp]
  | statusDecode      => simp [exec, execStatusDecode, hp]
  | magnetStatus      => simp [exec, execMagnetStatus, hp]
  | zmco              => simp [exec, execZmco, hp]
  | guardMangConfig   => simp [exec, execGuardMangConfig, hp]
  | guardPosition     => simp [exec, execGuardPosition, hp]
  | burnMangConfig    => simp [exec, execBurnMangConfig, hp]
  | burnPosition      => simp [exec, execBurnPosition, hp]

/-- Every instruction has a next state in each phase of its sequence: the phases that reach a
collaborator by the lemmas above, the others at once. -/
theorem exec_next_of_mem {i : Instr} {s : State} (hp : s.phase ∈ operationPhases i)
    (hc : readsCfg i = true → s.latches.cfg.wellFormed = true) : ∃ t, exec i s = .next t := by
  cases i <;> simp only [operationPhases, List.mem_cons, List.not_mem_nil, or_false] at hp
  case decode => simp [exec, execDecode, hp]
  case encode =>
    obtain ⟨c, hc⟩ := configurationOf_eq_some (hc rfl)
    simp [exec, execEncode, hp, hc]
  case merge =>
    obtain ⟨c, hc⟩ := configurationOf_eq_some (hc rfl)
    simp [exec, execMerge, hp, hc]
  case config => rcases hp with hp | hp <;> simp [exec, execConfig, rdConf, hp]
  case setConfig =>
    obtain ⟨c, hc⟩ := configurationOf_eq_some (hc rfl)
    rcases hp with hp | hp | hp <;> simp [exec, execSetConfig, rdConf, mergedWord, hp, hc]
  case statusDecode => simp [exec, execStatusDecode, hp]
  case magnetStatus => rcases hp with hp | hp <;> simp [exec, execMagnetStatus, rdStatus, hp]
  case zmco => simp [exec, execZmco, rdZmco, hp]
  case guardMangConfig => simp [exec, execGuardMangConfig, hp]
  case guardPosition => simp [exec, execGuardPosition, hp]
  case burnMangConfig =>
    rcases hp with hp | hp | hp | hp <;> simp [exec, execBurnMangConfig, rdZmco, wrBurn, hp]
  case burnPosition =>
    rcases hp with hp | hp | hp | hp | hp | hp <;>
      simp [exec, execBurnPosition, rdZmco, rdStatus, wrBurn, hp]
  case cmdBurnMangConfig => simp [exec, execCmdBurnMangConfig, wrBurn, hp]
  case cmdBurnPosition => simp [exec, execCmdBurnPosition, wrBurn, hp]

/-- With operation `j` in flight, what a step runs has this phase in its sequence. -/
theorem runs_inFlight {s : State} {i j : Instr} (h : runs s i) (hj : inFlight s j)
    (hi : s.phase ≠ .idle) : s.phase ∈ operationPhases i ∧
      (readsCfg i = true → s.latches.cfg.wellFormed = true) := by
  obtain ⟨hdec, hmem, hcfg⟩ := hj
  rcases h with ⟨h, -⟩ | ⟨-, -, -, hd⟩ | ⟨hp, -, rfl⟩ | ⟨hp, -, rfl⟩ | ⟨-, -, -, hd⟩
  · exact absurd h hi
  · cases hdec.symm.trans hd
    exact ⟨hmem, hcfg⟩
  · exact ⟨by simp [operationPhases, hp], by simp [readsCfg]⟩
  · exact ⟨by simp [operationPhases, hp], by simp [readsCfg]⟩
  · cases hdec.symm.trans hd
    exact ⟨hmem, hcfg⟩

/-- With an operation in flight the word fetched is an instruction. -/
theorem decodeWord_fetchWord_ne_error {s : State} {j : Instr} {w : InstrWord} {e : DecodeError}
    (hj : inFlight s j) (hi : s.phase ≠ .idle) (hf : fetchWord s = some w) :
    decodeWord w ≠ .error e := by
  have hlatched : decodeWord (.opsel s.latches.op) ≠ .error e := by rw [hj.1]; simp
  have hcmd : ∀ op c, burnCommand op = some c → ∃ i, decodeWord (.burncmd c) = .ok i := by
    intro op c hc
    rw [burnCommand_eq] at hc
    split_ifs at hc <;> cases hc
    · exact ⟨.cmdBurnMangConfig, rfl⟩
    · exact ⟨.cmdBurnPosition, rfl⟩
  unfold fetchWord at hf
  split at hf
  · exact absurd ‹_› hi
  · split at hf
    · rename_i c hc
      cases hf
      obtain ⟨i, hi⟩ := hcmd _ _ hc
      rw [hi]
      simp
    · cases hf
      exact hlatched
  · cases hf
  all_goals
    cases hf
    exact hlatched

/-- No legal state faults (log 13). -/
theorem legal_next {s : State} (h : legal s = true) : ∃ t, step s = .next t := by
  suffices hb : ∃ u, blockStep exec s = .next u by
    obtain ⟨u, hu⟩ := hb
    exact ⟨_, step_eq_next.2 ⟨u, hu, rfl⟩⟩
  rcases blockStep_cases (run := exec) (s := s) rfl with
    ⟨-, hb⟩ | ⟨-, -, hb⟩ | ⟨-, w, i, hf, hd, hb⟩ | ⟨-, w, e, hf, hd, hb⟩
  · exact ⟨_, hb⟩
  · exact ⟨_, hb⟩
  · rw [hb]
    have hr := fetchWord_runs hf hd
    by_cases hi : s.phase = .idle
    · exact exec_next_of_idle (decodeWord_opsel_isOperation (runs_idle hr hi).2).1 hi
    · obtain ⟨j, hj⟩ := inFlight_of_legal h hi (runs_not_done hr)
      obtain ⟨hmem, hcfg⟩ := runs_inFlight hr hj hi
      exact exec_next_of_mem hmem hcfg
  · rw [hb]
    by_cases hi : s.phase = .idle
    · exact ⟨startIllegal s, by simp [undecodable, hi]⟩
    · have hdone : s.phase ≠ .done := by intro hp; simp [fetchWord, hp] at hf
      obtain ⟨j, hj⟩ := inFlight_of_legal h hi hdone
      exact absurd hd (decodeWord_fetchWord_ne_error hj hi hf)

/-! ### Answering collaborators bring an operation to DONE -/

theorem phaseRank_firstPhase (i : Instr) : phaseRank (firstPhase i) < phaseRank .idle := by
  cases i <;> decide

theorem phaseRank_le (p : Phase) : phaseRank p ≤ 7 := by cases p <;> decide

/-- Where the collaborators answer, every move of an operation goes on to a later phase. -/
theorem BlockMove_phaseRank {i : Instr} {s u : State} (h : BlockMove i s u)
    (hb : responsive s.inputs) (hd : s.phase ≠ .done) :
    phaseRank u.phase < phaseRank s.phase := by
  obtain ⟨hbus, hdelay⟩ := hb
  have hdone : phaseRank .done < phaseRank s.phase := by
    revert hd
    cases s.phase <;> decide
  cases h
  case start ho hp hc => rw [hp]; exact phaseRank_firstPhase i
  case finish hp => exact absurd hp hd
  case wait hp hpend hwait =>
    by_cases hset : s.phase = .settle
    · rw [hwait hset] at hdelay; cases hdelay
    · exact absurd (hpend hset) hbus
  case readStatus p hp hi _ => rcases hi with ⟨-, rfl⟩ | ⟨-, rfl⟩ <;> simp [hp, phaseRank]
  case readConf hp _ _ => simp [hp, phaseRank]
  case readCounter hp _ _ => simp [hp, phaseRank]
  case toWrConf hp _ => simp [hp, phaseRank]
  case mangPasses hp _ _ => simp [hp, phaseRank]
  case counterPasses hp _ _ => simp [hp, phaseRank]
  case magnetPasses hp _ _ => simp [hp, phaseRank]
  case writesBurn hp _ _ => simp [hp, phaseRank]
  all_goals exact hdone

/-- A started operation of a legal block moves on in every step that is answered. -/
theorem step_advances {s : State} (h : legal s = true) (hr : s.inputs.ports.rst = false)
    (hb : responsive s.inputs) (hd : s.phase ≠ .done)
    (hi : s.phase = .idle → s.inputs.ports.start = true) :
    ∃ t, step s = .next t ∧ phaseRank t.phase < phaseRank s.phase := by
  obtain ⟨t, ht⟩ := legal_next h
  refine ⟨t, ht, ?_⟩
  obtain ⟨u, rfl, hu⟩ := step_cases ht
  rw [environmentMove_phase]
  rcases hu with ⟨hrst, -⟩ | ⟨-, ⟨hp, hs, -⟩ | ⟨hp, -⟩ | ⟨hp, -, -, rfl⟩ | ⟨i, -, hm⟩⟩
  · rw [hr] at hrst; cases hrst
  · rw [hi hp] at hs; cases hs
  · exact absurd hp hd
  · simp [hp, startIllegal, phaseRank]
  · exact BlockMove_phaseRank hm hb hd

/-- A legal block that HOST does not reset and whose collaborators answer, now and later. -/
def served (s : State) : Prop := legal s = true ∧ noReset s ∧ alwaysResponsive s

theorem served_step {s t : State} (h : served s) (hst : step s = .next t) : served t := by
  obtain ⟨hl, hr, ha⟩ := h
  exact ⟨legal_step hl hst, noReset_step hr hst, alwaysResponsive_step ha hst⟩

/-- From a started operation, as many steps as the phase's rank reach DONE. -/
theorem runToDone_done {k : Nat} : ∀ {s : State}, served s →
    (s.phase = .idle → s.inputs.ports.start = true) → phaseRank s.phase ≤ k →
    ∃ t, runToDone k s = .next t ∧ t.phase = .done ∧ served t := by
  induction k with
  | zero =>
    intro s hs _ hk
    refine ⟨s, rfl, ?_, hs⟩
    revert hk
    cases s.phase <;> decide
  | succ k ih =>
    intro s hs hi hk
    by_cases hd : s.phase = .done
    · exact ⟨s, by simp [runToDone, hd], hd, hs⟩
    · obtain ⟨t, ht, hrank⟩ := step_advances hs.1 hs.2.1.1 hs.2.2.1 hd hi
      have hidle : t.phase ≠ .idle := by
        intro hp
        have := phaseRank_le s.phase
        rw [hp, phaseRank] at hrank
        omega
      obtain ⟨u, hu⟩ := ih (served_step hs ht) (fun hp => absurd hp hidle) (by omega)
      exact ⟨u, by simpa [runToDone, hd, ht] using hu⟩

/-! ### Operations, one after another -/

theorem runOperation_eq_some {k : Nat} {p : HostPorts} {s u : State} {r : ResultRegs} :
    runOperation k p s = some (r, u) ↔ s.phase = .idle ∧ ∃ t, runToDone k (drive p s) = .next t ∧
      t.phase = .done ∧ step t = .next u ∧ final u = true ∧ t.result = r := by
  unfold runOperation
  by_cases hi : s.phase = .idle
  · cases hrun : runToDone k (drive p s) with
    | next t =>
      by_cases hd : t.phase = .done
      · cases hst : step t with
        | next v =>
          have hv : final v = true ∧ t.result = r ∧ v = u ↔
              v = u ∧ final u = true ∧ t.result = r :=
            ⟨by rintro ⟨hf, hr, rfl⟩; exact ⟨rfl, hf, hr⟩, by rintro ⟨rfl, hf, hr⟩; exact ⟨hf, hr, rfl⟩⟩
          simpa [hi, hd, hst] using hv
        | fault f => simp [hi, hd, hst]
        | refused f => simp [hi, hd, hst]
      · simp [hi, hd]
    | fault f => simp
    | refused f => simp
  · simp [hi]

theorem runOperations_cons_eq_some {k : Nat} {p : HostPorts} {ps : List HostPorts} {s u : State}
    {rs : List ResultRegs} : runOperations k (p :: ps) s = some (rs, u) ↔
      ∃ r t rs', runOperation k p s = some (r, t) ∧ runOperations k ps t = some (rs', u) ∧
        rs = r :: rs' := by
  rw [runOperations]
  cases hop : runOperation k p s with
  | none => simp
  | some x =>
    obtain ⟨r, t⟩ := x
    cases hops : runOperations k ps t with
    | none => simp [hops]
    | some y =>
      obtain ⟨rs', u'⟩ := y
      simpa [hops, eq_comm (a := rs)] using and_comm

theorem phase_idle_of_final {s : State} (h : final s = true) : s.phase = .idle := by
  simpa [final] using h

/-- What every step keeps holds where an operation is over. -/
theorem runToDone_induct {P : State → Prop} (hP : ∀ s t, P s → step s = .next t → P t) {k : Nat} :
    ∀ {s t : State}, P s → runToDone k s = .next t → P t := by
  induction k with
  | zero => intro s t hs h; cases h; exact hs
  | succ k ih =>
    intro s t hs h
    rw [runToDone] at h
    split at h
    · cases h; exact hs
    · cases hu : step s with
      | next u    => rw [hu] at h; exact ih (hP _ _ hs hu) h
      | fault f   => rw [hu] at h; cases h
      | refused f => rw [hu] at h; cases h

/-- What every step and HOST's drive keep holds where a run is over, at IDLE. -/
theorem runOperations_induct {P : State → Prop} (hP : ∀ s t, P s → step s = .next t → P t)
    (hdrive : ∀ p s, P s → P (drive p s)) {k : Nat} {ops : List HostPorts} :
    ∀ {s u : State} {rs : List ResultRegs}, P s → runOperations k ops s = some (rs, u) →
      P u ∧ u.phase = .idle := by
  induction ops with
  | nil =>
    intro s u rs hs h
    simp only [runOperations, Option.ite_none_right_eq_some, Option.some.injEq, Prod.mk.injEq] at h
    obtain ⟨hf, -, rfl⟩ := h
    exact ⟨hs, phase_idle_of_final hf⟩
  | cons p ps ih =>
    intro s u rs hs h
    obtain ⟨r, t, rs', hop, hops, -⟩ := runOperations_cons_eq_some.1 h
    obtain ⟨-, d, hrun, -, hst, -, -⟩ := runOperation_eq_some.1 hop
    exact ih (hP _ _ (runToDone_induct hP (hdrive p s hs) hrun) hst) hops

/-! ### Every list of operations finishes -/

theorem legal_drive {p : HostPorts} {s : State} (h : legal s = true) : legal (drive p s) = true := h

theorem noReset_drive {p : HostPorts} {s : State} (h : noReset s) : noReset (drive p s) :=
  ⟨rfl, h.2⟩

theorem served_drive {p : HostPorts} {s : State} (h : served s) : served (drive p s) :=
  ⟨legal_drive h.1, noReset_drive h.2.1, h.2.2⟩

/-- DONE returns to IDLE (rule R193). -/
theorem step_done {s : State} (hr : s.inputs.ports.rst = false) (hp : s.phase = .done) :
    step s = .next (environmentMove (finish s)) := by
  simp [step, blockStep, hr, fetchWord, hp, noFetch, afterBlock]

theorem runOperation_finishes (p : HostPorts) {s : State} (h : served s) (hp : s.phase = .idle) :
    ∃ r t, runOperation 7 p s = some (r, t) ∧ t.phase = .idle ∧ served t := by
  obtain ⟨d, hrun, hd, hs⟩ := runToDone_done (k := 7) (served_drive (p := p) h) (fun _ => rfl)
    (phaseRank_le _)
  have hst := step_done hs.2.1.1 hd
  exact ⟨d.result, _, runOperation_eq_some.2 ⟨hp, d, hrun, hd, hst, by simp [final], rfl⟩, by simp,
    served_step hs hst⟩

theorem runOperations_finishes (ops : List HostPorts) : ∀ {s : State}, served s →
    s.phase = .idle → ∃ rs t, runOperations 7 ops s = some (rs, t) ∧ rs.length = ops.length ∧
      final t = true := by
  induction ops with
  | nil =>
    intro s _ hp
    have hf : final s = true := by simp [final, hp]
    exact ⟨[], s, by simp [runOperations, hf], rfl, hf⟩
  | cons p ps ih =>
    intro s hs hp
    obtain ⟨r, t, hop, htp, ht⟩ := runOperation_finishes p hs hp
    obtain ⟨rs, u, hops, hlen, hf⟩ := ih ht htp
    exact ⟨r :: rs, u, runOperations_cons_eq_some.2 ⟨r, t, rs, hop, hops, rfl⟩, by simp [hlen], hf⟩

/-! ### What holds along a run -/

/-- The three promises about the history of a block with parameters `p`, while HOST does not reset
the block. -/
def promisesKept (p : Params) (s : State) : Prop :=
  s.params = p ∧ guarded s ∧ holdKept s ∧ factoryKept s ∧ noReset s

/-- No step changes the parameters (rule R40). -/
theorem params_step {s t : State} (h : step s = .next t) : t.params = s.params :=
  step_keeps (P := fun u => u.params = s.params) h rfl (fun _ h => by simpa using h) (fun _ => rfl)
    (fun _ => rfl) (fun _ => rfl) (fun _ _ _ hm => (BlockMove_constants hm).1)

theorem promisesKept_step {p : Params} {s t : State} (h : promisesKept p s)
    (hst : step s = .next t) : promisesKept p t := by
  obtain ⟨hp, hg, hh, hf, hr⟩ := h
  exact ⟨(params_step hst).trans hp, guarded_step hg hst,
    holdKept_step (legal_iff.1 hg.1).1 hr.1 hh hst, factoryKept_step hf hst, noReset_step hr hst⟩

theorem promisesKept_drive {p : Params} {q : HostPorts} {s : State} (h : promisesKept p s) :
    promisesKept p (drive q s) := by
  obtain ⟨hp, hg, hh, hf, hr⟩ := h
  exact ⟨hp, hg, hh, hf, noReset_drive hr⟩

theorem promisesKept_poweredOn {s : State} (h : poweredOn s) (hl : legal s = true)
    (hr : noReset s) : promisesKept s.params s := by
  obtain ⟨-, hp, -, hh⟩ := h
  refine ⟨rfl, ⟨hl, burnReadsFresh_of_phase (by simp [hp]), ?_⟩, ?_,
    ⟨hl, confReadFresh_of_phase (by simp [hp]) (by simp [hp]), ?_⟩, hr⟩
  all_goals intro pre payload; simp [hh]

/-- At IDLE the hold is over: every successful burn write has its delay. -/
theorem holdKept_idle {s : State} (h : holdKept s) (hp : s.phase = .idle) {pre post : List Event}
    {payload : List Byte} (hx : s.hist = pre ++ .wr s.params.addrBurn payload .ok :: post) :
    post.head? = some (.dl burnSettleMs) := by
  refine (h pre payload post hx).resolve_left ?_
  simp [hp]

theorem observation_eq_some {k : Nat} {ops : List HostPorts} {s : State} {o : Observation} :
    observation k ops s = some o ↔ ∃ t, runOperations k ops s = some (o.results, t) ∧
      o.hist = t.hist := by
  obtain ⟨results, hist⟩ := o
  simp [observation, eq_comm]

/-- Settles O60: answering collaborators bring each operation to DONE within the rank of IDLE, and the
three promises, kept by every step and by HOST's drive, hold where the run is over. -/
theorem finishedRuns : Obligations.FinishedRuns := by
  unfold Obligations.FinishedRuns
  constructor
  · intro s ops hon hl hr ha
    obtain ⟨rs, t, hrun, hlen, hf⟩ := runOperations_finishes ops ⟨hl, hr, ha⟩ hon.2.1
    exact ⟨rs, t, hrun, hlen, hf, observation_eq_some.2 ⟨t, hrun, rfl⟩⟩
  · intro k s ops o hon hl hr ho
    obtain ⟨t, hrun, hhist⟩ := observation_eq_some.1 ho
    obtain ⟨⟨hp, hg, hh, hm, -⟩, hidle⟩ := runOperations_induct (P := promisesKept s.params)
      (fun _ _ => promisesKept_step) (fun _ _ => promisesKept_drive)
      (promisesKept_poweredOn hon hl hr) hrun
    rw [hhist, ← hp]
    exact ⟨hg.2.2, hm.2.2, fun pre payload post hx => holdKept_idle hh hidle hx⟩

end Sys2Proof.Proofs
end

section
/-! The errors' entry and return (rules R28, R190, R193), the opacity of transport errors (rules R7,
R64), and the step as the instruction the sequencer holds (rules R5, R24, R98, R99, R170). -/

namespace Sys2Proof.Proofs

open Sys2Proof.Machine Sys2Proof.Safety

/-! ### What a step runs -/

/-- Without reset, where the sequencer holds an instruction, the step is `exec` of it and the
environment's move. -/
theorem step_of_fetch {s : State} {w : InstrWord} {i : Instr} (hr : s.inputs.ports.rst = false)
    (hf : fetchWord s = some w) (hd : decodeWord w = .ok i) : step s = afterBlock (exec i s) := by
  simp [step, blockStep, hr, hf, hd]

theorem fetchWord_idle {s : State} (hp : s.phase = .idle) (hs : s.inputs.ports.start = true) :
    fetchWord s = some (.opsel s.inputs.ports.op) := by
  simp [fetchWord, hp, hs]

theorem fetchWord_latched {s : State} (hp : s.phase ∈ [Phase.exec, .rdConf, .wrConf, .rdStatus,
    .rdZmco, .chkCnt, .chkMag, .settle]) : fetchWord s = some (.opsel s.latches.op) := by
  unfold fetchWord
  cases h : s.phase <;> simp_all

theorem fetchWord_wrBurn {s : State} {c : Byte} (hp : s.phase = .wrBurn)
    (hc : burnCommand s.latches.op = some c) : fetchWord s = some (.burncmd c) := by
  simp [fetchWord, hp, hc]

/-- Settles O5: by the four cases of the fetch. -/
theorem stepRunsDecoded : Obligations.StepRunsDecoded := by
  unfold Obligations.StepRunsDecoded
  intro s i hr h
  suffices hs : step s = afterBlock (exec i s) by
    rw [hs]
    cases exec i s <;> rfl
  rcases h with ⟨hp, hst, hd⟩ | ⟨hp, hd⟩ | ⟨hp, hop, rfl⟩ | ⟨hp, hop, rfl⟩
  · exact step_of_fetch hr (fetchWord_idle hp hst) hd
  · exact step_of_fetch hr (fetchWord_latched hp) hd
  · exact step_of_fetch hr (fetchWord_wrBurn hp (by rw [hop]; rfl)) rfl
  · exact step_of_fetch hr (fetchWord_wrBurn hp (by rw [hop]; rfl)) rfl

/-! ### The command bytes -/

/-- In WR_BURN a command byte's meaning is the burn write of that byte. -/
theorem exec_command_byte {s : State} {i : Instr} {cmd : Byte} (hp : s.phase = .wrBurn)
    (hi : (i = .cmdBurnMangConfig ∧ cmd = 0x40#8) ∨ (i = .cmdBurnPosition ∧ cmd = 0x80#8)) :
    exec i s = wrBurn cmd s := by
  rcases hi with ⟨rfl, rfl⟩ | ⟨rfl, rfl⟩
  · simp [exec, execCmdBurnMangConfig, hp, cmdMangConfigByte]
  · simp [exec, execCmdBurnPosition, hp, cmdPositionByte]

theorem wrBurn_pending (cmd : Byte) {s : State} (h : s.inputs.bus = .pending) :
    wrBurn cmd s = .next s := by
  simp [wrBurn, writePhase, memWrite, h]

theorem wrBurn_err (cmd : Byte) {s : State} {te : TransportError} {left : Word}
    (h : s.inputs.bus = .err te left) : wrBurn cmd s = .next (raise (.transport te)
      (storeReg .burn left (record (.wr s.params.addrBurn [cmd] (.err te)) s))) := by
  simp [wrBurn, writePhase, memWrite, h, regAddr]

theorem wrBurn_ok (cmd : Byte) {s : State} (h : s.inputs.bus = .ok) :
    wrBurn cmd s = .next (setPhase .settle
      (storeReg .burn (cmd.setWidth 16) (record (.wr s.params.addrBurn [cmd] .ok) s))) := by
  simp [wrBurn, writePhase, memWrite, h, regAddr]

/-- BURN holds the low byte of the word stored. -/
theorem regStore_burn (r : SensorRegs) (cmd : Byte) :
    regStore r (cmd.setWidth 16) .burn = { r with burn := cmd } := by
  simp [regStore]

/-- Settles O25: by the three answers of the bus to the burn write. -/
theorem burnCommandWords : Obligations.BurnCommandWords := by
  unfold Obligations.BurnCommandWords
  intro s i cmd hi hp
  rw [exec_command_byte hp hi]
  refine ⟨wrBurn_pending cmd, fun te left hb => wrBurn_err cmd hb, fun hb => ?_⟩
  rw [wrBurn_ok cmd hb, storeReg, record, regStore_burn, setPhase]

/-! ### The byte order on the wire -/

theorem be16_high (b0 b1 : Byte) : (be16 b0 b1).extractLsb' 8 8 = b0 := by
  ext i hi
  have h16 : 8 + i < 16 := by omega
  simp [be16, h16, BitVec.getLsbD_eq_getElem hi]

theorem be16_low (b0 b1 : Byte) : (be16 b0 b1).extractLsb' 0 8 = b1 := by
  ext i hi
  have hi16 : i < 16 := by omega
  simp [be16, hi, hi16]

/-- The bytes on the wire are bits 15:8 and bits 7:0. -/
theorem beBytes16_eq (v : Word) : beBytes16 v = [v.extractLsb' 8 8, v.extractLsb' 0 8] := by
  simp only [beBytes16, List.cons.injEq, and_true]
  constructor <;> ext i hi <;> simp

/-- Settles O33: each byte is read back from its half of the word. -/
theorem wireIsBigEndian : Obligations.WireIsBigEndian := by
  unfold Obligations.WireIsBigEndian
  refine ⟨fun b0 b1 => ⟨be16_high b0 b1, be16_low b0 b1, ?_⟩, wordOfBytes_beBytes16⟩
  rw [beBytes16_eq, be16_high, be16_low]

/-! ### Error entry and return -/

/-- The one way a move ends an operation with an error: `raise`, with the internal latches and the
device address as they were (rule R190). -/
theorem BlockMove_error {i : Instr} {s u : State} (h : BlockMove i s u) (hs : s.phase ≠ .done)
    (hu : u.phase = .done) (he : u.result.errCode ≠ 0) :
    ∃ e v, u = raise e v ∧ v.internal = s.internal ∧ v.devAddr = s.devAddr := by
  cases h
  case wait => exact absurd hu hs
  case illegalOperand => exact ⟨_, _, rfl, rfl, rfl⟩
  case readFails => exact ⟨_, _, rfl, rfl, rfl⟩
  case codecFails => exact ⟨_, _, rfl, rfl, rfl⟩
  case statusFails => exact ⟨_, _, rfl, rfl, rfl⟩
  case guardFails => exact ⟨_, _, rfl, rfl, rfl⟩
  case confWriteFails => exact ⟨_, _, rfl, rfl, rfl⟩
  case burnWriteFails => exact ⟨_, _, rfl, rfl, rfl⟩
  case readStatus p hp hi hb => rcases hi with ⟨-, rfl⟩ | ⟨-, rfl⟩ <;> cases hu
  case start => exact absurd rfl he
  case readZmco => exact absurd rfl he
  case endsRaw => exact absurd rfl he
  case endsCfg => exact absurd rfl he
  case endsStatus => exact absurd rfl he
  case guardPasses => exact absurd rfl he
  case writesConf => exact absurd rfl he
  case settles => exact absurd rfl he
  all_goals cases hu

/-- So does a step: what follows is `raise` and the environment's move. -/
theorem step_error {s t : State} (h : step s = .next t) (hs : s.phase ≠ .done)
    (ht : t.phase = .done) (he : t.result.errCode ≠ 0) :
    ∃ e v, t = environmentMove (raise e v) ∧ v.internal = s.internal ∧ v.devAddr = s.devAddr := by
  obtain ⟨u, rfl, hu⟩ := step_cases h
  rw [environmentMove_phase] at ht
  rw [environmentMove_result] at he
  rcases hu with ⟨-, rfl⟩ | ⟨-, ⟨-, -, rfl⟩ | ⟨hp, -⟩ | ⟨-, -, -, rfl⟩ | ⟨i, -, hm⟩⟩
  · cases ht
  · exact absurd ht hs
  · exact absurd hp hs
  · exact ⟨_, _, rfl, rfl, rfl⟩
  · obtain ⟨e, v, rfl, hi, hd⟩ := BlockMove_error hm hs ht he
    exact ⟨e, v, rfl, hi, hd⟩

/-- DONE has no request on either port. -/
theorem requests_done {s : State} (h : s.phase = .done) :
    busRequest s = none ∧ delayRequest s = none := by
  simp [busRequest, delayRequest, h]

/-! ### Transport errors are opaque -/

/-- An outcome with every transport error relabelled. -/
def relabelOutcome (f : TransportError → TransportError) : StepOutcome → StepOutcome
  | .next s    => .next (relabel f s)
  | .fault r   => .fault r
  | .refused r => .refused r

section
variable {f : TransportError → TransportError}

@[simp] theorem relabelOutcome_next (s : State) :
    relabelOutcome f (.next s) = .next (relabel f s) := rfl

@[simp] theorem relabelOutcome_noTransition : relabelOutcome f noTransition = noTransition := rfl

theorem afterBlock_relabel (o : StepOutcome) :
    afterBlock (relabelOutcome f o) = relabelOutcome f (afterBlock o) := by
  cases o with
  | next s    => exact congrArg Host.Outcome.next (environmentMove_relabel f s)
  | fault r   => rfl
  | refused r => rfl

/-! The operations that add no event and raise no transport error do not see the relabelling. -/

@[simp] theorem setPhase_relabel (p : Phase) (s : State) :
    setPhase p (relabel f s) = relabel f (setPhase p s) := rfl

@[simp] theorem finish_relabel (s : State) : finish (relabel f s) = relabel f (finish s) := rfl

@[simp] theorem startOp_relabel (p : Phase) (s : State) :
    startOp p (relabel f s) = relabel f (startOp p s) := rfl

@[simp] theorem startIllegal_relabel (s : State) :
    startIllegal (relabel f s) = relabel f (startIllegal s) := rfl

@[simp] theorem resetBlock_relabel (s : State) :
    resetBlock (relabel f s) = relabel f (resetBlock s) := rfl

@[simp] theorem noFetch_relabel (s : State) : noFetch (relabel f s) = relabel f (noFetch s) := by
  unfold noFetch
  rw [relabel_phase]
  split <;> rfl

@[simp] theorem endRaw_relabel (v : Word) (s : State) :
    endRaw v (relabel f s) = relabel f (endRaw v s) := rfl

@[simp] theorem mergedWord_relabel (s : State) : mergedWord (relabel f s) = mergedWord s := rfl

@[simp] theorem startCfgOp_relabel (p : Phase) (s : State) :
    startCfgOp p (relabel f s) = relabel f (startCfgOp p s) := by
  rcases startCfgOp_cases p s with ⟨hw, h⟩ | ⟨hw, h⟩ <;> rw [h]
  · simp [startCfgOp, hw]
  · simp only [startCfgOp, relabel_inputs, relabelInputs_ports, hw]
    rfl

@[simp] theorem endDecoded_relabel (r : Except BlockError Configuration) (s : State) :
    endDecoded r (relabel f s) = relabel f (endDecoded r s) := by
  cases r <;> rfl

@[simp] theorem endStatusDecoded_relabel (r : Except BlockError Status) (s : State) :
    endStatusDecoded r (relabel f s) = relabel f (endStatusDecoded r s) := by
  cases r <;> rfl

@[simp] theorem endVerdict_relabel (r : Except BlockError Unit) (s : State) :
    endVerdict r (relabel f s) = relabel f (endVerdict r s) := by
  cases r <;> rfl

@[simp] theorem checkPhase_relabel (r : Except BlockError Unit) (p : Phase) (s : State) :
    checkPhase r p (relabel f s) = relabel f (checkPhase r p s) := by
  cases r <;> rfl

/-! The operations that reach a collaborator record the relabelled answer. -/

theorem record_relabel (e : Event) (s : State) :
    record (relabelEvent f e) (relabel f s) = relabel f (record e s) := by
  simp [record, relabel]

theorem storeReg_relabel (r : Reg) (v : Word) (s : State) :
    storeReg r v (relabel f s) = relabel f (storeReg r v s) := rfl

@[simp] theorem settleDelay_relabel (s : State) :
    settleDelay (relabel f s) = relabelOutcome f (settleDelay s) := by
  rcases settleDelay_cases (s := s) rfl with ⟨hd, h⟩ | ⟨hd, h⟩
  · simp [settleDelay, delayMs, hd]
  · rw [h, relabelOutcome_next]
    simp only [settleDelay, delayMs, relabel_inputs, relabelInputs_delayDone, hd, if_true]
    exact congrArg (fun t => Host.Outcome.next (endOk t))
      (record_relabel (f := f) (.dl burnSettleMs) s)

section
variable (hf : ∀ te, (f te).code = te.code)
include hf

/-- The port code is all that `raise` keeps of a transport error. -/
theorem raise_transport_relabel (te : TransportError) (s : State) :
    raise (.transport (f te)) (relabel f s) = relabel f (raise (.transport te) s) := by
  simp [raise, endWith, relabel, errorCode, errorInfo, hf]

theorem readPhase_relabel {r : Reg} {go : List Byte → State → State}
    (hgo : ∀ bs t, go bs (relabel f t) = relabel f (go bs t)) (s : State) :
    readPhase r go (relabel f s) = relabelOutcome f (readPhase r go s) := by
  cases hb : s.inputs.bus with
  | pending => simp [readPhase, memRead, hb, relabelReply]
  | ok =>
    simp only [readPhase, memRead, relabel_inputs, relabelInputs_bus, hb, relabelReply,
      relabelOutcome_next]
    rw [← hgo, ← record_relabel]
    rfl
  | err te left =>
    simp only [readPhase, memRead, relabel_inputs, relabelInputs_bus, hb, relabelReply,
      relabelOutcome_next]
    rw [← raise_transport_relabel hf, ← record_relabel]
    rfl

theorem writePhase_relabel {r : Reg} {v : Word} {go : State → State}
    (hgo : ∀ t, go (relabel f t) = relabel f (go t)) (s : State) :
    writePhase r v go (relabel f s) = relabelOutcome f (writePhase r v go s) := by
  cases hb : s.inputs.bus with
  | pending => simp [writePhase, memWrite, hb, relabelReply]
  | ok =>
    simp only [writePhase, memWrite, relabel_inputs, relabelInputs_bus, hb, relabelReply,
      relabelOutcome_next]
    rw [← hgo, ← storeReg_relabel, ← record_relabel]
    rfl
  | err te left =>
    simp only [writePhase, memWrite, relabel_inputs, relabelInputs_bus, hb, relabelReply,
      relabelOutcome_next]
    rw [← raise_transport_relabel hf, ← storeReg_relabel, ← record_relabel]
    rfl

theorem rdConf_relabel (p : Phase) (s : State) :
    rdConf p (relabel f s) = relabelOutcome f (rdConf p s) :=
  readPhase_relabel hf (by intros; rfl) s

theorem rdStatus_relabel (p : Phase) (s : State) :
    rdStatus p (relabel f s) = relabelOutcome f (rdStatus p s) :=
  readPhase_relabel hf (by intros; rfl) s

theorem rdZmco_relabel {go : BitVec 2 → State → State}
    (hgo : ∀ z t, go z (relabel f t) = relabel f (go z t)) (s : State) :
    rdZmco go (relabel f s) = relabelOutcome f (rdZmco go s) :=
  readPhase_relabel hf (by intro bs t; exact hgo _ (setZ _ t)) s

/-- RD_ZMCO of a burn. -/
theorem rdZmco_chkCnt_relabel (s : State) :
    rdZmco (fun _ t => setPhase .chkCnt t) (relabel f s) =
      relabelOutcome f (rdZmco (fun _ t => setPhase .chkCnt t) s) :=
  rdZmco_relabel hf (by intros; rfl) s

theorem wrBurn_relabel (cmd : Byte) (s : State) :
    wrBurn cmd (relabel f s) = relabelOutcome f (wrBurn cmd s) :=
  writePhase_relabel hf (by intros; rfl) s

theorem exec_relabel (i : Instr) (s : State) :
    exec i (relabel f s) = relabelOutcome f (exec i s) := by
  cases i with
  | decode => simp only [exec, execDecode, relabel_phase]; cases s.phase <;> simp
  | encode =>
    simp only [exec, execEncode, relabel_phase, relabel_latches]
    cases s.phase <;> cases configurationOf s.latches.cfg <;> simp
  | merge =>
    simp only [exec, execMerge, relabel_phase, relabel_latches]
    cases s.phase <;> cases configurationOf s.latches.cfg <;> simp
  | config =>
    simp only [exec, execConfig, relabel_phase]
    cases s.phase <;> simp [rdConf_relabel hf]
  | setConfig =>
    simp only [exec, execSetConfig, relabel_phase, mergedWord_relabel]
    cases s.phase <;> cases mergedWord s <;>
      simp [rdConf_relabel hf, writePhase_relabel hf (endRaw_relabel _)]
  | statusDecode =>
    simp only [exec, execStatusDecode, relabel_phase]
    cases s.phase <;> simp
  | magnetStatus =>
    simp only [exec, execMagnetStatus, relabel_phase]
    cases s.phase <;> simp [rdStatus_relabel hf]
  | zmco =>
    simp only [exec, execZmco, relabel_phase]
    cases s.phase <;> simp [rdZmco_relabel hf (go := endZmco) (fun _ _ => rfl)]
  | guardMangConfig =>
    simp only [exec, execGuardMangConfig, relabel_phase]
    cases s.phase <;> simp
  | guardPosition =>
    simp only [exec, execGuardPosition, relabel_phase]
    cases s.phase <;> simp
  | burnMangConfig =>
    simp only [exec, execBurnMangConfig, relabel_phase]
    cases s.phase <;> simp [rdZmco_chkCnt_relabel hf, wrBurn_relabel hf]
  | burnPosition =>
    simp only [exec, execBurnPosition, relabel_phase]
    cases s.phase <;> simp [rdZmco_chkCnt_relabel hf, rdStatus_relabel hf, wrBurn_relabel hf]
  | cmdBurnMangConfig =>
    simp only [exec, execCmdBurnMangConfig, relabel_phase]
    cases s.phase <;> simp [wrBurn_relabel hf]
  | cmdBurnPosition =>
    simp only [exec, execCmdBurnPosition, relabel_phase]
    cases s.phase <;> simp [wrBurn_relabel hf]

theorem blockStep_relabel (s : State) :
    blockStep exec (relabel f s) = relabelOutcome f (blockStep exec s) := by
  unfold blockStep
  rw [fetchWord_relabel, relabel_inputs, relabelInputs_ports]
  split
  · simp
  · split
    · simp
    · split
      · exact exec_relabel hf _ s
      · unfold undecodable
        rw [relabel_phase]
        split <;> simp

/-- A step of the relabelled state is the step relabelled. -/
theorem step_relabel (s : State) : step (relabel f s) = relabelOutcome f (step s) := by
  unfold step
  rw [blockStep_relabel hf, afterBlock_relabel]

end

end

/-- Settles O43: an error is taken by `raise` alone, and relabelling commutes with every operation of
the block. -/
theorem errorEntryAndReturn : Obligations.ErrorEntryAndReturn := by
  unfold Obligations.ErrorEntryAndReturn
  constructor
  · intro s t h hs ht he
    obtain ⟨hbus, hdelay⟩ := requests_done ht
    obtain ⟨e, v, htv, hint, hdev⟩ := step_error h hs ht he
    refine ⟨by simp [htv], by simp [htv], by simp [htv], by simp [htv], by simp [htv, hint],
      by simp [htv, hdev], hbus, hdelay, fun hr => ⟨_, step_done hr ht, by simp, by simp, by simp⟩⟩
  · intro f s t hf h
    rw [step_relabel hf, h, relabelOutcome_next]

end Sys2Proof.Proofs
end

section
/-! What a busy step reads (rules R22, R26, R164, R222, R226): the ports HOST drives not at all, an
internal latch only where its operation's own read has written it. So neither HOST nor an earlier
operation can change what an operation does. -/

namespace Sys2Proof.Proofs

open Sys2Proof.Machine Sys2Proof.Safety

/-! ### The phases that reach a collaborator, by its answer -/

section
variable {r : Reg} {s : State}

theorem readPhase_pending {go : List Byte → State → State} (h : s.inputs.bus = .pending) :
    readPhase r go s = .next s := by
  simp [readPhase, memRead, h]

theorem readPhase_err {go : List Byte → State → State} {te : TransportError} {left : Word}
    (h : s.inputs.bus = .err te left) : readPhase r go s = .next (raise (.transport te)
      (record (.rd (regAddr s.params r) (regLen r) (.err te)) s)) := by
  simp [readPhase, memRead, h]

theorem readPhase_ok {go : List Byte → State → State} (h : s.inputs.bus = .ok) :
    readPhase r go s = .next (go (regBytes s.sensor r)
      (record (.rd (regAddr s.params r) (regLen r) (.ok (regBytes s.sensor r))) s)) := by
  simp [readPhase, memRead, h]

theorem writePhase_pending {v : Word} {go : State → State} (h : s.inputs.bus = .pending) :
    writePhase r v go s = .next s := by
  simp [writePhase, memWrite, h]

theorem writePhase_err {v : Word} {go : State → State} {te : TransportError} {left : Word}
    (h : s.inputs.bus = .err te left) : writePhase r v go s = .next (raise (.transport te)
      (storeReg r left (record (.wr (regAddr s.params r) (regPayload v r) (.err te)) s))) := by
  simp [writePhase, memWrite, h]

theorem writePhase_ok {v : Word} {go : State → State} (h : s.inputs.bus = .ok) :
    writePhase r v go s = .next (go
      (storeReg r v (record (.wr (regAddr s.params r) (regPayload v r) .ok) s))) := by
  simp [writePhase, memWrite, h]

theorem settleDelay_waits (h : s.inputs.delayDone = false) : settleDelay s = .next s := by
  simp [settleDelay, delayMs, h]

theorem settleDelay_returns (h : s.inputs.delayDone = true) :
    settleDelay s = .next (endOk (record (.dl burnSettleMs) s)) := by
  simp [settleDelay, delayMs, h]

end

/-! ### The block's step, by what is fetched -/

section
variable {run : Instr → State → StepOutcome} {s : State} {w : InstrWord}

theorem blockStep_noFetch (hr : s.inputs.ports.rst = false) (hf : fetchWord s = none) :
    blockStep run s = .next (noFetch s) := by
  simp [blockStep, hr, hf]

theorem blockStep_run {i : Instr} (hr : s.inputs.ports.rst = false) (hf : fetchWord s = some w)
    (hd : decodeWord w = .ok i) : blockStep run s = run i s := by
  simp [blockStep, hr, hf, hd]

theorem blockStep_undecodable {e : DecodeError} (hr : s.inputs.ports.rst = false)
    (hf : fetchWord s = some w) (hd : decodeWord w = .error e) :
    blockStep run s = undecodable s := by
  simp [blockStep, hr, hf, hd]

/-- Outside IDLE only DONE fetches nothing. -/
theorem phase_done_of_fetchWord_none (hf : fetchWord s = none) (hi : s.phase ≠ .idle) :
    s.phase = .done := by
  unfold fetchWord at hf
  split at hf
  · exact absurd ‹_› hi
  · split at hf <;> cases hf
  · assumption
  all_goals cases hf

end

/-! ### The internal latches in a step -/

/-- The internal latches `n` after a step of `s`: a read phase whose transaction succeeds writes its
own latch and no other (rule R26). -/
def latchRead (s : State) (n : InternalLatches) : InternalLatches :=
  match s.phase, s.inputs.bus with
  | .rdConf, .ok   => { n with cur := s.sensor.conf }
  | .rdStatus, .ok => { n with sb := s.sensor.status }
  | .rdZmco, .ok   => { n with z := mask2 s.params.zmcoLsb s.sensor.zmco }
  | _, _           => n

theorem latchRead_of_phase {s : State} (h : s.phase ∉ [Phase.rdConf, .rdStatus, .rdZmco])
    (n : InternalLatches) : latchRead s n = n := by
  unfold latchRead
  cases hp : s.phase <;> simp_all

theorem latchRead_of_bus {s : State} (h : s.inputs.bus ≠ .ok) (n : InternalLatches) :
    latchRead s n = n := by
  unfold latchRead
  cases hb : s.inputs.bus <;> simp_all

theorem latchRead_rdConf {s : State} (hp : s.phase = .rdConf) (hb : s.inputs.bus = .ok)
    (n : InternalLatches) : latchRead s n = { n with cur := s.sensor.conf } := by
  simp [latchRead, hp, hb]

theorem latchRead_rdStatus {s : State} (hp : s.phase = .rdStatus) (hb : s.inputs.bus = .ok)
    (n : InternalLatches) : latchRead s n = { n with sb := s.sensor.status } := by
  simp [latchRead, hp, hb]

theorem latchRead_rdZmco {s : State} (hp : s.phase = .rdZmco) (hb : s.inputs.bus = .ok)
    (n : InternalLatches) :
    latchRead s n = { n with z := mask2 s.params.zmcoLsb s.sensor.zmco } := by
  simp [latchRead, hp, hb]

/-- What a move does to the internal latches. -/
theorem BlockMove_internal {i : Instr} {s u : State} (h : BlockMove i s u) :
    u.internal = latchRead s s.internal := by
  cases h
  case readConf hp hi hb => rw [latchRead_rdConf hp hb]; rfl
  case readStatus p hp hi hb => rw [latchRead_rdStatus hp hb]; rfl
  case readCounter hp hi hb => rw [latchRead_rdZmco hp hb]; rfl
  case readZmco hp hi hb => rw [latchRead_rdZmco hp hb]; rfl
  case readFails r te left hp hb => rw [latchRead_of_bus (by simp [hb])]; rfl
  case wait hp hpend hwait =>
    by_cases hs : s.phase = .settle
    · rw [latchRead_of_phase (by simp [hs])]
    · rw [latchRead_of_bus (by simp [hpend hs])]
  case statusFails b hp =>
    rw [latchRead_of_phase (by rcases hp with ⟨h, -⟩ | ⟨h, -⟩ | ⟨h, -⟩ <;> simp [h])]; rfl
  case guardFails e hp =>
    rw [latchRead_of_phase (by
      rcases hp with ⟨h, -⟩ | ⟨h, -⟩ | ⟨h, -⟩ | ⟨h, -⟩ | ⟨h, -⟩ <;> simp [h])]; rfl
  all_goals rw [latchRead_of_phase (by simp [*])]; rfl

/-! ### A state with other internal latches and other ports -/

/-- `s` with the internal latches `n` and with `p` on the ports HOST drives. -/
def reseen (n : InternalLatches) (p : HostPorts) (s : State) : State :=
  { s with internal := n, inputs := { s.inputs with ports := p } }

/-- The internal latches that operation `i` still has to read are the same in `n` as in `s`. -/
def unreadAgree (i : Instr) (s : State) (n : InternalLatches) : Prop :=
  (s.phase = .wrConf ∨ (s.phase = .exec ∧ (i = .config ∨ i = .setConfig)) →
    n.cur = s.internal.cur) ∧
  (s.phase = .chkCnt → n.z = s.internal.z) ∧
  (s.phase = .chkMag ∨ (s.phase = .exec ∧ i = .magnetStatus) → n.sb = s.internal.sb)

theorem unreadAgree_internal (i : Instr) (s : State) : unreadAgree i s s.internal :=
  ⟨fun _ => rfl, fun _ => rfl, fun _ => rfl⟩

/-- In the other phases no latch is left to read. -/
theorem unreadAgree_of_phase {s : State} (h : s.phase ∉ [Phase.exec, .wrConf, .chkCnt, .chkMag])
    (i : Instr) (n : InternalLatches) : unreadAgree i s n := by
  simp only [List.mem_cons, List.not_mem_nil, or_false, not_or] at h
  obtain ⟨he, hw, hc, hm⟩ := h
  simp [unreadAgree, he, hw, hc, hm]

/-- An outcome with `f` applied to its next state. -/
def mapOutcome (f : State → State) : StepOutcome → StepOutcome
  | .next s    => .next (f s)
  | .fault r   => .fault r
  | .refused r => .refused r

@[simp] theorem mapOutcome_next (f : State → State) (s : State) :
    mapOutcome f (.next s) = .next (f s) := rfl

@[simp] theorem mapOutcome_noTransition (f : State → State) :
    mapOutcome f noTransition = noTransition := rfl

section
variable {n m : InternalLatches} {p : HostPorts} {s : State}

@[simp] theorem reseen_params : (reseen n p s).params = s.params := rfl
@[simp] theorem reseen_phase : (reseen n p s).phase = s.phase := rfl
@[simp] theorem reseen_latches : (reseen n p s).latches = s.latches := rfl
@[simp] theorem reseen_internal : (reseen n p s).internal = n := rfl
@[simp] theorem reseen_ports : (reseen n p s).inputs.ports = p := rfl

theorem reseen_self : reseen s.internal s.inputs.ports s = s := rfl

@[simp] theorem setPhase_reseen (q : Phase) :
    setPhase q (reseen n p s) = reseen n p (setPhase q s) := rfl

@[simp] theorem finish_reseen : finish (reseen n p s) = reseen n p (finish s) := rfl

@[simp] theorem endRaw_reseen (v : Word) : endRaw v (reseen n p s) = reseen n p (endRaw v s) := rfl

@[simp] theorem endDecoded_reseen (r : Except BlockError Configuration) :
    endDecoded r (reseen n p s) = reseen n p (endDecoded r s) := by
  cases r <;> rfl

@[simp] theorem endStatusDecoded_reseen (r : Except BlockError Status) :
    endStatusDecoded r (reseen n p s) = reseen n p (endStatusDecoded r s) := by
  cases r <;> rfl

@[simp] theorem endVerdict_reseen (r : Except BlockError Unit) :
    endVerdict r (reseen n p s) = reseen n p (endVerdict r s) := by
  cases r <;> rfl

@[simp] theorem checkPhase_reseen (r : Except BlockError Unit) (q : Phase) :
    checkPhase r q (reseen n p s) = reseen n p (checkPhase r q s) := by
  cases r <;> rfl

@[simp] theorem settleDelay_reseen :
    settleDelay (reseen n p s) = mapOutcome (reseen n p) (settleDelay s) := by
  cases hd : s.inputs.delayDone with
  | false => rw [settleDelay_waits (s := reseen n p s) hd, settleDelay_waits hd]; rfl
  | true  => rw [settleDelay_returns (s := reseen n p s) hd, settleDelay_returns hd]; rfl

theorem writePhase_reseen {r : Reg} {v : Word} {go : State → State}
    (hgo : ∀ t, go (reseen n p t) = reseen n p (go t)) :
    writePhase r v go (reseen n p s) = mapOutcome (reseen n p) (writePhase r v go s) := by
  cases hb : s.inputs.bus with
  | pending     => rw [writePhase_pending (s := reseen n p s) hb, writePhase_pending hb]; rfl
  | err te left => rw [writePhase_err (s := reseen n p s) hb, writePhase_err hb]; rfl
  | ok          =>
    rw [writePhase_ok (s := reseen n p s) hb, writePhase_ok hb]
    exact congrArg Host.Outcome.next (hgo (storeReg r v (record _ s)))

/-- A read phase whose continuation leaves `m` where it had `n`. -/
theorem readPhase_reseen {r : Reg} {go : List Byte → State → State}
    (hm : s.inputs.bus ≠ .ok → m = n)
    (hgo : s.inputs.bus = .ok → ∀ t, go (regBytes s.sensor r) (reseen n p t) =
      reseen m p (go (regBytes s.sensor r) t)) :
    readPhase r go (reseen n p s) = mapOutcome (reseen m p) (readPhase r go s) := by
  cases hb : s.inputs.bus with
  | pending     =>
    rw [readPhase_pending (s := reseen n p s) hb, readPhase_pending hb, hm (by simp [hb])]
    rfl
  | err te left =>
    rw [readPhase_err (s := reseen n p s) hb, readPhase_err hb, hm (by simp [hb])]
    rfl
  | ok          =>
    rw [readPhase_ok (s := reseen n p s) hb, readPhase_ok hb]
    exact congrArg Host.Outcome.next (hgo hb (record _ s))

theorem mergedWord_reseen (h : n.cur = s.internal.cur) :
    mergedWord (reseen n p s) = mergedWord s := by
  simp [mergedWord, h]

theorem wrBurn_reseen (cmd : Byte) :
    wrBurn cmd (reseen n p s) = mapOutcome (reseen n p) (wrBurn cmd s) :=
  writePhase_reseen (fun _ => rfl)

theorem rdConf_reseen (hp : s.phase = .rdConf) :
    rdConf .exec (reseen n p s) = mapOutcome (reseen (latchRead s n) p) (rdConf .exec s) := by
  refine readPhase_reseen (fun hb => latchRead_of_bus hb n) (fun hb t => ?_)
  rw [latchRead_rdConf hp hb]
  simp [regBytes, reseen, setCur, setPhase]

theorem rdStatus_reseen (q : Phase) (hp : s.phase = .rdStatus) :
    rdStatus q (reseen n p s) = mapOutcome (reseen (latchRead s n) p) (rdStatus q s) := by
  refine readPhase_reseen (fun hb => latchRead_of_bus hb n) (fun hb t => ?_)
  rw [latchRead_rdStatus hp hb]
  rfl

theorem rdZmco_reseen {go : BitVec 2 → State → State}
    (hgo : ∀ z m t, go z (reseen m p t) = reseen m p (go z t)) (hp : s.phase = .rdZmco) :
    rdZmco go (reseen n p s) = mapOutcome (reseen (latchRead s n) p) (rdZmco go s) := by
  refine readPhase_reseen (fun hb => latchRead_of_bus hb n) (fun hb t => ?_)
  rw [latchRead_rdZmco hp hb]
  exact hgo (mask2 s.params.zmcoLsb s.sensor.zmco)
    { n with z := mask2 s.params.zmcoLsb s.sensor.zmco } (setZ (mask2 s.params.zmcoLsb s.sensor.zmco) t)

/-- RD_ZMCO of a burn. -/
theorem rdZmco_chkCnt_reseen (hp : s.phase = .rdZmco) :
    rdZmco (fun _ t => setPhase .chkCnt t) (reseen n p s) =
      mapOutcome (reseen (latchRead s n) p) (rdZmco (fun _ t => setPhase .chkCnt t) s) :=
  rdZmco_reseen (fun _ _ _ => rfl) hp

/-- The meanings of the operations outside IDLE: beside the ports, they do not see the internal latches
that they have read already or write first. -/
theorem exec_reseen {i : Instr} (hi : s.phase ≠ .idle) (hn : unreadAgree i s n) :
    exec i (reseen n p s) = mapOutcome (reseen (latchRead s n) p) (exec i s) := by
  obtain ⟨hcur, hz, hsb⟩ := hn
  cases i with
  | decode =>
    simp only [exec, execDecode, reseen_phase]
    cases hp : s.phase <;> simp [latchRead_of_phase, hp] at hi ⊢
  | encode =>
    simp only [exec, execEncode, reseen_phase, reseen_latches]
    cases hp : s.phase <;> cases configurationOf s.latches.cfg <;>
      simp [latchRead_of_phase, hp] at hi ⊢
  | merge =>
    simp only [exec, execMerge, reseen_phase, reseen_latches]
    cases hp : s.phase <;> cases configurationOf s.latches.cfg <;>
      simp [latchRead_of_phase, hp] at hi ⊢
  | config =>
    simp only [exec, execConfig, reseen_phase]
    cases hp : s.phase <;> simp [latchRead_of_phase, hp, rdConf_reseen, hcur] at hi ⊢
  | setConfig =>
    simp only [exec, execSetConfig, reseen_phase]
    cases hp : s.phase
    case wrConf =>
      rw [mergedWord_reseen (hcur (.inl hp)), latchRead_of_phase (by simp [hp])]
      cases mergedWord s with
      | none   => rfl
      | some v => exact writePhase_reseen (fun _ => endRaw_reseen v)
    all_goals simp [latchRead_of_phase, hp, rdConf_reseen] at hi ⊢
  | statusDecode =>
    simp only [exec, execStatusDecode, reseen_phase]
    cases hp : s.phase <;> simp [latchRead_of_phase, hp] at hi ⊢
  | magnetStatus =>
    simp only [exec, execMagnetStatus, reseen_phase]
    cases hp : s.phase <;> simp [latchRead_of_phase, hp, rdStatus_reseen, hsb] at hi ⊢
  | zmco =>
    simp only [exec, execZmco, reseen_phase]
    cases hp : s.phase <;>
      simp [latchRead_of_phase, hp, rdZmco_reseen (go := endZmco) (fun _ _ _ => rfl)] at hi ⊢
  | guardMangConfig =>
    simp only [exec, execGuardMangConfig, reseen_phase]
    cases hp : s.phase <;> simp [latchRead_of_phase, hp] at hi ⊢
  | guardPosition =>
    simp only [exec, execGuardPosition, reseen_phase]
    cases hp : s.phase <;> simp [latchRead_of_phase, hp] at hi ⊢
  | burnMangConfig =>
    simp only [exec, execBurnMangConfig, reseen_phase]
    cases hp : s.phase <;>
      simp [latchRead_of_phase, hp, rdZmco_chkCnt_reseen, wrBurn_reseen, hz] at hi ⊢
  | burnPosition =>
    simp only [exec, execBurnPosition, reseen_phase]
    cases hp : s.phase <;>
      simp [latchRead_of_phase, hp, rdZmco_chkCnt_reseen, rdStatus_reseen, wrBurn_reseen,
      hz, hsb] at hi ⊢
  | cmdBurnMangConfig =>
    simp only [exec, execCmdBurnMangConfig, reseen_phase]
    cases hp : s.phase <;> simp [latchRead_of_phase, hp, wrBurn_reseen] at hi ⊢
  | cmdBurnPosition =>
    simp only [exec, execCmdBurnPosition, reseen_phase]
    cases hp : s.phase <;> simp [latchRead_of_phase, hp, wrBurn_reseen] at hi ⊢

theorem fetchWord_reseen (hi : s.phase ≠ .idle) : fetchWord (reseen n p s) = fetchWord s := by
  unfold fetchWord
  rw [reseen_phase, reseen_latches]
  split
  · exact absurd ‹_› hi
  all_goals rfl

theorem blockStep_reseen (hp : p.rst = false) (hr : s.inputs.ports.rst = false)
    (hi : s.phase ≠ .idle) (hn : ∀ i, runs s i → unreadAgree i s n) :
    blockStep exec (reseen n p s) =
      mapOutcome (reseen (latchRead s n) p) (blockStep exec s) := by
  have hfetch := fetchWord_reseen (n := n) (p := p) hi
  cases hf : fetchWord s with
  | none =>
    have hd := phase_done_of_fetchWord_none hf hi
    rw [blockStep_noFetch hr hf, blockStep_noFetch (s := reseen n p s) hp (hfetch.trans hf)]
    simp [noFetch, hd, latchRead_of_phase]
  | some w =>
    have hf' := hfetch.trans hf
    cases hd : decodeWord w with
    | ok i    =>
      rw [blockStep_run hr hf hd, blockStep_run (s := reseen n p s) hp hf' hd]
      exact exec_reseen hi (hn i (fetchWord_runs hf hd))
    | error e =>
      rw [blockStep_undecodable hr hf hd, blockStep_undecodable (s := reseen n p s) hp hf' hd]
      simp [undecodable, hi]

/-- Whatever the internal latches and the ports were, the environment's move then sets the ports. -/
theorem environmentMove_reseen : environmentMove (reseen n p s) =
    reseen n (environmentMove s).inputs.ports (environmentMove s) := by
  cases hf : s.future with
  | nil          => rw [environmentMove_nil hf, environmentMove_nil (s := reseen n p s) hf]; rfl
  | cons m rest  => rw [environmentMove_cons hf, environmentMove_cons (s := reseen n p s) hf]; rfl

theorem environmentMove_ports (p : HostPorts) (s : State) :
    environmentMove (reseen s.internal p s) = environmentMove s := by
  have hint := environmentMove_internal s
  rw [environmentMove_reseen, ← hint, reseen_self]

/-- If the block's part of a step commutes with `reseen`, so does the step. -/
theorem step_reseen_of_blockStep {u t : State}
    (hb : blockStep exec u = mapOutcome (reseen m p) (blockStep exec s)) (h : step s = .next t) :
    step u = .next (reseen m t.inputs.ports t) := by
  obtain ⟨v, hv, rfl⟩ := step_eq_next.1 h
  rw [hv] at hb
  exact step_eq_next.2 ⟨_, hb, environmentMove_reseen.symm⟩

theorem step_reseen {t : State} (hp : p.rst = false) (hr : s.inputs.ports.rst = false)
    (hi : s.phase ≠ .idle) (hn : ∀ i, runs s i → unreadAgree i s n) (h : step s = .next t) :
    step (reseen n p s) = .next (reseen (latchRead s n) t.inputs.ports t) :=
  step_reseen_of_blockStep (blockStep_reseen hp hr hi hn) h

end

/-! ### Only an operation's own reads reach its latches -/

/-- What a busy step leaves to read in the latches agrees if what it had to read did. -/
theorem BlockMove_unreadAgree {i : Instr} {s u : State} {n : InternalLatches}
    (h : BlockMove i s u) (hi : s.phase ≠ .idle) (hn : unreadAgree i s n) :
    unreadAgree i u (latchRead s n) := by
  cases h
  case start ho hp hc => exact absurd hp hi
  case wait hp hpend hwait =>
    by_cases hw : s.phase = .wrConf
    · rw [latchRead_of_phase (by simp [hw])]; exact hn
    · exact unreadAgree_of_phase (by cases hq : s.phase <;> simp_all) i _
  case readConf hp hj hb =>
    rw [latchRead_rdConf hp hb]
    rcases hj with rfl | rfl <;> simp [unreadAgree]
  case readStatus q hp hj hb =>
    rw [latchRead_rdStatus hp hb]
    rcases hj with ⟨rfl, rfl⟩ | ⟨rfl, rfl⟩ <;> simp [unreadAgree]
  case readCounter hp hj hb =>
    rw [latchRead_rdZmco hp hb]
    simp [unreadAgree]
  case toWrConf hp hj =>
    rw [latchRead_of_phase (by simp [hp])]
    exact ⟨fun _ => hn.1 (.inr ⟨hp, .inr hj⟩), by simp, by simp⟩
  all_goals exact unreadAgree_of_phase (by simp) i _

/-- No move returns to IDLE but the one from DONE. -/
theorem BlockMove_phase_ne_idle {i : Instr} {s u : State} (h : BlockMove i s u)
    (hd : s.phase ≠ .done) : u.phase ≠ .idle := by
  cases h
  case start => cases i <;> simp [firstPhase]
  case finish hp => exact absurd hp hd
  case wait hp _ _ => intro hi; simp [hi] at hp
  case readStatus q hp hj hb => rcases hj with ⟨-, rfl⟩ | ⟨-, rfl⟩ <;> simp
  all_goals simp

/-- A started operation is not back at IDLE before DONE. -/
theorem step_phase_ne_idle {s t : State} (h : step s = .next t) (hr : s.inputs.ports.rst = false)
    (hd : s.phase ≠ .done) (hi : s.phase = .idle → s.inputs.ports.start = true) :
    t.phase ≠ .idle := by
  obtain ⟨u, rfl, hu⟩ := step_cases h
  rw [environmentMove_phase]
  rcases hu with ⟨hrst, -⟩ | ⟨-, ⟨hp, hs, -⟩ | ⟨hp, -⟩ | ⟨-, -, -, rfl⟩ | ⟨i, -, hm⟩⟩
  · rw [hr] at hrst; cases hrst
  · rw [hi hp] at hs; cases hs
  · exact absurd hp hd
  · simp [startIllegal]
  · exact BlockMove_phase_ne_idle hm hd

/-- What the operation latched still has to read of the internal latches is the same in `n`. -/
def latchedAgree (s : State) (n : InternalLatches) : Prop :=
  ∀ i, decodeWord (.opsel s.latches.op) = .ok i → unreadAgree i s n

theorem latchedAgree_environmentMove {s : State} {n : InternalLatches} (h : latchedAgree s n) :
    latchedAgree (environmentMove s) n := by
  simpa [latchedAgree, unreadAgree] using h

theorem unreadAgree_of_runs {s : State} {n : InternalLatches} {i : Instr} (h : latchedAgree s n)
    (hi : s.phase ≠ .idle) (hr : runs s i) : unreadAgree i s n := by
  by_cases hw : s.phase = .wrBurn
  · exact unreadAgree_of_phase (by simp [hw]) i n
  · exact h i (runs_latched hr hi hw)

theorem BlockMove_latchedAgree {i : Instr} {s u : State} {n : InternalLatches}
    (h : BlockMove i s u) (hr : runs s i) (hn : s.phase ≠ .idle → latchedAgree s n) :
    latchedAgree u (latchRead s n) := by
  intro j hj
  by_cases hi : s.phase = .idle
  · obtain ⟨-, hdec⟩ := runs_idle hr hi
    cases h
    case start ho hp hc =>
      cases Except.ok.inj (hdec.symm.trans hj)
      revert ho
      cases i <;> simp [firstPhase, unreadAgree, isOperation]
    case illegalOperand => exact unreadAgree_of_phase (by simp) j _
    -- no other move is made at IDLE
    all_goals simp_all
  · obtain ⟨hlat, hph⟩ := BlockMove_busy h hi (runs_not_done hr)
    by_cases hw : s.phase = .wrBurn
    · refine unreadAgree_of_phase ?_ j _
      rcases hph with hph | hph | ⟨hph, -⟩ | ⟨-, hph⟩
      · simp [hph]
      · simp [hph, hw]
      · exact absurd hw hph
      · simp [hph]
    · rw [hlat, runs_latched hr hi hw] at hj
      cases hj
      exact BlockMove_unreadAgree h hi (unreadAgree_of_runs (hn hi) hi hr)

theorem latchedAgree_step {s t : State} {n : InternalLatches} (h : step s = .next t)
    (hr : s.inputs.ports.rst = false) (hn : s.phase ≠ .idle → latchedAgree s n)
    (hd : s.phase ≠ .done) (hi : s.phase = .idle → s.inputs.ports.start = true) :
    latchedAgree t (latchRead s n) := by
  obtain ⟨u, rfl, hu⟩ := step_cases h
  apply latchedAgree_environmentMove
  rcases hu with ⟨hrst, -⟩ | ⟨-, ⟨hp, hs, -⟩ | ⟨hp, -⟩ | ⟨-, -, -, rfl⟩ | ⟨i, hri, hm⟩⟩
  · rw [hr] at hrst; cases hrst
  · rw [hi hp] at hs; cases hs
  · exact absurd hp hd
  · exact fun j _ => unreadAgree_of_phase (by simp [startIllegal]) j _
  · exact BlockMove_latchedAgree hm hri hn

/-! ### The start of an operation -/

/-- IDLE to the first phase, by the operation's kind (rules R24, R189). -/
theorem exec_idle {i : Instr} {s : State} (ho : isOperation i = true) (hp : s.phase = .idle) :
    exec i s = .next
      (if readsCfg i then startCfgOp (firstPhase i) s else startOp (firstPhase i) s) := by
  cases i with
  | cmdBurnMangConfig => cases ho
  | cmdBurnPosition   => cases ho
  | decode            => simp [exec, execDecode, hp, readsCfg, firstPhase]
  | encode            => simp [exec, execEncode, hp, readsCfg, firstPhase]
  | merge             => simp [exec, execMerge, hp, readsCfg, firstPhase]
  | config            => simp [exec, execConfig, hp, readsCfg, firstPhase]
  | setConfig         => simp [exec, execSetConfig, hp, readsCfg, firstPhase]
  | statusDecode      => simp [exec, execStatusDecode, hp, readsCfg, firstPhase]
  | magnetStatus      => simp [exec, execMagnetStatus, hp, readsCfg, firstPhase]
  | zmco              => simp [exec, execZmco, hp, readsCfg, firstPhase]
  | guardMangConfig   => simp [exec, execGuardMangConfig, hp, readsCfg, firstPhase]
  | guardPosition     => simp [exec, execGuardPosition, hp, readsCfg, firstPhase]
  | burnMangConfig    => simp [exec, execBurnMangConfig, hp, readsCfg, firstPhase]
  | burnPosition      => simp [exec, execBurnPosition, hp, readsCfg, firstPhase]

section
variable {l : OperandLatches} {n : InternalLatches} {r : ResultRegs} {s : State}

/-- `s` with what earlier operations may have left. -/
def withStale (l : OperandLatches) (n : InternalLatches) (r : ResultRegs) (s : State) : State :=
  { s with latches := l, internal := n, result := r }

theorem startOp_withStale (q : Phase) :
    startOp q (withStale l n r s) = reseen n s.inputs.ports (startOp q s) := rfl

theorem startCfgOp_withStale (q : Phase) :
    startCfgOp q (withStale l n r s) = reseen n s.inputs.ports (startCfgOp q s) := by
  rcases startCfgOp_cases q s with ⟨hw, h⟩ | ⟨hw, h⟩ <;> rw [h] <;>
    simp only [startCfgOp, withStale, hw] <;> rfl

/-- The step that leaves IDLE sees nothing of it, and leaves none but the internal latches. -/
theorem step_withStale {t : State} (hp : s.phase = .idle) (hr : s.inputs.ports.rst = false)
    (hs : s.inputs.ports.start = true) (h : step s = .next t) :
    step (withStale l n r s) = .next (reseen n t.inputs.ports t) := by
  refine step_reseen_of_blockStep (p := s.inputs.ports) ?_ h
  have hp' : (withStale l n r s).phase = .idle := hp
  have hf := fetchWord_idle hp hs
  have hf' := fetchWord_idle hp' hs
  cases hd : decodeWord (.opsel s.inputs.ports.op) with
  | ok i =>
    have ho := (decodeWord_opsel_isOperation hd).1
    rw [blockStep_run hr hf hd, blockStep_run (s := withStale l n r s) hr hf' hd, exec_idle ho hp,
      exec_idle ho hp']
    cases readsCfg i
    · rfl
    · exact congrArg Host.Outcome.next (startCfgOp_withStale (firstPhase i))
  | error e =>
    rw [blockStep_undecodable hr hf hd,
      blockStep_undecodable (s := withStale l n r s) hr hf' hd]
    simp only [undecodable, hp, hp', if_true]
    rfl

end

/-! ### A run to DONE -/

theorem runToDone_of_done {k : Nat} {s : State} (hd : s.phase = .done) :
    runToDone k s = .next s := by
  cases k with
  | zero   => rfl
  | succ k => rw [runToDone, if_pos hd]

theorem runToDone_succ_eq_next {k : Nat} {s t : State} (hd : s.phase ≠ .done) :
    runToDone (k + 1) s = .next t ↔ ∃ u, step s = .next u ∧ runToDone k u = .next t := by
  rw [runToDone, if_neg hd]
  cases step s <;> simp

/-- From a busy state, the internal latches the operation has not read again do not matter. -/
theorem runToDone_reseen {k : Nat} : ∀ {s t : State} {n : InternalLatches}, noReset s →
    s.phase ≠ .idle → latchedAgree s n → runToDone k s = .next t →
    ∃ m, runToDone k (reseen n s.inputs.ports s) = .next (reseen m t.inputs.ports t) := by
  induction k with
  | zero =>
    intro s t n _ _ _ h
    cases h
    exact ⟨n, rfl⟩
  | succ k ih =>
    intro s t n hr hi hn h
    by_cases hd : s.phase = .done
    · rw [runToDone_of_done hd] at h
      cases h
      exact ⟨n, runToDone_of_done hd⟩
    · obtain ⟨u, hst, hu⟩ := (runToDone_succ_eq_next hd).1 h
      have hidle : s.phase = .idle → s.inputs.ports.start = true := fun hp => absurd hp hi
      obtain ⟨m, hm⟩ := ih (noReset_step hr hst) (step_phase_ne_idle hst hr.1 hd hidle)
        (latchedAgree_step hst hr.1 (fun _ => hn) hd hidle) hu
      exact ⟨m, (runToDone_succ_eq_next (s := reseen n s.inputs.ports s) hd).2
        ⟨_, step_reseen hr.1 hr.1 hi (fun i => unreadAgree_of_runs hn hi) hst, hm⟩⟩

/-- Settles O59: the first step overwrites the operand latches and the results, and from there on the
two runs differ in internal latches that the operation writes before it reads them. -/
theorem operationsStartFresh : Obligations.OperationsStartFresh := by
  unfold Obligations.OperationsStartFresh
  intro k s t l n r hp hs hr h ht
  have hd : s.phase ≠ .done := by simp [hp]
  cases k with
  | zero =>
    cases h
    exact absurd ht hd
  | succ k =>
    obtain ⟨u, hst, hu⟩ := (runToDone_succ_eq_next hd).1 h
    have hread := latchedAgree_step (n := n) hst hr.1 (fun hi => absurd hp hi) hd (fun _ => hs)
    rw [latchRead_of_phase (by simp [hp])] at hread
    obtain ⟨m, hm⟩ := runToDone_reseen (noReset_step hr hst)
      (step_phase_ne_idle hst hr.1 hd (fun _ => hs)) hread hu
    exact ⟨reseen m t.inputs.ports t,
      (runToDone_succ_eq_next (s := withStale l n r s) hd).2
        ⟨_, step_withStale hp hr.1 hs hst, hm⟩, ht, rfl, rfl, rfl⟩

/-! ### HOST and a busy block -/

/-- Reset has priority over everything (rule R210). -/
theorem step_reset {s : State} (h : s.inputs.ports.rst = true) :
    step s = .next (environmentMove (resetBlock s)) := by
  simp [step, blockStep, h, afterBlock]

/-- What a step without reset does to the internal latches. -/
theorem step_internal {s t : State} (h : step s = .next t) (hr : s.inputs.ports.rst = false) :
    t.internal = latchRead s s.internal := by
  obtain ⟨u, rfl, hu⟩ := step_cases h
  rw [environmentMove_internal]
  rcases hu with ⟨hrst, -⟩ | ⟨-, ⟨hp, -, rfl⟩ | ⟨hp, rfl⟩ | ⟨hp, -, -, rfl⟩ | ⟨i, -, hm⟩⟩
  · rw [hr] at hrst; cases hrst
  · rw [latchRead_of_phase (by simp [hp])]
  · rw [latchRead_of_phase (by simp [hp])]; rfl
  · rw [latchRead_of_phase (by simp [hp])]; rfl
  · exact BlockMove_internal hm

/-- Settles O39: a busy step does not read the ports, and the environment's move sets them anew; a
reset does not read them either. -/
theorem busyIgnoresHost : Obligations.BusyIgnoresHost := by
  unfold Obligations.BusyIgnoresHost
  intro s p hi hp t h
  cases hr : s.inputs.ports.rst with
  | true =>
    rw [step_reset hr] at h
    cases h
    rw [step_reset (hp.trans hr)]
    exact congrArg Host.Outcome.next (environmentMove_ports p (resetBlock s))
  | false =>
    have hst := step_reseen (p := p) (hp.trans hr) hr hi (fun i _ => unreadAgree_internal i s) h
    rw [← step_internal h hr, reseen_self] at hst
    exact hst

end Sys2Proof.Proofs
end

section
/-! The operations phase by phase (rules R24, R25, R41, R121 to R125, R140 to R147, R162, R163, R170,
R193, R210): the next state of every row, written out. -/

namespace Sys2Proof.Proofs

open Sys2Proof.Machine Sys2Proof.Safety

/-! ### Power-on, reset, waiting, the return to IDLE and the start -/

/-- Settles O9: the fields of `State.reset`. -/
theorem powerOnState : Obligations.PowerOnState := by
  unfold Obligations.PowerOnState
  exact ⟨rfl, rfl, rfl, rfl, rfl, rfl, rfl, rfl, rfl, rfl, rfl, rfl, rfl⟩

/-- Settles O8: a step with `rst` is `resetBlock` and the environment's move. -/
theorem resetAnyPhase : Obligations.ResetAnyPhase := by
  unfold Obligations.ResetAnyPhase
  refine ⟨rfl, fun s hr => ⟨by simp [busRequest, hr], by simp [delayRequest, hr], _,
    step_reset hr, ?_⟩⟩
  simp only [environmentMove_phase, environmentMove_devAddr, environmentMove_result,
    environmentMove_hist, environmentMove_params]
  refine ⟨rfl, rfl, rfl, rfl, rfl, rfl, rfl, rfl, rfl, rfl, fun hf => ?_⟩
  rw [environmentMove_nil (s := resetBlock s) hf]
  rfl

/-- IDLE without `start` waits (rule R24). -/
theorem step_idle_waits {s : State} (hr : s.inputs.ports.rst = false) (hp : s.phase = .idle)
    (hs : s.inputs.ports.start = false) : step s = .next (environmentMove s) := by
  simp [step, blockStep, hr, fetchWord, hp, hs, noFetch, afterBlock]

/-- Settles O7: nothing is fetched at IDLE without `start`, nor at DONE. -/
theorem idleWaitsDoneReturns : Obligations.IdleWaitsDoneReturns := by
  unfold Obligations.IdleWaitsDoneReturns
  exact fun s hr => ⟨step_idle_waits hr, step_done hr⟩

/-- Settles O10: the start by `startOp`, which a record that is a Configuration does not stop. -/
theorem startLatchesOperands : Obligations.StartLatchesOperands := by
  unfold Obligations.StartLatchesOperands
  intro i s ho hp hc
  have hstart : (if readsCfg i then startCfgOp (firstPhase i) s else startOp (firstPhase i) s) =
      startOp (firstPhase i) s := by
    rcases hc with hc | hc
    · simp [hc]
    · simp [startCfgOp, CfgRec.wellFormed, hc]
  rw [exec_idle ho hp, hstart]
  rfl

/-! ### The rows of the phases that reach a collaborator -/

/-- RD_CONF (rules R24, R26, R56). -/
theorem rdConf_rows (q : Phase) (s : State) :
    (s.inputs.bus = .pending → rdConf q s = .next s) ∧
    (∀ te left, s.inputs.bus = .err te left → rdConf q s = .next
      { s with
        result := ⟨1, te.code, none, none, none, none⟩
        phase  := .done
        hist   := s.hist ++ [.rd s.params.addrConf 2 (.err te)] }) ∧
    (s.inputs.bus = .ok → rdConf q s = .next
      { s with
        internal := { s.internal with cur := s.sensor.conf }
        phase    := q
        hist     := s.hist ++ [.rd s.params.addrConf 2 (.ok (beBytes16 s.sensor.conf))] }) := by
  refine ⟨readPhase_pending, fun _ _ hb => readPhase_err hb, fun hb => ?_⟩
  rw [rdConf, readPhase_ok hb]
  simp [regBytes, regAddr, regLen, setPhase, setCur, record]

/-- RD_STATUS (rules R24, R26, R56). -/
theorem rdStatus_rows (q : Phase) (s : State) :
    (s.inputs.bus = .pending → rdStatus q s = .next s) ∧
    (∀ te left, s.inputs.bus = .err te left → rdStatus q s = .next
      { s with
        result := ⟨1, te.code, none, none, none, none⟩
        phase  := .done
        hist   := s.hist ++ [.rd s.params.addrStatus 1 (.err te)] }) ∧
    (s.inputs.bus = .ok → rdStatus q s = .next
      { s with
        internal := { s.internal with sb := s.sensor.status }
        phase    := q
        hist     := s.hist ++ [.rd s.params.addrStatus 1 (.ok [s.sensor.status])] }) :=
  ⟨readPhase_pending, fun _ _ hb => readPhase_err hb, readPhase_ok⟩

/-- RD_ZMCO (rules R24, R26, R56, R97), up to what follows the read. -/
theorem rdZmco_rows (go : BitVec 2 → State → State) (s : State) :
    (s.inputs.bus = .pending → rdZmco go s = .next s) ∧
    (∀ te left, s.inputs.bus = .err te left → rdZmco go s = .next
      { s with
        result := ⟨1, te.code, none, none, none, none⟩
        phase  := .done
        hist   := s.hist ++ [.rd s.params.addrZmco 1 (.err te)] }) ∧
    (s.inputs.bus = .ok → rdZmco go s = .next (go (s.sensor.zmco.extractLsb' s.params.zmcoLsb 2)
      { s with
        internal := { s.internal with z := s.sensor.zmco.extractLsb' s.params.zmcoLsb 2 }
        hist     := s.hist ++ [.rd s.params.addrZmco 1 (.ok [s.sensor.zmco])] })) := by
  refine ⟨readPhase_pending, fun _ _ hb => readPhase_err hb, fun hb => ?_⟩
  rw [rdZmco, readPhase_ok hb, ← mask2_eq]
  rfl

/-- WR_BURN (rules R58, R162, R163, R170, R173). -/
theorem wrBurn_rows (cmd : Byte) (s : State) :
    (s.inputs.bus = .pending → wrBurn cmd s = .next s) ∧
    (∀ te left, s.inputs.bus = .err te left → wrBurn cmd s = .next
      { s with
        result := ⟨1, te.code, none, none, none, none⟩
        phase  := .done
        sensor := { s.sensor with burn := left.setWidth 8 }
        hist   := s.hist ++ [.wr s.params.addrBurn [cmd] (.err te)] }) ∧
    (s.inputs.bus = .ok → wrBurn cmd s = .next
      { s with
        phase  := .settle
        sensor := { s.sensor with burn := cmd }
        hist   := s.hist ++ [.wr s.params.addrBurn [cmd] .ok] }) := by
  refine ⟨wrBurn_pending cmd, fun _ _ hb => wrBurn_err cmd hb, fun hb => ?_⟩
  rw [wrBurn_ok cmd hb, storeReg, record, regStore_burn, setPhase]

/-- SETTLE (rules R167, R200). -/
theorem settleDelay_rows (s : State) :
    (s.inputs.delayDone = false → settleDelay s = .next s) ∧
    (s.inputs.delayDone = true → settleDelay s = .next
      { s with
        result := ⟨0, 0, none, none, none, none⟩
        phase  := .done
        hist   := s.hist ++ [.dl 1] }) :=
  ⟨settleDelay_waits, settleDelay_returns⟩

/-! ### The codec -/

/-- decode fails where the bits of `outs` are 3 (rules R87, R121). -/
theorem decodeConf_eq_error {L : ConfLayout} {v : Word} (h : v.extractLsb' L.outs.lo 2 = 3#2) :
    decodeConf L v = .error (.codecBitPattern .outs 3) := by
  simp only [decodeConf, extractBits_eq, h]
  rfl

/-- Settles O16: RD_CONF is `rdConf`, and EXEC decodes the word latched. -/
theorem configOperation : Obligations.ConfigOperation := by
  unfold Obligations.ConfigOperation
  intro s
  constructor
  · intro hp
    have he : exec .config s = rdConf .exec s := by simp [exec, execConfig, hp]
    rw [he]
    exact rdConf_rows .exec s
  · intro hp
    have he : exec .config s =
        .next (endDecoded (decodeConf s.params.confLayout s.internal.cur) s) := by
      simp [exec, execConfig, hp]
    rw [he]
    refine ⟨fun h => ?_, fun c h => ?_⟩
    · rw [decodeConf_eq_error h]; rfl
    · rw [decodeConf_eq_ok.2 h]; rfl

/-! ### The merged word (rules R82, R120, R122, R123) -/

theorem extractBits_or (lo w : Nat) (a b : Word) :
    extractBits lo w (a ||| b) = extractBits lo w a ||| extractBits lo w b := by
  ext i _; simp [extractBits]

/-- A field is read back from where it was inserted. -/
theorem extractBits_insertBits {lo w : Nat} (h : lo + w ≤ 16) (n : BitVec w) :
    extractBits lo w (insertBits lo w n) = n := by
  ext i hi
  have h16 : lo + i < 16 := by omega
  simp [← BitVec.getLsbD_eq_getElem, getLsbD_extractBits, getLsbD_insertBits, hi, h16]

/-- Nothing of it is read from a range that shares no bit with it. -/
theorem extractBits_insertBits_disjoint {lo w lo' w' : Nat} (h : lo + w ≤ lo' ∨ lo' + w' ≤ lo)
    (n : BitVec w') : extractBits lo w (insertBits lo' w' n) = 0 := by
  ext i hi
  rw [← BitVec.getLsbD_eq_getElem, getLsbD_extractBits, getLsbD_insertBits]
  rcases h with h | h
  · have hlo : ¬ lo' ≤ lo + i := by omega
    simp [hlo]
  · have hw : w' ≤ lo + i - lo' := by omega
    simp [BitVec.getLsbD_of_ge n _ hw]

/-- The factory bits lie above the codec's. -/
theorem extractBits_factoryMask {lo w : Nat} (h : lo + w ≤ 14) (v : Word) :
    extractBits lo w (v &&& factoryMask) = 0 := by
  have hmask : ∀ j < 14, factoryMask.getLsbD j = false := by decide
  ext i hi
  rw [← BitVec.getLsbD_eq_getElem, getLsbD_extractBits]
  simp [hmask (lo + i) (by omega)]

/-- The ranges of a well-formed layout lie in bits 13:0. -/
theorem range_le {L : ConfLayout} (h : L.wellFormed = true) (f : Field) :
    (L.range f).lo + f.width ≤ 14 := by
  have := ConfLayout_wellFormed_fits h f
  omega

theorem range_disjoint {L : ConfLayout} (h : L.wellFormed = true) {f g : Field} (hfg : f ≠ g) :
    (L.range f).lo + f.width ≤ (L.range g).lo ∨ (L.range g).lo + g.width ≤ (L.range f).lo := by
  have := ConfLayout_wellFormed_disjoint h hfg
  have := ConfLayout_wellFormed_fits h f
  have := ConfLayout_wellFormed_fits h g
  omega

/-- The discriminant of a field of a Configuration. -/
def discOf (c : Configuration) : (f : Field) → BitVec f.width
  | .pm   => powerModeDisc c.pm
  | .hyst => hysteresisDisc c.hyst
  | .outs => outputStageDisc c.outs
  | .pwmf => pwmFrequencyDisc c.pwmf
  | .sf   => slowFilterDisc c.sf
  | .fth  => fastFilterDisc c.fth
  | .wd   => watchdogDisc c.wd

/-- A field of a Configuration in its place in the word. -/
def fieldBits (L : ConfLayout) (c : Configuration) (f : Field) : Word :=
  insertBits (L.range f).lo f.width (discOf c f)

theorem encodeConf_eq (L : ConfLayout) (c : Configuration) : encodeConf L c =
    fieldBits L c .pm ||| fieldBits L c .hyst ||| fieldBits L c .outs ||| fieldBits L c .pwmf |||
      fieldBits L c .sf ||| fieldBits L c .fth ||| fieldBits L c .wd := rfl

section
variable {L : ConfLayout} (h : L.wellFormed = true)
include h

/-- The encoding holds each discriminant in its field's range. -/
theorem extractBits_encodeConf (c : Configuration) (f : Field) :
    extractBits (L.range f).lo f.width (encodeConf L c) = discOf c f := by
  have same : extractBits (L.range f).lo f.width (fieldBits L c f) = discOf c f :=
    extractBits_insertBits (by have := range_le h f; omega) _
  have other : ∀ g, f ≠ g → extractBits (L.range f).lo f.width (fieldBits L c g) = 0 :=
    fun g hfg => extractBits_insertBits_disjoint (range_disjoint h hfg) _
  simp only [encodeConf_eq, extractBits_or]
  cases f <;> simp [same, other]

/-- The merge carries the Configuration (rules R81, R123). -/
theorem carries_mergeConf (cur : Word) (c : Configuration) : carries L (mergeConf L cur c) c := by
  have key (f : Field) : discOf c f = extractBits (L.range f).lo f.width (mergeConf L cur c) := by
    rw [mergeConf, extractBits_or, extractBits_factoryMask (range_le h f),
      extractBits_encodeConf h]
    simp
  simp only [carries, cfgRecOf, CfgRec.mk.injEq, ← extractBits_eq]
  exact ⟨key .pm, key .hyst, key .outs, key .pwmf, key .sf, key .fth, key .wd⟩

/-- The merge keeps the top two bits of the word observed (rules R123, R128). -/
theorem mergeConf_top (cur : Word) (c : Configuration) :
    (mergeConf L cur c).extractLsb' 14 2 = cur.extractLsb' 14 2 := by
  have hfield (f : Field) : extractBits 14 2 (fieldBits L c f) = 0 :=
    extractBits_insertBits_disjoint (.inr (range_le h f)) _
  have hcur : extractBits 14 2 (cur &&& factoryMask) = extractBits 14 2 cur := by
    have hmask : ∀ i < 2, factoryMask.getLsbD (14 + i) = true := by decide
    ext i hi
    simp [← BitVec.getLsbD_eq_getElem, getLsbD_extractBits, hmask i hi]
  simp only [← extractBits_eq, mergeConf, encodeConf_eq, extractBits_or, hfield, hcur]
  simp

end

/-- The write of WR_CONF (rules R57, R58, R125). -/
theorem writeConf_rows (v : Word) (s : State) :
    (s.inputs.bus = .pending → writePhase .conf v (endRaw v) s = .next s) ∧
    (∀ te left, s.inputs.bus = .err te left → writePhase .conf v (endRaw v) s = .next
      { s with
        result := ⟨1, te.code, none, none, none, none⟩
        phase  := .done
        sensor := { s.sensor with conf := left }
        hist   := s.hist ++ [.wr s.params.addrConf (beBytes16 v) (.err te)] }) ∧
    (s.inputs.bus = .ok → writePhase .conf v (endRaw v) s = .next
      { s with
        result := ⟨0, 0, some v, none, none, none⟩
        phase  := .done
        sensor := { s.sensor with conf := v }
        hist   := s.hist ++ [.wr s.params.addrConf (beBytes16 v) .ok] }) :=
  ⟨writePhase_pending, fun _ _ hb => writePhase_err hb, writePhase_ok⟩

/-- Settles O17: RD_CONF is `rdConf`, and WR_CONF writes the merge of `cur_lat` and `cfg_lat`. -/
theorem setConfigOperation : Obligations.SetConfigOperation := by
  unfold Obligations.SetConfigOperation
  refine fun s => ⟨fun hp => ?_, fun hp => by simp [exec, execSetConfig, hp, setPhase],
    fun c hw hp hc => ?_⟩
  · have he : exec .setConfig s = rdConf .exec s := by simp [exec, execSetConfig, hp]
    rw [he]
    exact rdConf_rows .exec s
  · have hv : mergedWord s = some (mergeConf s.params.confLayout s.internal.cur c) := by
      simp [mergedWord, hc]
    have he : exec .setConfig s = writePhase .conf (mergeConf s.params.confLayout s.internal.cur c)
        (endRaw (mergeConf s.params.confLayout s.internal.cur c)) s := by
      simp [exec, execSetConfig, hp, hv]
    rw [he]
    exact ⟨_, carries_mergeConf hw _ c, mergeConf_top hw _ c, writeConf_rows _ s⟩

/-! ### The status decoder (rules R95, R140) -/

/-- The patterns of a well-formed layout are distinct (rule R95). -/
theorem pattern_injective {L : StatusLayout} (h : L.wellFormed = true) {m m' : Status}
    (he : L.pattern m = L.pattern m') : m = m' := by
  have hn : [L.pNone, L.pDet, L.pStrong, L.pWeak].Nodup := by
    simp only [StatusLayout.wellFormed, Bool.and_eq_true, decide_eq_true_eq] at h
    exact h.2
  cases m <;> cases m' <;> simp_all [StatusLayout.pattern]

/-- The member answered is one whose pattern the masked bits are. -/
theorem pattern_of_statusDecode {L : StatusLayout} {b : Byte} {m : Status}
    (h : statusDecode L b = .ok m) : b &&& L.smask = L.pattern m := by
  unfold statusDecode at h
  split_ifs at h with hn hd hs hw <;> cases h <;> assumption

theorem statusDecode_eq_error {L : StatusLayout} {b : Byte}
    (h : ∀ m, b &&& L.smask ≠ L.pattern m) : statusDecode L b = .error (.statusBitPattern b) := by
  cases hd : statusDecode L b with
  | ok m    => exact absurd (pattern_of_statusDecode hd) (h m)
  | error e => rw [statusDecode_error hd]

theorem ne_pattern_of_statusDecode {L : StatusLayout} {b : Byte} {e : BlockError}
    (h : statusDecode L b = .error e) (m : Status) : b &&& L.smask ≠ L.pattern m := by
  unfold statusDecode at h
  split_ifs at h
  cases m <;> assumption

/-- Under distinct patterns there is one such member, and it is answered. -/
theorem statusDecode_eq_ok {L : StatusLayout} (h : L.wellFormed = true) {b : Byte} {m : Status}
    (hm : b &&& L.smask = L.pattern m) : statusDecode L b = .ok m := by
  cases hd : statusDecode L b with
  | ok m'   => rw [pattern_injective h ((pattern_of_statusDecode hd).symm.trans hm)]
  | error e => exact absurd hm (ne_pattern_of_statusDecode hd m)

/-- Settles O19: RD_STATUS is `rdStatus`, and EXEC decodes the byte latched. -/
theorem magnetStatusOperation : Obligations.MagnetStatusOperation := by
  unfold Obligations.MagnetStatusOperation
  refine fun s => ⟨fun hp => ?_, fun hw hp => ?_⟩
  · have he : exec .magnetStatus s = rdStatus .exec s := by simp [exec, execMagnetStatus, hp]
    rw [he]
    exact rdStatus_rows .exec s
  · have he : exec .magnetStatus s =
        .next (endStatusDecoded (statusDecode s.params.statusLayout s.internal.sb) s) := by
      simp [exec, execMagnetStatus, hp]
    rw [he]
    refine ⟨fun m hm => ?_, fun hm => ?_⟩
    · rw [statusDecode_eq_ok hw hm]; rfl
    · rw [statusDecode_eq_error hm]; rfl

/-- Settles O20: RD_ZMCO is `rdZmco`, which ends with the counter. -/
theorem zmcoOperation : Obligations.ZmcoOperation := by
  unfold Obligations.ZmcoOperation
  intro s hp
  have he : exec .zmco s = rdZmco endZmco s := by simp [exec, execZmco, hp]
  rw [he]
  exact rdZmco_rows endZmco s

/-! ### The burns -/

/-- Settles O23: each phase by the operation it runs. -/
theorem burnMangConfigPhases : Obligations.BurnMangConfigPhases := by
  unfold Obligations.BurnMangConfigPhases
  refine fun s => ⟨fun hp => ?_, fun hp => ?_, fun hp => ?_, fun hp => ?_, fun hp => ?_⟩
  · have he : exec .burnMangConfig s = rdZmco (fun _ t => setPhase .chkCnt t) s := by
      simp [exec, execBurnMangConfig, hp]
    rw [he]
    exact rdZmco_rows _ s
  · have he : exec .burnMangConfig s =
        .next (checkPhase (checkMangConfig s.internal.z) .wrBurn s) := by
      simp [exec, execBurnMangConfig, hp]
    rw [he]
    refine ⟨fun hz => ?_, fun hz => ?_⟩
    · rw [(checkMangConfig_ok _).2 hz]; rfl
    · rw [checkMangConfig, if_pos hz]; rfl
  · have he : exec .burnMangConfig s = wrBurn 0x40#8 s := by
      simp [exec, execBurnMangConfig, hp, cmdMangConfigByte]
    rw [he]
    exact wrBurn_rows _ s
  · have he : exec .burnMangConfig s = settleDelay s := by simp [exec, execBurnMangConfig, hp]
    rw [he]
    exact settleDelay_rows s
  · simp [exec, execBurnMangConfig, hp, finish, setPhase]

/-- CHK_MAG's verdict by the member the byte decodes to. -/
theorem magnetVerdict_of_decode {L : StatusLayout} {b : Byte} {m : Status}
    (h : statusDecode L b = .ok m) : magnetVerdict L b = checkPositionMagnet m := by
  simp [magnetVerdict, h]

/-- Settles O24: each phase by the operation it runs. -/
theorem burnPositionPhases : Obligations.BurnPositionPhases := by
  unfold Obligations.BurnPositionPhases
  refine fun s => ⟨fun hp => ?_, fun hp => ?_, fun hp => ?_, fun hw hp => ?_, fun hp => ?_,
    fun hp => ?_, fun hp => ?_⟩
  · have he : exec .burnPosition s = rdZmco (fun _ t => setPhase .chkCnt t) s := by
      simp [exec, execBurnPosition, hp]
    rw [he]
    exact rdZmco_rows _ s
  · have he : exec .burnPosition s =
        .next (checkPhase (checkPositionCounter s.internal.z) .rdStatus s) := by
      simp [exec, execBurnPosition, hp]
    rw [he]
    refine ⟨fun hz => ?_, fun hz => ?_⟩
    · rw [(checkPositionCounter_ok _).2 hz]; rfl
    · rw [hz]; rfl
  · have he : exec .burnPosition s = rdStatus .chkMag s := by simp [exec, execBurnPosition, hp]
    rw [he]
    exact rdStatus_rows .chkMag s
  · have he : exec .burnPosition s =
        .next (checkPhase (magnetVerdict s.params.statusLayout s.internal.sb) .wrBurn s) := by
      simp [exec, execBurnPosition, hp]
    rw [he]
    refine ⟨fun hm => ?_, fun m hne hm => ?_, fun hm => ?_⟩
    · rw [magnetVerdict_of_decode (statusDecode_eq_ok (m := .magnetDetected) hw hm)]; rfl
    · rw [magnetVerdict_of_decode (statusDecode_eq_ok hw hm), checkPositionMagnet,
        if_neg (by simpa [isDetected] using hne)]
      rfl
    · rw [magnetVerdict, statusDecode_eq_error hm]; rfl
  · have he : exec .burnPosition s = wrBurn 0x80#8 s := by
      simp [exec, execBurnPosition, hp, cmdPositionByte]
    rw [he]
    exact wrBurn_rows _ s
  · have he : exec .burnPosition s = settleDelay s := by simp [exec, execBurnPosition, hp]
    rw [he]
    exact settleDelay_rows s
  · simp [exec, execBurnPosition, hp, finish, setPhase]

end Sys2Proof.Proofs
end

section
/-! What every step leaves unchanged and what it appends to `hist` (rules R24 to R28, R36, R37, R42,
R54, R98, R148, R190, R200): the frame of the moves, and the event as the answer to a request. -/

namespace Sys2Proof.Proofs

open Sys2Proof.Machine Sys2Proof.Safety

/-! ### The frame of a move -/

theorem BlockMove_latches {i : Instr} {s u : State} (h : BlockMove i s u) (hp : s.phase ≠ .idle) :
    u.latches = s.latches := by
  cases h
  case start hi _ => exact absurd hi hp
  case illegalOperand hi _ => exact absurd hi hp
  all_goals rfl

/-- The results change only at the start and at the end of an operation. -/
theorem BlockMove_result {i : Instr} {s u : State} (h : BlockMove i s u) (hp : s.phase ≠ .idle)
    (hd : u.phase ≠ .done) : u.result = s.result := by
  cases h
  case start hi _ => exact absurd hi hp
  case finish => rfl
  case wait => rfl
  case readConf => rfl
  case readStatus => rfl
  case readCounter => rfl
  case toWrConf => rfl
  case mangPasses => rfl
  case counterPasses => rfl
  case magnetPasses => rfl
  case writesBurn => rfl
  all_goals exact absurd rfl hd

/-- CONF is written in WR_CONF alone, BURN in WR_BURN alone, ZMCO and STATUS never. -/
theorem BlockMove_sensor {i : Instr} {s u : State} (h : BlockMove i s u) :
    (s.phase ≠ .wrConf → u.sensor.conf = s.sensor.conf) ∧
    (s.phase ≠ .wrBurn → u.sensor.burn = s.sensor.burn) ∧
    u.sensor.zmco = s.sensor.zmco ∧ u.sensor.status = s.sensor.status := by
  cases h
  case writesConf hp _ _ _ => exact ⟨fun h => absurd hp h, fun _ => rfl, rfl, rfl⟩
  case confWriteFails hp _ _ _ => exact ⟨fun h => absurd hp h, fun _ => rfl, rfl, rfl⟩
  case writesBurn hp _ _ => exact ⟨fun _ => rfl, fun h => absurd hp h, rfl, rfl⟩
  case burnWriteFails hp _ _ => exact ⟨fun _ => rfl, fun h => absurd hp h, rfl, rfl⟩
  all_goals exact ⟨fun _ => rfl, fun _ => rfl, rfl, rfl⟩

theorem latchRead_cur {s : State} (h : s.phase ≠ .rdConf) (n : InternalLatches) :
    (latchRead s n).cur = n.cur := by
  unfold latchRead
  split <;> simp_all

theorem latchRead_z {s : State} (h : s.phase ≠ .rdZmco) (n : InternalLatches) :
    (latchRead s n).z = n.z := by
  unfold latchRead
  split <;> simp_all

theorem latchRead_sb {s : State} (h : s.phase ≠ .rdStatus) (n : InternalLatches) :
    (latchRead s n).sb = n.sb := by
  unfold latchRead
  split <;> simp_all

/-- No event in a phase without a collaborator. -/
theorem BlockMove_hist_of_phase {i : Instr} {s u : State} (h : BlockMove i s u)
    (hp : s.phase ∈ [Phase.idle, .exec, .chkCnt, .chkMag, .done]) : u.hist = s.hist := by
  rcases BlockMove_hist h with ⟨hu, -⟩ | ⟨e, he, -⟩
  · exact hu
  · cases he with
    | read r out hr => revert hp hr; cases s.phase <;> simp
    | writeConf v out hw => simp [hw] at hp
    | writeBurn cmd out hw => simp [hw] at hp
    | delay hs => simp [hs] at hp

/-- Settles O34: the frame of each move. -/
theorem instructionFrame : Obligations.InstructionFrame := by
  unfold Obligations.InstructionFrame
  intro i s t h
  have hm := exec_move h
  obtain ⟨hparams, hdev⟩ := BlockMove_constants hm
  obtain ⟨hin, hfut⟩ := BlockMove_inputs hm
  have hint := BlockMove_internal hm
  obtain ⟨hconf, hburn, hzmco, hstatus⟩ := BlockMove_sensor hm
  exact ⟨hparams, hdev, hin, hfut, BlockMove_latches hm,
    fun hp => by rw [hint, latchRead_cur hp], fun hp => by rw [hint, latchRead_z hp],
    fun hp => by rw [hint, latchRead_sb hp], BlockMove_result hm, hconf, hburn, hzmco, hstatus,
    BlockMove_hist_of_phase hm⟩

/-! ### The event of a step -/

/-- A step keeps `hist` or appends the event of the move it makes. -/
theorem step_hist {s t : State} (h : step s = .next t) : t.hist = s.hist ∨
    ∃ i u e, s.inputs.ports.rst = false ∧ runs s i ∧ BlockMove i s u ∧ MoveEvent i s u e ∧
      u.hist = s.hist ++ [e] ∧ t.hist = u.hist := by
  obtain ⟨u, rfl, hu⟩ := step_cases h
  rw [environmentMove_hist]
  rcases hu with ⟨-, rfl⟩ | ⟨hr, ⟨-, -, rfl⟩ | ⟨-, rfl⟩ | ⟨-, -, -, rfl⟩ | ⟨i, hri, hm⟩⟩
  case inr.inr.inr.inr =>
    rcases BlockMove_hist hm with ⟨hu, -⟩ | ⟨e, he, hu⟩
    · exact .inl hu
    · exact .inr ⟨i, u, e, hr, hri, hm, he, hu, rfl⟩
  all_goals exact .inl rfl

/-- Settles O35: by the event of a step. -/
theorem historyOnlyGrows : Obligations.HistoryOnlyGrows := by
  unfold Obligations.HistoryOnlyGrows
  refine ⟨rfl, fun s t h => ?_⟩
  rcases step_hist h with h | ⟨-, u, e, -, -, -, -, hu, ht⟩
  · exact .inl h
  · exact .inr ⟨e, ht.trans hu⟩

/-- The move behind an event that a step appended. -/
theorem step_event {s t : State} {e : Event} (h : step s = .next t) (ht : t.hist = s.hist ++ [e]) :
    ∃ i u, s.inputs.ports.rst = false ∧ runs s i ∧ BlockMove i s u ∧ MoveEvent i s u e ∧
      u.hist = s.hist ++ [e] := by
  rcases step_hist h with hs | ⟨i, u, e', hr, hri, hm, he, hu, htu⟩
  · simp [hs] at ht
  · have hee : e' = e := by simpa [htu, hu] using ht
    subst hee
    exact ⟨i, u, hr, hri, hm, he, hu⟩

/-! ### Every event answers a request (rules R32, R33, R54, R56, R57, R200) -/

/-- A read's event, whatever its outcome: on Ok the bytes are as many as were asked for. -/
theorem eventAnswers_readRequest (s : State) (r : Reg) {out : ReadOutcome}
    (h : ∀ bs, out = .ok bs → bs = regBytes s.sensor r) :
    eventAnswers (readRequest s r) (.rd (regAddr s.params r) (regLen r) out) :=
  ⟨rfl, rfl, fun bs hbs => by rw [h bs hbs]; exact regBytes_length s.sensor r⟩

theorem eventAnswers_writeRequest (s : State) (r : Reg) (v : Word) (out : WriteOutcome) :
    eventAnswers (writeRequest s r v) (.wr (regAddr s.params r) (regPayload v r) out) := rfl

/-- In WR_BURN the command byte that a move writes is the one the sequencer puts out. -/
theorem burnCommand_of_runs {s : State} {i : Instr} {cmd : Byte} (hr : runs s i)
    (hp : s.phase = .wrBurn)
    (hi : ((i = .burnMangConfig ∨ i = .cmdBurnMangConfig) ∧ cmd = cmdMangConfigByte) ∨
      ((i = .burnPosition ∨ i = .cmdBurnPosition) ∧ cmd = cmdPositionByte)) :
    burnCommand s.latches.op = some cmd := by
  rw [burnCommand_eq]
  rcases hr with ⟨h, -⟩ | ⟨-, -, h, -⟩ | ⟨-, hop, rfl⟩ | ⟨-, hop, rfl⟩ | ⟨-, hb, hc, hd⟩
  · rw [hp] at h; cases h
  · exact absurd hp h
  · simp_all
  · simp_all
  · obtain ⟨ho, henc⟩ := decodeWord_opsel_isOperation hd
    rcases hi with ⟨rfl | rfl, -⟩ | ⟨rfl | rfl, -⟩
    · exact absurd (InstrWord.opsel.inj henc).symm hb
    · cases ho
    · exact absurd (InstrWord.opsel.inj henc).symm hc
    · cases ho

section
variable {s : State} (hr : s.inputs.ports.rst = false)
include hr

theorem busRequest_rdConf (hp : s.phase = .rdConf) : busRequest s = some (readRequest s .conf) := by
  simp [busRequest, hr, hp]

theorem busRequest_rdStatus (hp : s.phase = .rdStatus) :
    busRequest s = some (readRequest s .status) := by
  simp [busRequest, hr, hp]

theorem busRequest_rdZmco (hp : s.phase = .rdZmco) : busRequest s = some (readRequest s .zmco) := by
  simp [busRequest, hr, hp]

theorem busRequest_wrConf {v : Word} (hp : s.phase = .wrConf) (hv : mergedWord s = some v) :
    busRequest s = some (writeRequest s .conf v) := by
  simp [busRequest, hr, hp, hv]

theorem busRequest_wrBurn {cmd : Byte} (hp : s.phase = .wrBurn)
    (hc : burnCommand s.latches.op = some cmd) :
    busRequest s = some (writeRequest s .burn (cmd.setWidth 16)) := by
  simp [busRequest, hr, hp, hc]

theorem delayRequest_settle (hp : s.phase = .settle) : delayRequest s = some burnSettleMs := by
  simp [delayRequest, hr, hp]

/-- The event a move appends answers the request of its phase. -/
theorem BlockMove_answers {i : Instr} {u : State} {e : Event} (h : BlockMove i s u)
    (hri : runs s i) (hu : u.hist = s.hist ++ [e]) :
    (∃ q, busRequest s = some q ∧ eventAnswers q e) ∨ ∃ k, delayRequest s = some k ∧ e = .dl k := by
  have event {e' : Event} (h' : u.hist = s.hist ++ [e']) : e = e' := by simpa [hu] using h'
  cases h
  case readFails r te left hp hb =>
    rw [event rfl]
    have ha := eventAnswers_readRequest s r (out := .err te) (by simp)
    rcases hp with ⟨hp, rfl, -⟩ | ⟨hp, rfl, -⟩ | ⟨hp, rfl, -⟩
    · exact .inl ⟨_, busRequest_rdConf hr hp, ha⟩
    · exact .inl ⟨_, busRequest_rdStatus hr hp, ha⟩
    · exact .inl ⟨_, busRequest_rdZmco hr hp, ha⟩
  case readConf hp hi hb =>
    rw [event rfl]
    exact .inl ⟨_, busRequest_rdConf hr hp, eventAnswers_readRequest s .conf (by simp [regBytes])⟩
  case readStatus p hp hi hb =>
    rw [event rfl]
    exact .inl ⟨_, busRequest_rdStatus hr hp,
      eventAnswers_readRequest s .status (by simp [regBytes])⟩
  case readCounter hp hi hb =>
    rw [event rfl]
    exact .inl ⟨_, busRequest_rdZmco hr hp, eventAnswers_readRequest s .zmco (by simp [regBytes])⟩
  case readZmco hp hi hb =>
    rw [event rfl]
    exact .inl ⟨_, busRequest_rdZmco hr hp, eventAnswers_readRequest s .zmco (by simp [regBytes])⟩
  case writesConf v hp hi hv hb =>
    rw [event rfl]
    exact .inl ⟨_, busRequest_wrConf hr hp hv, eventAnswers_writeRequest s .conf v _⟩
  case confWriteFails v te left hp hi hv hb =>
    rw [event rfl]
    exact .inl ⟨_, busRequest_wrConf hr hp hv, eventAnswers_writeRequest s .conf v _⟩
  case writesBurn cmd hp hi hb =>
    rw [event rfl, ← regPayload_burn cmd]
    exact .inl ⟨_, busRequest_wrBurn hr hp (burnCommand_of_runs hri hp hi),
      eventAnswers_writeRequest s .burn _ _⟩
  case burnWriteFails cmd te left hp hi hb =>
    rw [event rfl, ← regPayload_burn cmd]
    exact .inl ⟨_, busRequest_wrBurn hr hp (burnCommand_of_runs hri hp hi),
      eventAnswers_writeRequest s .burn _ _⟩
  case settles hp hi hd =>
    rw [event rfl]
    exact .inr ⟨_, delayRequest_settle hr hp, rfl⟩
  -- the other moves append no event
  all_goals simp [startOp] at hu

end

/-- Every request goes to `dev_addr` (rule R21). -/
theorem requestDevice_eq {s : State} {q : BusRequest} (h : busRequest s = some q) :
    requestDevice q = s.devAddr := by
  unfold busRequest at h
  split_ifs at h
  split at h
  case h_4 | h_5 =>
    obtain ⟨_, -, rfl⟩ := Option.map_eq_some_iff.1 h
    rfl
  case h_1 | h_2 | h_3 =>
    cases h
    rfl
  all_goals cases h

/-- Settles O36: by the move behind the event. -/
theorem eventAnswersRequest : Obligations.EventAnswersRequest := by
  unfold Obligations.EventAnswersRequest
  refine ⟨fun s q => requestDevice_eq, fun s t e h ht => ?_⟩
  obtain ⟨i, u, hr, hri, hm, -, hu⟩ := step_event h ht
  exact BlockMove_answers hr hm hri hu

/-! ### What is written (rules R36, R37, R54, R98, R122, R148) -/

/-- The four registers have four addresses (rule R7). -/
theorem addresses_nodup {p : Params} (h : p.wellFormed = true) :
    [p.addrZmco, p.addrConf, p.addrStatus, p.addrBurn].Nodup := by
  simp only [Params.wellFormed, Bool.and_eq_true, decide_eq_true_eq] at h
  obtain ⟨⟨⟨⟨⟨-, hn⟩, -⟩, -⟩, -⟩, -⟩ := h
  exact hn

theorem confLayout_wellFormed {p : Params} (h : p.wellFormed = true) :
    p.confLayout.wellFormed = true := by
  simp only [Params.wellFormed, Bool.and_eq_true] at h
  obtain ⟨⟨⟨⟨⟨⟨⟨hc, -⟩, -⟩, -⟩, -⟩, -⟩, -⟩, -⟩ := h
  exact hc

/-- A write that a step appends is the merged word to CONF or a command byte to BURN. -/
theorem step_write {s t : State} {a : Byte} {payload : List Byte} {out : WriteOutcome}
    (h : step s = .next t) (ht : t.hist = s.hist ++ [.wr a payload out]) :
    (a = s.params.addrConf ∧ ∃ c, payload =
      beBytes16 (mergeConf s.params.confLayout s.internal.cur c)) ∨
    (a = s.params.addrBurn ∧ (payload = [0x40#8] ∨ payload = [0x80#8])) := by
  obtain ⟨i, u, -, -, -, he, -⟩ := step_event h ht
  generalize hx : Event.wr a payload out = x at he
  cases he with
  | read => cases hx
  | delay => cases hx
  | writeConf v out hp hi hv =>
    cases hx
    obtain ⟨c, rfl⟩ := mergedWord_eq_some hv
    exact .inl ⟨rfl, c, rfl⟩
  | writeBurn cmd out hp hi =>
    cases hx
    rcases hi with ⟨-, rfl⟩ | ⟨-, rfl⟩
    · exact .inr ⟨rfl, .inl rfl⟩
    · exact .inr ⟨rfl, .inr rfl⟩

/-- Settles O37: by the write a step appends, the four addresses being distinct. -/
theorem onlyConfAndBurnWritten : Obligations.OnlyConfAndBurnWritten := by
  unfold Obligations.OnlyConfAndBurnWritten
  intro s t a payload out hw h ht
  have hn := addresses_nodup hw
  simp only [List.nodup_cons, List.mem_cons, List.not_mem_nil, or_false, not_or] at hn
  obtain ⟨⟨hzc, -, hzb⟩, ⟨hcs, -⟩, hsb, -⟩ := hn
  rcases step_write h ht with ⟨rfl, c, rfl⟩ | ⟨rfl, hcmd⟩
  · exact ⟨Ne.symm hzc, hcs, .inl ⟨rfl, rfl⟩⟩
  · exact ⟨Ne.symm hzb, Ne.symm hsb, .inr ⟨rfl, hcmd⟩⟩

/-- No Configuration's word has `outs = 0b11` (rules R87, R122). -/
theorem outs_ne_of_carries {L : ConfLayout} {v : Word} {c : Configuration} (h : carries L v c) :
    v.extractLsb' L.outs.lo 2 ≠ 3#2 := by
  have houts : outputStageDisc c.outs = v.extractLsb' L.outs.lo 2 := congrArg CfgRec.outs h
  rw [← houts]
  cases c.outs <;> decide

/-- Settles O38: the word written is a merge, which carries a Configuration. -/
theorem invalidStageNeverWritten : Obligations.InvalidStageNeverWritten := by
  unfold Obligations.InvalidStageNeverWritten
  intro s t h l out hw hst ht
  rcases step_write hst ht with ⟨-, c, hv⟩ | ⟨ha, -⟩
  · have hword : be16 h l = mergeConf s.params.confLayout s.internal.cur c := by
      rw [← wordOfBytes_beBytes16 (mergeConf _ _ c), ← hv]
      rfl
    rw [hword]
    exact outs_ne_of_carries (carries_mergeConf (confLayout_wellFormed hw) _ c)
  · exact absurd ha (addrConf_ne_addrBurn hw)

/-! ### Result fields (rules R28, R100) -/

/-- `raise` leaves an error code (rule R181: code 0 is no error). -/
theorem raise_errCode_ne_zero (e : BlockError) (s : State) : (raise e s).result.errCode ≠ 0 := by
  cases e <;> simp [errorCode]

/-- The fields that hold a value after an Ok ending. -/
theorem BlockMove_okFields {i : Instr} {s u : State} (h : BlockMove i s u) (hs : s.phase ≠ .done)
    (hd : u.phase = .done) (he : u.result.errCode = 0) :
    (u.result.raw.isSome, u.result.cfg.isSome, u.result.status.isSome, u.result.zmco.isSome) =
      writesResult i := by
  cases h
  case start => revert hd; cases i <;> simp [firstPhase]
  case wait => exact absurd hd hs
  case readStatus p hp hi hb => rcases hi with ⟨-, rfl⟩ | ⟨-, rfl⟩ <;> cases hd
  case readZmco hp hi hb => subst hi; rfl
  case endsRaw v hp hi => rcases hi with rfl | rfl <;> rfl
  case endsCfg c hp hi => rcases hi with rfl | rfl <;> rfl
  case endsStatus m hp hi => rcases hi with rfl | rfl <;> rfl
  case guardPasses hp hi => rcases hi with rfl | rfl <;> rfl
  case writesConf v hp hi hv hb => subst hi; rfl
  case settles hp hi hb => rcases hi with rfl | rfl <;> rfl
  case illegalOperand => exact absurd he (raise_errCode_ne_zero _ _)
  case readFails => exact absurd he (raise_errCode_ne_zero _ _)
  case codecFails => exact absurd he (raise_errCode_ne_zero _ _)
  case statusFails => exact absurd he (raise_errCode_ne_zero _ _)
  case guardFails => exact absurd he (raise_errCode_ne_zero _ _)
  case confWriteFails => exact absurd he (raise_errCode_ne_zero _ _)
  case burnWriteFails => exact absurd he (raise_errCode_ne_zero _ _)
  all_goals cases hd

/-- Settles O40: by the moves that end an operation; an error is always taken by `raise`. -/
theorem resultFieldsByOperation : Obligations.ResultFieldsByOperation := by
  unfold Obligations.ResultFieldsByOperation
  refine ⟨fun i s t h hs hd he => BlockMove_okFields (exec_move h) hs hd he,
    fun s t h hs hd he => ?_⟩
  obtain ⟨e, v, rfl, -, -⟩ := step_error h hs hd he
  rw [environmentMove_result]
  exact ⟨rfl, rfl, rfl, rfl⟩

end Sys2Proof.Proofs
end

section
/-! Waiting and progress (rules R24, R41, R164, R170, R220, R225, R230, R233): a stuck block waits, any
other busy block goes on to a later phase, and weak fairness excludes a hang. -/

namespace Sys2Proof.Proofs

open Sys2Proof.Machine Sys2Proof.Safety

/-! ### Power-on -/

theorem legal_reset : legal State.reset = true := by decide

/-- Settles O45: the promises of any legal power-on state. -/
theorem powerOnInvariants : Obligations.PowerOnInvariants := by
  unfold Obligations.PowerOnInvariants
  obtain ⟨-, hg, hh, hf, -⟩ := promisesKept_poweredOn (s := State.reset) ⟨rfl, rfl, rfl, rfl⟩
    legal_reset ⟨rfl, by simp [State.reset]⟩
  exact ⟨hg, hh, hf⟩

/-! ### Stuck states wait (rule R233) -/

/-- A move is a wait, or in a phase without a collaborator, or the collaborator has answered. -/
theorem BlockMove_answered {i : Instr} {s u : State} (h : BlockMove i s u) :
    u = s ∨ s.phase ∈ [Phase.idle, .exec, .chkCnt, .chkMag, .done] ∨
      (s.phase = .settle ∧ s.inputs.delayDone = true) ∨
      (s.phase ≠ .settle ∧ s.inputs.bus ≠ .pending) := by
  cases h
  case wait => exact .inl rfl
  case settles hp hi hd => exact .inr (.inr (.inl ⟨hp, hd⟩))
  case readFails r te left hp hb =>
    refine .inr (.inr (.inr ⟨?_, by simp [hb]⟩))
    rcases hp with ⟨hp, -⟩ | ⟨hp, -⟩ | ⟨hp, -⟩ <;> simp [hp]
  case readConf hp hi hb => exact .inr (.inr (.inr (by simp [hp, hb])))
  case readStatus q hp hi hb => exact .inr (.inr (.inr (by simp [hp, hb])))
  case readCounter hp hi hb => exact .inr (.inr (.inr (by simp [hp, hb])))
  case readZmco hp hi hb => exact .inr (.inr (.inr (by simp [hp, hb])))
  case writesConf v hp hi hv hb => exact .inr (.inr (.inr (by simp [hp, hb])))
  case confWriteFails v te left hp hi hv hb => exact .inr (.inr (.inr (by simp [hp, hb])))
  case writesBurn cmd hp hi hb => exact .inr (.inr (.inr (by simp [hp, hb])))
  case burnWriteFails cmd te left hp hi hb => exact .inr (.inr (.inr (by simp [hp, hb])))
  case statusFails b hp =>
    exact .inr (.inl (by rcases hp with ⟨hp, -⟩ | ⟨hp, -⟩ | ⟨hp, -⟩ <;> simp [hp]))
  case guardFails e hp =>
    exact .inr (.inl (by
      rcases hp with ⟨hp, -⟩ | ⟨hp, -⟩ | ⟨hp, -⟩ | ⟨hp, -⟩ | ⟨hp, -⟩ <;> simp [hp]))
  all_goals exact .inr (.inl (by simp [*]))

/-- In a stuck state the only move is to wait. -/
theorem BlockMove_stuck {i : Instr} {s u : State} (h : BlockMove i s u) (hs : stuck s) : u = s := by
  obtain ⟨-, hw⟩ := stuck_phase hs
  rcases BlockMove_answered h with hu | hq | ⟨hq, hd⟩ | ⟨hq, hb⟩
  · exact hu
  · rcases hw with ⟨-, hp⟩ | ⟨-, hp⟩
    · revert hp hq; cases s.phase <;> simp
    · simp [hp] at hq
  · rcases hw with ⟨-, hp⟩ | ⟨⟨-, hd'⟩, -⟩
    · simp [hq] at hp
    · simp [hd] at hd'
  · rcases hw with ⟨⟨-, hb'⟩, -⟩ | ⟨-, hp⟩
    · exact absurd hb' hb
    · exact absurd hp hq

/-- A step of a stuck state changes nothing of the block (log 8). -/
theorem step_stuck {s t : State} (hs : stuck s) (h : step s = .next t) : t = environmentMove s := by
  obtain ⟨hr, hw⟩ := stuck_phase hs
  have hidle : s.phase ≠ .idle := by intro hp; simp [hp] at hw
  have hdone : s.phase ≠ .done := by intro hp; simp [hp] at hw
  obtain ⟨u, rfl, hu⟩ := step_cases h
  rcases hu with ⟨hrst, -⟩ | ⟨-, ⟨hp, -, -⟩ | ⟨hp, -⟩ | ⟨hp, -⟩ | ⟨i, -, hm⟩⟩
  · rw [hr] at hrst; cases hrst
  · exact absurd hp hidle
  · exact absurd hp hdone
  · exact absurd hp hidle
  · rw [BlockMove_stuck hm hs]

/-- From a step on from which a run is stuck, its phase is constant. -/
theorem runSteps_stuck_phase {s t : State} {n : Nat} (hn : runSteps n s = .next t)
    (hs : ∀ m, n ≤ m → ∃ u, runSteps m s = .next u ∧ stuck u) (d : Nat) :
    ∃ u, runSteps (n + d) s = .next u ∧ stuck u ∧ u.phase = t.phase := by
  induction d with
  | zero =>
    obtain ⟨u, hu, hst⟩ := hs n le_rfl
    cases hn.symm.trans hu
    exact ⟨t, hn, hst, rfl⟩
  | succ d ih =>
    obtain ⟨u, hu, hst, hp⟩ := ih
    obtain ⟨v, hv, hvs⟩ := hs (n + (d + 1)) (by omega)
    have hstep : step u = .next v := (runSteps_add_one hu).symm.trans hv
    exact ⟨v, hv, hvs, by rw [step_stuck hst hstep, environmentMove_phase, hp]⟩

/-- A run that hangs waits for one collaborator, told by the phase it hangs in, for ever; that
collaborator is not weakly fair. -/
theorem not_hangs_of_weaklyFair {s : State} (hf : weaklyFair s) : ¬ hangs s := by
  rintro ⟨n, hn⟩
  obtain ⟨t, ht, hst⟩ := hn n le_rfl
  have later {m : Nat} (hm : n ≤ m) : ∃ u, runSteps m s = .next u ∧ stuck u ∧ u.phase = t.phase := by
    obtain ⟨d, rfl⟩ := Nat.exists_eq_add_of_le hm
    exact runSteps_stuck_phase ht hn d
  rcases (stuck_phase hst).2 with ⟨-, hp⟩ | ⟨-, hp⟩
  · obtain ⟨m, hm, hfair⟩ := hf.1 n
    obtain ⟨u, hu, hus, hup⟩ := later hm
    rcases (stuck_phase hus).2 with ⟨hw, -⟩ | ⟨-, hq⟩
    · exact hfair u hu hw
    · simp [← hup, hq] at hp
  · obtain ⟨m, hm, hfair⟩ := hf.2 n
    obtain ⟨u, hu, hus, hup⟩ := later hm
    rcases (stuck_phase hus).2 with ⟨-, hq⟩ | ⟨hw, -⟩
    · simp [hup, hp] at hq
    · exact hfair u hu hw

/-- Settles O47: every legal state steps, and a hang is for ever in one phase. -/
theorem legalStatesStep : Obligations.LegalStatesStep := by
  unfold Obligations.LegalStatesStep
  exact ⟨fun s => legal_next, fun s => not_hangs_of_weaklyFair⟩

/-! ### A busy block only goes on (rules R170, R230) -/

/-- A move of a busy block is a wait, or goes on to a phase nearer DONE. -/
theorem BlockMove_wait_or_advances {i : Instr} {s u : State} (h : BlockMove i s u)
    (hd : s.phase ≠ .done) : u = s ∨ phaseRank u.phase < phaseRank s.phase := by
  have hdone : phaseRank .done < phaseRank s.phase := by
    revert hd
    cases s.phase <;> decide
  cases h
  case wait => exact .inl rfl
  case finish hp => exact absurd hp hd
  case start ho hp hc => rw [hp]; exact .inr (phaseRank_firstPhase i)
  case readStatus q hp hi hb => rcases hi with ⟨-, rfl⟩ | ⟨-, rfl⟩ <;> simp [hp, phaseRank]
  case readConf hp _ _ => simp [hp, phaseRank]
  case readCounter hp _ _ => simp [hp, phaseRank]
  case toWrConf hp _ => simp [hp, phaseRank]
  case mangPasses hp _ _ => simp [hp, phaseRank]
  case counterPasses hp _ _ => simp [hp, phaseRank]
  case magnetPasses hp _ _ => simp [hp, phaseRank]
  case writesBurn hp _ _ => simp [hp, phaseRank]
  all_goals exact .inr hdone

/-- Settles O51: by the moves, of which a stuck state has none but the wait. -/
theorem phasesOnlyAdvance : Obligations.PhasesOnlyAdvance := by
  unfold Obligations.PhasesOnlyAdvance
  constructor
  · intro s t hl hr hi hd h
    obtain ⟨u, rfl, hu⟩ := step_cases h
    rcases hu with ⟨hrst, -⟩ | ⟨-, ⟨hp, -, -⟩ | ⟨hp, -⟩ | ⟨hp, -⟩ | ⟨i, -, hm⟩⟩
    · rw [hr] at hrst; cases hrst
    · exact absurd hp hi
    · exact absurd hp hd
    · exact absurd hp hi
    · rcases BlockMove_wait_or_advances hm hd with rfl | hrank
      · exact .inl (by simp)
      · exact .inr (by simpa using hrank)
  · intro s hl hs
    obtain ⟨t, ht⟩ := legal_next hl
    rw [ht, step_stuck hs ht]

end Sys2Proof.Proofs
end

section
/-! The encodings (rules R80 to R107): the CONF word and its layout, the status byte, the port forms,
the words of the instructions and the lines. -/

namespace Sys2Proof.Proofs

open Sys2Proof.Machine Sys2Proof.Safety

/-! ### Insertion into a word (rules R82, R120) -/

theorem insertBits_and (lo w : Nat) (m n : BitVec w) :
    insertBits lo w m &&& insertBits lo w n = insertBits lo w (m &&& n) := by
  simp [insertBits, BitVec.setWidth_and, BitVec.shiftLeft_and_distrib]

/-- Settles O27: the ranges lie inside the word and are disjoint, and `fmask` is all ones inserted. -/
theorem fieldExtractInsert : Obligations.FieldExtractInsert := by
  unfold Obligations.FieldExtractInsert
  intro L f g h hfg n
  have hf : (L.range f).lo + f.width ≤ 16 := by have := range_le h f; omega
  refine ⟨extractBits_insertBits hf n,
    extractBits_insertBits_disjoint (range_disjoint h hfg.symm) n, ?_⟩
  rw [fieldMask, insertBits_and, BitVec.and_allOnes]

/-! ### The low fourteen bits are the seven fields (rules R82, R127) -/

/-- The bits of a field in the word. -/
def fieldSpan (L : ConfLayout) (f : Field) : Finset Nat :=
  Finset.Ico (L.range f).lo ((L.range f).lo + f.width)

theorem mem_fieldSpan {L : ConfLayout} {f : Field} {i : Nat} :
    i ∈ fieldSpan L f ↔ (L.range f).lo ≤ i ∧ i < (L.range f).lo + f.width :=
  Finset.mem_Ico

theorem fieldSpan_disjoint {L : ConfLayout} (h : L.wellFormed = true) {f g : Field} (hfg : f ≠ g) :
    Disjoint (fieldSpan L f) (fieldSpan L g) := by
  rw [Finset.disjoint_left]
  intro i hf hg
  rw [mem_fieldSpan] at hf hg
  have := range_disjoint h hfg
  omega

/-- The seven disjoint spans have fourteen bits together, so they fill bits 13:0. -/
theorem biUnion_fieldSpan {L : ConfLayout} (h : L.wellFormed = true) :
    Field.all.toFinset.biUnion (fieldSpan L) = Finset.range 14 := by
  apply Finset.eq_of_subset_of_card_le
  · intro i hi
    obtain ⟨f, -, hf⟩ := Finset.mem_biUnion.1 hi
    rw [mem_fieldSpan] at hf
    have := range_le h f
    exact Finset.mem_range.2 (by omega)
  · have hcard : (Field.all.toFinset.biUnion (fieldSpan L)).card = 14 := by
      rw [Finset.card_biUnion fun f _ g _ hfg => fieldSpan_disjoint h hfg]
      simp only [fieldSpan, Nat.card_Ico, Nat.add_sub_cancel_left]
      decide
    rw [hcard, Finset.card_range]

/-- Words that agree on every field agree on bits 13:0. -/
theorem getLsbD_eq_of_fields {L : ConfLayout} (h : L.wellFormed = true) {v w : Word}
    (hvw : ∀ f : Field, extractBits (L.range f).lo f.width v = extractBits (L.range f).lo f.width w)
    {i : Nat} (hi : i < 14) : v.getLsbD i = w.getLsbD i := by
  have hmem : i ∈ Field.all.toFinset.biUnion (fieldSpan L) := by
    rw [biUnion_fieldSpan h]; exact Finset.mem_range.2 hi
  obtain ⟨f, -, hf⟩ := Finset.mem_biUnion.1 hmem
  obtain ⟨hlo, hhi⟩ := mem_fieldSpan.1 hf
  have hw : i - (L.range f).lo < f.width := by omega
  have hbit := congrArg (BitVec.getLsbD · (i - (L.range f).lo)) (hvw f)
  simpa only [getLsbD_extractBits, hw, decide_true, Bool.true_and, Nat.add_sub_cancel' hlo]
    using hbit

/-- `CODEC_MASK` has bits 13:0. -/
theorem getLsbD_codecMask {i : Nat} (hi : i < 16) : codecMask.getLsbD i = decide (i < 14) := by
  have key : ∀ i < 16, codecMask.getLsbD i = decide (i < 14) := by decide
  exact key i hi

theorem and_codecMask_eq_of_fields {L : ConfLayout} (h : L.wellFormed = true) {v w : Word}
    (hvw : ∀ f : Field,
      extractBits (L.range f).lo f.width v = extractBits (L.range f).lo f.width w) :
    v &&& codecMask = w &&& codecMask := by
  apply BitVec.eq_of_getLsbD_eq
  intro i hi
  rw [BitVec.getLsbD_and, BitVec.getLsbD_and, getLsbD_codecMask hi]
  by_cases h14 : i < 14
  · rw [getLsbD_eq_of_fields h hvw h14]
  · simp [h14]

theorem and_codecMask_eq_self {v : Word} (h : v.extractLsb' 14 2 = 0#2) : v &&& codecMask = v := by
  apply BitVec.eq_of_getLsbD_eq
  intro i hi
  rw [BitVec.getLsbD_and, getLsbD_codecMask hi]
  by_cases h14 : i < 14
  · simp [h14]
  · have h2 : i - 14 < 2 := by omega
    have hbit := congrArg (BitVec.getLsbD · (i - 14)) h
    simp only [BitVec.getLsbD_extractLsb', h2, decide_true, Bool.true_and,
      Nat.add_sub_cancel' (Nat.le_of_not_lt h14), BitVec.getLsbD_zero] at hbit
    rw [hbit, Bool.false_and]

/-! ### The encoding as a merge into an empty word (rules R122, R123) -/

theorem mergeConf_zero (L : ConfLayout) (c : Configuration) : mergeConf L 0 c = encodeConf L c := by
  simp [mergeConf]

theorem carries_encodeConf {L : ConfLayout} (h : L.wellFormed = true) (c : Configuration) :
    carries L (encodeConf L c) c := by
  rw [← mergeConf_zero]; exact carries_mergeConf h 0 c

theorem encodeConf_top {L : ConfLayout} (h : L.wellFormed = true) (c : Configuration) :
    (encodeConf L c).extractLsb' 14 2 = 0#2 := by
  rw [← mergeConf_zero, mergeConf_top h]; rfl

/-- The two masks share the word between them (rule R11). -/
theorem and_masks (v : Word) : v &&& factoryMask ||| v &&& codecMask = v := by
  have hmasks : factoryMask ||| codecMask = BitVec.allOnes 16 := by decide
  rw [← BitVec.and_or_distrib_left, hmasks, BitVec.and_allOnes]

/-- A word that carries a Configuration has its discriminant in every field. -/
theorem extractBits_of_carries {L : ConfLayout} {v : Word} {c : Configuration} (h : carries L v c)
    (f : Field) : extractBits (L.range f).lo f.width v = discOf c f := by
  simp only [carries, cfgRecOf, CfgRec.mk.injEq, ← extractBits_eq] at h
  obtain ⟨hpm, hhyst, houts, hpwmf, hsf, hfth, hwd⟩ := h
  cases f with
  | pm   => exact hpm.symm
  | hyst => exact hhyst.symm
  | outs => exact houts.symm
  | pwmf => exact hpwmf.symm
  | sf   => exact hsf.symm
  | fth  => exact hfth.symm
  | wd   => exact hwd.symm

/-- Words that carry one Configuration have the same low fourteen bits. -/
theorem and_codecMask_eq_of_carries {L : ConfLayout} (h : L.wellFormed = true) {v w : Word}
    {c : Configuration} (hv : carries L v c) (hw : carries L w c) :
    v &&& codecMask = w &&& codecMask :=
  and_codecMask_eq_of_fields h fun f =>
    (extractBits_of_carries hv f).trans (extractBits_of_carries hw f).symm

/-- A word's low fourteen bits are the encoding of the Configuration it carries (rule R127). -/
theorem encodeConf_of_carries {L : ConfLayout} (h : L.wellFormed = true) {v : Word}
    {c : Configuration} (hv : carries L v c) : encodeConf L c = v &&& codecMask :=
  calc encodeConf L c = encodeConf L c &&& codecMask :=
        (and_codecMask_eq_self (encodeConf_top h c)).symm
    _ = v &&& codecMask := and_codecMask_eq_of_carries h (carries_encodeConf h c) hv

theorem mergeConf_of_carries {L : ConfLayout} (h : L.wellFormed = true) {v : Word}
    {c : Configuration} (hv : carries L v c) : mergeConf L v c = v := by
  rw [mergeConf, encodeConf_of_carries h hv, and_masks]

/-- Settles O29: the word carries what it decodes to, and the fields fill bits 13:0. -/
theorem encodeOfDecoded : Obligations.EncodeOfDecoded := by
  unfold Obligations.EncodeOfDecoded
  intro L v c h hd
  have hv := decodeConf_eq_ok.1 hd
  exact ⟨encodeConf_of_carries h hv, mergeConf_of_carries h hv,
    fun w hw => and_codecMask_eq_of_carries h (decodeConf_eq_ok.1 hw) hv⟩

/-! ### DECODE, ENCODE and MERGE in EXEC (rules R121 to R123) -/

/-- Every pattern but 3 of the `outs` bits is a member, and the other enumerations are total. -/
theorem exists_carries {L : ConfLayout} {v : Word} (h : v.extractLsb' L.outs.lo 2 ≠ 3#2) :
    ∃ c, carries L v c := by
  cases hd : decodeConf L v with
  | ok c    => exact ⟨c, decodeConf_eq_ok.1 hd⟩
  | error e =>
    obtain ⟨o, ho⟩ := Option.ne_none_iff_exists'.1 (mt (outputStageOf_eq_none _).1 h)
    simp [decodeConf, extractBits_eq, ho] at hd

/-- Settles O13: EXEC ends with what `decodeConf` answers. -/
theorem decodeOperation : Obligations.DecodeOperation := by
  unfold Obligations.DecodeOperation
  intro s hp
  have he : exec .decode s =
      .next (endDecoded (decodeConf s.params.confLayout s.latches.raw) s) := by
    simp [exec, execDecode, hp]
  rw [he]
  refine ⟨fun h => ?_, fun c h => ?_, exists_carries⟩
  · rw [decodeConf_eq_error h]; rfl
  · rw [decodeConf_eq_ok.2 h]; rfl

/-- Settles O14: the word is `encodeConf`. -/
theorem encodeOperation : Obligations.EncodeOperation := by
  unfold Obligations.EncodeOperation
  intro s c hw hp hc
  refine ⟨encodeConf s.params.confLayout c, carries_encodeConf hw c, encodeConf_top hw c, ?_⟩
  have he : exec .encode s = .next (endRaw (encodeConf s.params.confLayout c) s) := by
    simp [exec, execEncode, hp, hc]
  rw [he]
  rfl

/-- Settles O15: the word is `mergeConf` of `raw_lat`. -/
theorem mergeOperation : Obligations.MergeOperation := by
  unfold Obligations.MergeOperation
  intro s c hw hp hc
  refine ⟨mergeConf s.params.confLayout s.latches.raw c, carries_mergeConf hw _ c,
    mergeConf_top hw _ c, ?_⟩
  have he : exec .merge s = .next (endRaw (mergeConf s.params.confLayout s.latches.raw c) s) := by
    simp [exec, execMerge, hp, hc]
  rw [he]
  rfl

/-! ### The status byte and the port forms (rules R93, R101, R102, R140) -/

theorem statusDecode_eq_ok_iff {L : StatusLayout} (h : L.wellFormed = true) {b : Byte}
    {m : Status} :
    statusDecode L b = .ok m ↔ b &&& L.smask = L.pattern m :=
  ⟨pattern_of_statusDecode, statusDecode_eq_ok h⟩

/-- Settles O32: the member answered is the one whose pattern the masked bits are. -/
theorem statusDecodeByMask : Obligations.StatusDecodeByMask := by
  unfold Obligations.StatusDecodeByMask
  refine fun L b h => ⟨fun m => statusDecode_eq_ok_iff h, fun e => statusDecode_error,
    fun b' m hb => ?_⟩
  rw [statusDecode_eq_ok_iff h, statusDecode_eq_ok_iff h, hb]

/-- A record stands for a Configuration exactly when it is that Configuration's port form. -/
theorem configurationOf_eq_some_iff {r : CfgRec} {c : Configuration} :
    configurationOf r = some c ↔ cfgRecOf c = r := by
  constructor
  · intro h
    unfold configurationOf at h
    split at h
    · cases h
    · rename_i o ho
      cases h
      simp [cfgRecOf, outputStageDisc_of _ _ ho]
  · rintro rfl
    exact configurationOf_cfgRecOf c

/-- Settles O44: the port forms and what they stand for are inverse to each other. -/
theorem portFormsAreUnique : Obligations.PortFormsAreUnique := by
  unfold Obligations.PortFormsAreUnique
  refine ⟨fun r => ⟨fun hr => ?_, ?_⟩, fun r c => configurationOf_eq_some_iff,
    fun n m => ⟨?_, ?_⟩⟩
  · obtain ⟨c, hc⟩ := configurationOf_eq_some hr
    exact ⟨c, configurationOf_eq_some_iff.1 hc⟩
  · rintro ⟨c, rfl⟩
    exact cfgRecOf_wellFormed c
  · rintro rfl
    exact statusCode_of n
  · rintro rfl
    exact statusOfCode_code m

/-! ### The words of the instructions (rules R98 to R100, R105) -/

/-- Settles O1: by the rows of the two tables. -/
theorem specWordsDecode : Obligations.SpecWordsDecode := by
  unfold Obligations.SpecWordsDecode
  exact ⟨rfl, rfl, rfl, rfl, rfl, rfl, rfl, rfl, rfl⟩

theorem decodeWord_encodeWord (i : Instr) : decodeWord (encodeWord i) = .ok i := by
  cases i with
  | decode            => exact Laws.WordDecodes.decode.2
  | encode            => exact Laws.WordDecodes.encode.2
  | merge             => exact Laws.WordDecodes.merge.2
  | config            => exact Laws.WordDecodes.config.2
  | setConfig         => exact Laws.WordDecodes.setConfig.2
  | statusDecode      => exact Laws.WordDecodes.statusDecode.2
  | magnetStatus      => exact Laws.WordDecodes.magnetStatus.2
  | zmco              => exact Laws.WordDecodes.zmco.2
  | guardMangConfig   => exact Laws.WordDecodes.guardMangConfig.2
  | guardPosition     => exact Laws.WordDecodes.guardPosition.2
  | burnMangConfig    => exact Laws.WordDecodes.burnMangConfig.2
  | burnPosition      => exact Laws.WordDecodes.burnPosition.2
  | cmdBurnMangConfig => exact Laws.WordDecodes.cmdBurnMangConfig.2
  | cmdBurnPosition   => exact Laws.WordDecodes.cmdBurnPosition.2

/-- Settles O2: by the lemma of each row. -/
theorem encodedWordDecodes : Obligations.EncodedWordDecodes := by
  unfold Obligations.EncodedWordDecodes
  exact fun i _ => decodeWord_encodeWord i

theorem decodeWord_burncmd {cmd : Byte} {i : Instr} (h : decodeWord (.burncmd cmd) = .ok i) :
    encodeWord i = .burncmd cmd := by
  have hrows : ∀ r ∈ burncmdTable, encodeWord r.2 = .burncmd r.1 := by decide
  simp only [decodeWord] at h
  split at h
  · rename_i r hr
    cases h
    have hcmd : r.1 = cmd := by simpa using List.find?_some hr
    rw [hrows r (List.mem_of_find?_eq_some hr), hcmd]
  · cases h

/-- Settles O3: a word that decodes is the word of its row, and the twelve rows of `OPSEL` leave four
values. -/
theorem decodedWordIsEncoding : Obligations.DecodedWordIsEncoding := by
  unfold Obligations.DecodedWordIsEncoding
  refine ⟨fun w i h => ?_, by decide⟩
  cases w with
  | opsel op    => exact (decodeWord_opsel_isOperation h).2
  | burncmd cmd => exact decodeWord_burncmd h

/-! ### The lines (rule R107) -/

theorem recordOnPort_of_recordOf {prev : Option Configuration} {cfg : RecordOperand} {r : CfgRec}
    (h : recordOf prev cfg = some r) : recordOnPort prev r cfg := by
  cases cfg with
  | record q     => exact (Option.some.inj h).symm
  | prev changes =>
    obtain ⟨c, hc, hr⟩ := Option.map_eq_some_iff.1 h
    exact ⟨c, hc, hr.symm⟩

theorem recordOf_isSome (prev : Option Configuration) (cfg : RecordOperand) :
    (recordOf prev cfg).isSome = true ↔ operandNamesPrev cfg = false ∨ prev.isSome = true := by
  cases cfg <;> simp [recordOf, operandNamesPrev]

/-- The ports of a line start its operation. -/
theorem linePorts_starts {prev : Option Configuration} {l : Line} {p : HostPorts}
    (h : linePorts prev l = some p) :
    p.rst = false ∧ p.start = true ∧ InstrWord.opsel p.op = encodeWord (lineInstr l) := by
  cases l
  case encode | merge | setConfig =>
    obtain ⟨r, -, rfl⟩ := Option.map_eq_some_iff.1 h
    exact ⟨rfl, rfl, rfl⟩
  all_goals
    cases h
    exact ⟨rfl, rfl, rfl⟩

theorem linePorts_operands {prev : Option Configuration} {l : Line} {p : HostPorts}
    (h : linePorts prev l = some p) : operandsOnPorts prev p l := by
  cases l
  case encode | setConfig =>
    obtain ⟨r, hr, rfl⟩ := Option.map_eq_some_iff.1 h
    exact recordOnPort_of_recordOf hr
  case merge =>
    obtain ⟨r, hr, rfl⟩ := Option.map_eq_some_iff.1 h
    exact ⟨rfl, recordOnPort_of_recordOf hr⟩
  all_goals
    cases h
    simp [operandsOnPorts]

theorem linePorts_isSome (prev : Option Configuration) (l : Line) :
    (linePorts prev l).isSome = true ↔ namesPrev l = false ∨ prev.isSome = true := by
  cases l
  case encode cfg | merge cfg | setConfig cfg =>
    simpa [linePorts, namesPrev] using recordOf_isSome prev cfg
  all_goals simp [linePorts, namesPrev]

/-- Settles O4: the `op` value is the operation's word, and only a record operand can have no value. -/
theorem lineSelectsOperation : Obligations.LineSelectsOperation := by
  unfold Obligations.LineSelectsOperation
  refine fun prev l => ⟨fun p h => ?_, linePorts_isSome prev l⟩
  obtain ⟨hrst, hstart, hop⟩ := linePorts_starts h
  refine ⟨hrst, hstart, ?_, linePorts_operands h⟩
  rw [hop, decodeWord_encodeWord]

/-! ### The command bytes in WR_BURN (rules R98, R170) -/

/-- Settles O6: each of the four is the burn write of its command byte. -/
theorem commandByteIsBurnWrite : Obligations.CommandByteIsBurnWrite := by
  unfold Obligations.CommandByteIsBurnWrite
  intro s hp
  have hmang := exec_command_byte hp (.inl ⟨rfl, rfl⟩)
  have hpos := exec_command_byte hp (.inr ⟨rfl, rfl⟩)
  obtain ⟨t, ht⟩ : ∃ t, wrBurn 0x40#8 s = .next t := writePhase_next _ _ _ s
  obtain ⟨u, hu⟩ : ∃ u, wrBurn 0x80#8 s = .next u := writePhase_next _ _ _ s
  refine ⟨?_, ?_, t, u, hmang.trans ht, hpos.trans hu⟩
  · rw [hmang]
    simp [exec, execBurnMangConfig, hp, cmdMangConfigByte]
  · rw [hpos]
    simp [exec, execBurnPosition, hp, cmdPositionByte]

end Sys2Proof.Proofs
end

section
/-! The codec's laws and SET_CONFIG as a whole (rules R121 to R123, R125, R126, R128, R129,
R225). -/

namespace Sys2Proof.Proofs

open Sys2Proof.Machine Sys2Proof.Safety

/-! ### Round trip, and the factory bits kept by every step -/

/-- Settles O28: the encoding and the merge carry the Configuration, and decode reads what a word
carries. -/
theorem confRoundTrip : Obligations.ConfRoundTrip := by
  unfold Obligations.ConfRoundTrip
  exact fun L c h => ⟨decodeConf_eq_ok.2 (carries_encodeConf h c),
    fun cur => decodeConf_eq_ok.2 (carries_mergeConf h cur c)⟩

/-- Settles O50: by the moves, of which only SET_CONFIG's in WR_CONF append a CONF write. -/
theorem confWritesStayMerged : Obligations.ConfWritesStayMerged := by
  unfold Obligations.ConfWritesStayMerged
  exact fun s t => factoryKept_step

/-! ### The two halves of a merge (rules R123, R128) -/

/-- The low fourteen bits of a merge are those of the encoding: both words carry `c`. -/
theorem mergeConf_low {L : ConfLayout} (h : L.wellFormed = true) (cur : Word) (c : Configuration) :
    (mergeConf L cur c).extractLsb' 0 14 = (encodeConf L c).extractLsb' 0 14 := by
  have hbit {i : Nat} (hi : i < 14) :
      (mergeConf L cur c).getLsbD i = (encodeConf L c).getLsbD i :=
    getLsbD_eq_of_fields h (fun f => (extractBits_of_carries (carries_mergeConf h cur c) f).trans
      (extractBits_encodeConf h c f).symm) hi
  ext i hi
  simp [← BitVec.getLsbD_eq_getElem, hbit hi]

/-- `FACTORY_MASK` keeps bits 15:14 and nothing else. -/
theorem and_factoryMask_eq_of_top {v w : Word} (h : v.extractLsb' 14 2 = w.extractLsb' 14 2) :
    v &&& factoryMask = w &&& factoryMask := by
  have hlow : ∀ i < 14, factoryMask.getLsbD i = false := by decide
  apply BitVec.eq_of_getLsbD_eq
  intro i hi
  rw [BitVec.getLsbD_and, BitVec.getLsbD_and]
  by_cases h14 : i < 14
  · simp [hlow i h14]
  · have h2 : i - 14 < 2 := by omega
    have hbit := congrArg (BitVec.getLsbD · (i - 14)) h
    simp only [BitVec.getLsbD_extractLsb', h2, decide_true, Bool.true_and,
      Nat.add_sub_cancel' (Nat.le_of_not_lt h14)] at hbit
    rw [hbit]

/-- The merge looks at the top two bits of the word observed alone, and a merge keeps those. -/
theorem mergeConf_mergeConf {L : ConfLayout} (h : L.wellFormed = true) (cur : Word)
    (c d : Configuration) : mergeConf L (mergeConf L cur d) c = mergeConf L cur c :=
  congrArg (· ||| encodeConf L c) (and_factoryMask_eq_of_top (mergeConf_top h cur d))

/-- Settles O30: the top half, the low half, and the two corner cases of the merge. -/
theorem mergeKeepsFactoryBits : Obligations.MergeKeepsFactoryBits := by
  unfold Obligations.MergeKeepsFactoryBits
  exact fun L cur c d h => ⟨mergeConf_top h cur c, mergeConf_low h cur c, mergeConf_zero L c,
    mergeConf_mergeConf h cur c d⟩

/-! ### decode fails closed (rules R121, R129) -/

/-- decode reads the seven ranges and nothing else. -/
theorem decodeConf_congr {L : ConfLayout} {v w : Word} (h : ∀ f : Field,
    extractBits (L.range f).lo f.width v = extractBits (L.range f).lo f.width w) :
    decodeConf L v = decodeConf L w := by
  have hpm : extractBits L.pm.lo 2 v = extractBits L.pm.lo 2 w := h .pm
  have hhyst : extractBits L.hyst.lo 2 v = extractBits L.hyst.lo 2 w := h .hyst
  have houts : extractBits L.outs.lo 2 v = extractBits L.outs.lo 2 w := h .outs
  have hpwmf : extractBits L.pwmf.lo 2 v = extractBits L.pwmf.lo 2 w := h .pwmf
  have hsf : extractBits L.sf.lo 2 v = extractBits L.sf.lo 2 w := h .sf
  have hfth : extractBits L.fth.lo 3 v = extractBits L.fth.lo 3 w := h .fth
  have hwd : extractBits L.wd.lo 1 v = extractBits L.wd.lo 1 w := h .wd
  simp only [decodeConf, hpm, hhyst, houts, hpwmf, hsf, hfth, hwd]

/-- A range inside bits 13:0 reads the same whatever the factory bits are. -/
theorem extractBits_and_codecMask {lo w : Nat} (h : lo + w ≤ 14) (v : Word) :
    extractBits lo w (v &&& codecMask) = extractBits lo w v := by
  conv_rhs => rw [← and_masks v, extractBits_or, extractBits_factoryMask h]
  simp

theorem extractBits_or_factoryMask {lo w : Nat} (h : lo + w ≤ 14) (v : Word) :
    extractBits lo w (v ||| factoryMask) = extractBits lo w v := by
  have hmask : extractBits lo w factoryMask = 0 := by
    rw [← BitVec.and_self (x := factoryMask), extractBits_factoryMask h]
  simp [extractBits_or, hmask]

/-- The one error of decode, and when it occurs. -/
theorem decodeConf_eq_error_iff {L : ConfLayout} {v : Word} {e : BlockError} :
    decodeConf L v = .error e ↔
      v.extractLsb' L.outs.lo 2 = 3#2 ∧ e = .codecBitPattern .outs 3 := by
  constructor
  · intro h
    by_cases h3 : v.extractLsb' L.outs.lo 2 = 3#2
    · exact ⟨h3, Except.error.inj (h.symm.trans (decodeConf_eq_error h3))⟩
    · obtain ⟨c, hc⟩ := exists_carries h3
      cases h.symm.trans (decodeConf_eq_ok.2 hc)
  · rintro ⟨h3, rfl⟩
    exact decodeConf_eq_error h3

/-- Settles O31: by the one error of decode, and the ranges it reads. -/
theorem decodeFailsClosed : Obligations.DecodeFailsClosed := by
  unfold Obligations.DecodeFailsClosed
  exact fun L v h => ⟨fun e => decodeConf_eq_error_iff,
    decodeConf_congr fun f => (extractBits_and_codecMask (range_le h f) v).symm,
    decodeConf_congr fun f => (extractBits_or_factoryMask (range_le h f) v).symm⟩

/-! ### What a step of SET_CONFIG does (rules R24, R125) -/

/-- SET_CONFIG is started with the record of `c`. -/
theorem step_setConfig_start {s : State} {c : Configuration} (hr : s.inputs.ports.rst = false)
    (hp : s.phase = .idle) (hs : s.inputs.ports.start = true) (hop : s.inputs.ports.op = 0x5#4)
    (hc : s.inputs.ports.cfgIn = cfgRecOf c) :
    step s = .next (environmentMove (startOp .rdConf s)) := by
  have hd : decodeWord (.opsel s.inputs.ports.op) = .ok .setConfig := by rw [hop]; rfl
  have hstart : startCfgOp .rdConf s = startOp .rdConf s := by simp [startCfgOp, hc]
  rw [step_of_fetch hr (fetchWord_idle hp hs) hd, exec_idle rfl hp, ← hstart]
  rfl

/-- SET_CONFIG of `c` is latched, and HOST does not reset the block, now or later. -/
def setConfigLatched (c : Configuration) (s : State) : Prop :=
  noReset s ∧ s.latches.op = 0x5#4 ∧ s.latches.cfg = cfgRecOf c

theorem setConfigLatched_environmentMove {c : Configuration} {s : State}
    (h : setConfigLatched c s) : setConfigLatched c (environmentMove s) := by
  obtain ⟨hr, hop, hc⟩ := h
  exact ⟨noReset_environmentMove hr, by simpa using hop, by simpa using hc⟩

theorem setConfigLatched_start {c : Configuration} {s : State} (hr : noReset s)
    (hop : s.inputs.ports.op = 0x5#4) (hc : s.inputs.ports.cfgIn = cfgRecOf c) :
    setConfigLatched c (environmentMove (startOp .rdConf s)) :=
  setConfigLatched_environmentMove ⟨hr, hop, hc⟩

/-- SET_CONFIG is over: the read was answered `r`, the write `w`, and the results and the events
since the history `h` are those of rule R125's table. -/
def setConfigOver (p : Params) (c : Configuration) (h : List Event)
    (r : Except TransportError Word) (w : WriteOutcome) (s : State) : Prop :=
  s.phase = .done ∧ s.result = (setConfigTable p c r w).1 ∧
    s.hist = h ++ (setConfigTable p c r w).2

section
variable {s : State} {c : Configuration} (hl : setConfigLatched c s)
include hl

theorem step_setConfig (hp : s.phase = .rdConf ∨ s.phase = .exec ∨ s.phase = .wrConf) :
    step s = afterBlock (execSetConfig s) := by
  obtain ⟨hr, hop, -⟩ := hl
  have hd : decodeWord (.opsel s.latches.op) = .ok .setConfig := by rw [hop]; rfl
  exact step_of_fetch hr.1
    (fetchWord_latched (by rcases hp with hp | hp | hp <;> simp [hp])) hd

theorem step_setConfig_rdConf (hp : s.phase = .rdConf) :
    step s = afterBlock (rdConf .exec s) := by
  rw [step_setConfig hl (.inl hp)]
  simp [execSetConfig, hp]

theorem step_setConfig_wrConf (hp : s.phase = .wrConf) :
    step s = afterBlock (writePhase .conf (mergeConf s.params.confLayout s.internal.cur c)
      (endRaw (mergeConf s.params.confLayout s.internal.cur c)) s) := by
  rw [step_setConfig hl (.inr (.inr hp))]
  obtain ⟨-, -, hc⟩ := hl
  simp [execSetConfig, hp, mergedWord, hc]

/-- While the transport has not answered, it waits (rule R233). -/
theorem step_setConfig_pending (hp : s.phase = .rdConf ∨ s.phase = .wrConf)
    (hb : s.inputs.bus = .pending) : step s = .next (environmentMove s) := by
  rcases hp with hp | hp
  · rw [step_setConfig_rdConf hl hp, rdConf, readPhase_pending hb]; rfl
  · rw [step_setConfig_wrConf hl hp, writePhase_pending hb]; rfl

/-- A read that succeeds is latched. -/
theorem step_setConfig_reads (hp : s.phase = .rdConf) (hb : s.inputs.bus = .ok) :
    step s = .next (environmentMove (setPhase .exec (setCur s.sensor.conf
      (record (.rd s.params.addrConf 2 (.ok (beBytes16 s.sensor.conf))) s)))) := by
  rw [step_setConfig_rdConf hl hp, rdConf, readPhase_ok hb]
  simp [regBytes, regAddr, regLen, afterBlock]

/-- A read that fails ends it, and no write follows. -/
theorem step_setConfig_readFails {te : TransportError} {left : Word} (hp : s.phase = .rdConf)
    (hb : s.inputs.bus = .err te left) (w : WriteOutcome) :
    ∃ t, step s = .next t ∧ setConfigOver s.params c s.hist (.error te) w t := by
  rw [step_setConfig_rdConf hl hp, rdConf, readPhase_err hb]
  exact ⟨_, rfl, by simp [setConfigOver, setConfigTable, failed, regAddr, regLen]⟩

theorem step_setConfig_exec (hp : s.phase = .exec) :
    step s = .next (environmentMove (setPhase .wrConf s)) := by
  rw [step_setConfig hl (.inr (.inl hp))]
  simp [execSetConfig, hp, afterBlock]

/-- The write, once answered, ends it. -/
theorem step_setConfig_writes {h : List Event} (hp : s.phase = .wrConf)
    (hb : s.inputs.bus ≠ .pending)
    (hh : s.hist = h ++ [.rd s.params.addrConf 2 (.ok (beBytes16 s.internal.cur))]) :
    ∃ t, step s = .next t ∧
      setConfigOver s.params c h (.ok s.internal.cur) (writeAnswer s.inputs.bus) t := by
  rw [step_setConfig_wrConf hl hp]
  cases hbus : s.inputs.bus with
  | pending     => exact absurd hbus hb
  | ok          =>
    rw [writePhase_ok hbus]
    exact ⟨_, rfl, by simp [setConfigOver, setConfigTable, writeAnswer, regAddr, hh]⟩
  | err te left =>
    rw [writePhase_err hbus]
    exact ⟨_, rfl, by simp [setConfigOver, setConfigTable, writeAnswer, failed, regAddr, hh]⟩

end

/-! ### SET_CONFIG from start to DONE, each request answered in its step (rule R125) -/

theorem runToDone_of_step {k : Nat} {s t : State} (hd : s.phase ≠ .done) (h : step s = .next t) :
    runToDone (k + 1) s = runToDone k t := by
  rw [runToDone, if_neg hd, h]

section
variable {s : State} {m : EnvMove} {rest : List EnvMove} (hf : s.future = m :: rest)
include hf

theorem environmentMove_inputs_cons : (environmentMove s).inputs = m.inputs := by
  rw [environmentMove_cons hf]

theorem environmentMove_sensor_cons : (environmentMove s).sensor = m.sensor.getD s.sensor := by
  rw [environmentMove_cons hf]

end

/-- From EXEC, the read latched: two steps, the second the answered write. -/
theorem runToDone_setConfig_exec {s : State} {c : Configuration} {h : List Event} {m : EnvMove}
    {rest : List EnvMove} (hl : setConfigLatched c s) (hp : s.phase = .exec)
    (hh : s.hist = h ++ [.rd s.params.addrConf 2 (.ok (beBytes16 s.internal.cur))])
    (hf : s.future = m :: rest) (hb : m.inputs.bus ≠ .pending) :
    ∃ t, runToDone 2 s = .next t ∧
      setConfigOver s.params c h (.ok s.internal.cur) (writeAnswer m.inputs.bus) t := by
  have hin := environmentMove_inputs_cons (s := setPhase .wrConf s) hf
  obtain ⟨t, ht, hover⟩ := step_setConfig_writes (h := h)
    (setConfigLatched_environmentMove (s := setPhase .wrConf s) hl) (by simp) (by rwa [hin])
    (by simpa using hh)
  refine ⟨t, ?_, by simpa [hin] using hover⟩
  rw [runToDone_of_step (by simp [hp]) (step_setConfig_exec hl hp),
    runToDone_of_step (by simp) ht, runToDone]

/-- From RD_CONF, the transport answering: one step if the read fails, else three. -/
theorem runToDone_setConfig_rdConf {s : State} {c : Configuration} {m2 m3 : EnvMove}
    {rest : List EnvMove} (hl : setConfigLatched c s) (hp : s.phase = .rdConf)
    (hb : s.inputs.bus ≠ .pending) (hf : s.future = m2 :: m3 :: rest)
    (hb3 : m3.inputs.bus ≠ .pending) :
    ∃ t, runToDone 3 s = .next t ∧ setConfigOver s.params c s.hist
      (answer s.inputs.bus s.sensor.conf) (writeAnswer m3.inputs.bus) t := by
  have hd : s.phase ≠ .done := by simp [hp]
  cases hbus : s.inputs.bus with
  | pending     => exact absurd hbus hb
  | err te left =>
    obtain ⟨t, ht, hover⟩ := step_setConfig_readFails hl hp hbus (writeAnswer m3.inputs.bus)
    exact ⟨t, by rw [runToDone_of_step hd ht, runToDone_of_done hover.1], hover⟩
  | ok          =>
    rw [runToDone_of_step hd (step_setConfig_reads hl hp hbus)]
    have hl' : setConfigLatched c (setPhase .exec (setCur s.sensor.conf
        (record (.rd s.params.addrConf 2 (.ok (beBytes16 s.sensor.conf))) s))) := hl
    obtain ⟨t, ht, hover⟩ := runToDone_setConfig_exec (h := s.hist) (m := m3) (rest := rest)
      (setConfigLatched_environmentMove hl') (by simp) (by simp) (by simp [hf]) hb3
    exact ⟨t, ht, by simpa [answer] using hover⟩

/-- Settles O55: the start, then RD_CONF with the first answer and WR_CONF with the third. -/
theorem setConfigRun : Obligations.SetConfigRun := by
  unfold Obligations.SetConfigRun
  intro s m1 m2 m3 rest r1 c hp hs hop hc hr hf hr1 hb1 hb3
  have hin := environmentMove_inputs_cons (s := startOp .rdConf s) hf
  have hsensor := environmentMove_sensor_cons (s := startOp .rdConf s) hf
  rw [runToDone_of_step (by simp [hp]) (step_setConfig_start hr.1 hp hs hop hc)]
  obtain ⟨t, ht, hover⟩ := runToDone_setConfig_rdConf (m2 := m2) (rest := rest)
    (setConfigLatched_start hr hop hc) (by simp) (by rwa [hin]) (by simp [hf]) hb3
  exact ⟨t, ht, by simpa [setConfigOver, hin, hsensor, hr1] using hover⟩

/-! ### SET_CONFIG however long the collaborators take (rule R128) -/

/-- What every step of a busy block keeps holds where the operation is over. -/
theorem runToDone_induct_busy {P : State → Prop}
    (hP : ∀ s t, P s → s.phase ≠ .done → step s = .next t → P t) {k : Nat} :
    ∀ {s t : State}, P s → runToDone k s = .next t → P t := by
  induction k with
  | zero => intro s t hs h; cases h; exact hs
  | succ k ih =>
    intro s t hs h
    by_cases hd : s.phase = .done
    · rw [runToDone_of_done hd] at h
      cases h
      exact hs
    · obtain ⟨u, hst, hu⟩ := (runToDone_succ_eq_next hd).1 h
      exact ih (hP s u hs hd hst) hu

/-- How far SET_CONFIG of `c` is, started with the history `h`: before its read, between its read
and its write, or over. -/
inductive SetConfigAt (c : Configuration) (h : List Event) (s : State) : Prop
  | reads : setConfigLatched c s → s.phase = .rdConf → s.hist = h → SetConfigAt c h s
  | writes : setConfigLatched c s → s.phase = .exec ∨ s.phase = .wrConf →
      s.hist = h ++ [.rd s.params.addrConf 2 (.ok (beBytes16 s.internal.cur))] →
      SetConfigAt c h s
  | ends (r : Except TransportError Word) (w : WriteOutcome) :
      setConfigOver s.params c h r w s → SetConfigAt c h s

theorem SetConfigAt_environmentMove {c : Configuration} {h : List Event} {s : State}
    (hs : SetConfigAt c h s) : SetConfigAt c h (environmentMove s) := by
  cases hs with
  | reads hl hp hh => exact .reads (setConfigLatched_environmentMove hl) (by simpa) (by simpa)
  | writes hl hp hh => exact .writes (setConfigLatched_environmentMove hl) (by simpa) (by simpa)
  | ends r w ho => exact .ends r w (by simpa [setConfigOver] using ho)

/-- A step waits where it is or goes on. -/
theorem SetConfigAt_step {c : Configuration} {h : List Event} {s t : State}
    (hs : SetConfigAt c h s) (hd : s.phase ≠ .done) (hst : step s = .next t) :
    SetConfigAt c h t := by
  have hparams := params_step hst
  cases id hs with
  | reads hl hp hh =>
    cases hbus : s.inputs.bus with
    | pending =>
      cases (step_setConfig_pending hl (.inl hp) hbus).symm.trans hst
      exact SetConfigAt_environmentMove hs
    | ok =>
      cases (step_setConfig_reads hl hp hbus).symm.trans hst
      exact SetConfigAt_environmentMove (.writes hl (.inl rfl) (by simp [hh]))
    | err te left =>
      obtain ⟨t', ht', hover⟩ := step_setConfig_readFails hl hp hbus .ok
      cases ht'.symm.trans hst
      exact .ends _ _ (by rwa [hparams, ← hh])
  | writes hl hp hh =>
    rcases hp with hp | hp
    · cases (step_setConfig_exec hl hp).symm.trans hst
      exact SetConfigAt_environmentMove (.writes hl (.inr rfl) hh)
    · by_cases hb : s.inputs.bus = .pending
      · cases (step_setConfig_pending hl (.inr hp) hb).symm.trans hst
        exact SetConfigAt_environmentMove hs
      · obtain ⟨t', ht', hover⟩ := step_setConfig_writes hl hp hb hh
        cases ht'.symm.trans hst
        exact .ends _ _ (by rwa [hparams])
  | ends r w ho => exact absurd ho.1 hd

/-- Where a started SET_CONFIG is over, its table holds for the answers it got. -/
theorem runToDone_setConfig {k : Nat} {s t : State} {c : Configuration} (hp : s.phase = .idle)
    (hs : s.inputs.ports.start = true) (hop : s.inputs.ports.op = 0x5#4)
    (hc : s.inputs.ports.cfgIn = cfgRecOf c) (hr : noReset s) (h : runToDone k s = .next t)
    (ht : t.phase = .done) : ∃ r w, setConfigOver s.params c s.hist r w t := by
  cases k with
  | zero =>
    cases h
    rw [hp] at ht
    cases ht
  | succ k =>
    rw [runToDone_of_step (by simp [hp]) (step_setConfig_start hr.1 hp hs hop hc)] at h
    have hstart : SetConfigAt c s.hist (environmentMove (startOp .rdConf s)) :=
      .reads (setConfigLatched_start hr hop hc) (by simp) (by simp)
    have hrun := runToDone_induct_busy
      (P := fun u => u.params = s.params ∧ SetConfigAt c s.hist u)
      (fun u v hu hd hst => ⟨(params_step hst).trans hu.1, SetConfigAt_step hu.2 hd hst⟩)
      ⟨by simp, hstart⟩ h
    obtain ⟨hparams, hat⟩ := hrun
    cases hat with
    | reads hl hp' hh => rw [ht] at hp'; cases hp'
    | writes hl hp' hh => rw [ht] at hp'; simp at hp'
    | ends r w ho => exact ⟨r, w, hparams ▸ ho⟩

/-- SET_CONFIG ends Ok only if both transactions did. -/
theorem setConfigTable_ok {p : Params} {c : Configuration} {r : Except TransportError Word}
    {w : WriteOutcome} (h : (setConfigTable p c r w).1.errCode = 0) :
    ∃ cur, r = .ok cur ∧ w = .ok := by
  cases r with
  | error te => simp [setConfigTable, failed, errorCode] at h
  | ok cur =>
    cases w with
    | ok     => exact ⟨cur, rfl, rfl⟩
    | err te => simp [setConfigTable, failed, errorCode] at h

/-- Settles O56: by rule R125's table, the word written being the merge with the word read. -/
theorem setConfigKeepsFactoryBits : Obligations.SetConfigKeepsFactoryBits := by
  unfold Obligations.SetConfigKeepsFactoryBits
  intro k s t c hw hp hs hop hc hr h ht hok
  obtain ⟨r, w, -, hres, hhist⟩ := runToDone_setConfig hp hs hop hc hr h ht
  rw [hres] at hok
  obtain ⟨cur, rfl, rfl⟩ := setConfigTable_ok hok
  have hL := confLayout_wellFormed hw
  have hword (v : Word) : be16 ((v >>> 8).setWidth 8) (v.setWidth 8) = v := wordOfBytes_beBytes16 v
  refine ⟨_, _, _, _, hhist, ?_⟩
  rw [hword, hword, hres]
  exact ⟨mergeConf_top hL cur c, mergeConf_low hL cur c, rfl⟩

end Sys2Proof.Proofs
end

section
/-! The status decoder as an operation (rules R140, R141). -/

namespace Sys2Proof.Proofs

open Sys2Proof.Machine

/-- In EXEC, STATUS_DECODE ends with what the decoder answers on the byte latched (rule R141). -/
theorem exec_statusDecode_of_exec {s : State} (hp : s.phase = .exec) :
    exec .statusDecode s =
      .next (endStatusDecoded (statusDecode s.params.statusLayout s.latches.byte) s) := by
  simp [exec, execStatusDecode, hp]

/-- Settles O18: the decoder answers the member whose pattern the masked byte is, the patterns of a
well-formed layout being distinct, and else its one error, which carries the whole byte. -/
theorem statusDecodeOperation : Obligations.StatusDecodeOperation := by
  unfold Obligations.StatusDecodeOperation
  intro s hw hp
  rw [exec_statusDecode_of_exec hp]
  refine ⟨fun m hm => ?_, fun hm => ?_⟩
  · rw [statusDecode_eq_ok hw hm]; rfl
  · rw [statusDecode_eq_error hm]; rfl

end Sys2Proof.Proofs
end

section
/-! The guard's invariants (rules R155, R164 to R167, R220, R223) and its pure parts: the precondition
functions and the two operations that are nothing but their verdicts (rules R156 to R161). -/

namespace Sys2Proof.Proofs

open Sys2Proof.Machine Sys2Proof.Safety

/-! ### The invariants -/

/-- Settles O48: each move keeps the reads fresh, and a burn write is appended only where they are. -/
theorem burnWritesStayGuarded : Obligations.BurnWritesStayGuarded := by
  unfold Obligations.BurnWritesStayGuarded
  exact fun s t h hst => guarded_step h hst

/-- Settles O49: a successful burn write leads to SETTLE, which is left by recording the delay. -/
theorem settleHoldKept : Obligations.SettleHoldKept := by
  unfold Obligations.SettleHoldKept
  exact fun s t hp hr h hst => holdKept_step hp hr h hst

/-! ### The verdicts -/

theorem checkMangConfig_eq (z : BitVec 2) :
    checkMangConfig z = if z = 0 then .ok () else .error .persistenceExhausted := by
  rw [checkMangConfig, ite_not]

/-- Of two bits, at least 3 is 3. -/
theorem checkPositionCounter_eq (z : BitVec 2) :
    checkPositionCounter z = if z = 3 then .error .maximumPersistsReached else .ok () := by
  have hz : 3 ≤ z ↔ z = 3 := by revert z; decide
  simp only [checkPositionCounter, hz]

theorem checkPositionMagnet_eq (m : Status) :
    checkPositionMagnet m = if m = .magnetDetected then .ok () else .error .magnetRequired := by
  simp only [checkPositionMagnet, isDetected, beq_iff_eq]

/-- The counter first, then the magnet (rule R159). -/
theorem guardPosition_eq (z : BitVec 2) (m : Status) : guardPosition z m =
    if z = 3 then .error .maximumPersistsReached
    else if m = .magnetDetected then .ok () else .error .magnetRequired := by
  rw [guardPosition, checkPositionCounter_eq]
  by_cases hz : z = 3
  · simp only [if_pos hz]
  · simp only [if_neg hz, checkPositionMagnet_eq]

/-- Settles O26: each function by its own equation. -/
theorem verdictTable : Obligations.VerdictTable := by
  unfold Obligations.VerdictTable
  exact ⟨checkMangConfig_eq, checkPositionCounter_eq, checkPositionMagnet_eq, guardPosition_eq⟩

/-! ### The pure guard operations -/

/-- The status port code 1 is MagnetDetected's, and no other's (rule R102). -/
theorem statusOfCode_eq_magnetDetected (n : BitVec 2) :
    statusOfCode n = .magnetDetected ↔ n = 1 := by
  revert n; decide

/-- Settles O21: EXEC ends with the verdict on `zin_lat`. -/
theorem guardMangConfigOperation : Obligations.GuardMangConfigOperation := by
  unfold Obligations.GuardMangConfigOperation
  intro s hp
  have he : exec .guardMangConfig s = .next (endVerdict (checkMangConfig s.latches.zin) s) := by
    simp [exec, execGuardMangConfig, hp]
  rw [he, checkMangConfig_eq]
  refine ⟨fun hz => ?_, fun hz => ?_⟩
  · rw [if_pos hz]; rfl
  · rw [if_neg hz]; rfl

/-- Settles O22: EXEC ends with the composite's verdict on `zin_lat` and `sin_lat`. -/
theorem guardPositionOperation : Obligations.GuardPositionOperation := by
  unfold Obligations.GuardPositionOperation
  intro s hp
  have he : exec .guardPosition s =
      .next (endVerdict (guardPosition s.latches.zin (statusOfCode s.latches.sin)) s) := by
    simp [exec, execGuardPosition, hp]
  rw [he, guardPosition_eq]
  refine ⟨fun hz => ?_, fun hz hs => ?_, fun hz hs => ?_⟩
  · rw [if_pos hz]; rfl
  · rw [if_neg (BitVec.ne_of_lt hz), if_neg (mt (statusOfCode_eq_magnetDetected _).1 hs)]; rfl
  · rw [if_neg (BitVec.ne_of_lt hz), if_pos ((statusOfCode_eq_magnetDetected _).2 hs)]; rfl

end Sys2Proof.Proofs
end

section
/-! The two burns, step by step (rules R162, R163, R170, R173). What a burn comes to is foretold in every
phase from the collaborators' answers still to come, and no step changes it. -/

namespace Sys2Proof.Proofs

open Sys2Proof.Machine Sys2Proof.Safety

/-! ### The two burns -/

/-- The two burn operations (rules R162, R163). -/
inductive Burn where
  | mangConfig | position

def Burn.instr : Burn → Instr
  | .mangConfig => .burnMangConfig
  | .position   => .burnPosition

/-- The `op` value that selects it (rule R100). -/
def Burn.op : Burn → BitVec 4
  | .mangConfig => 0xB#4
  | .position   => 0xC#4

/-- The command byte it writes (rule R98). -/
def Burn.cmd : Burn → Byte
  | .mangConfig => 0x40#8
  | .position   => 0x80#8

/-- What CHK_CNT asks of the counter (rules R156, R157). -/
def Burn.checkCounter : Burn → BitVec 2 → Except BlockError Unit
  | .mangConfig => checkMangConfig
  | .position   => checkPositionCounter

/-- The phase that follows when nothing fails (rule R170). -/
def Burn.next (b : Burn) : Phase → Phase
  | .rdZmco   => .chkCnt
  | .chkCnt   =>
    match b with
    | .mangConfig => .wrBurn
    | .position   => .rdStatus
  | .rdStatus => .chkMag
  | .chkMag   => .wrBurn
  | .wrBurn   => .settle
  | .settle | .done | .idle | .exec | .rdConf | .wrConf => .done

theorem decodeWord_burn (b : Burn) : decodeWord (.opsel b.op) = .ok b.instr := by
  cases b <;> rfl

theorem Burn.next_mem {b : Burn} {q : Phase} (h : q ∈ operationPhases b.instr) :
    b.next q = .done ∨ b.next q ∈ operationPhases b.instr := by
  revert h
  cases b <;> cases q <;> decide

/-! ### What a burn comes to -/

/-- The answers to a burn's reads and to its write. -/
structure Answers where
  counter : Except TransportError Byte
  status  : Except TransportError Byte
  write   : WriteOutcome

/-- The result registers at DONE, and events. -/
abbrev Ending := ResultRegs × List Event

/-- A check: go on, or end with the violation. -/
def orViolation (v : Except BlockError Unit) (e : Ending) : Ending :=
  match v with
  | .ok ()    => e
  | .error er => (failed er, [])

/-- A read of the 1-byte register at `addr`: go on with the byte, or end with the transport's
error. -/
def afterRead (addr : Byte) (x : Except TransportError Byte) (go : Byte → Ending) : Ending :=
  match x with
  | .error te => (failed (.transport te), [.rd addr 1 (.err te)])
  | .ok y     => ((go y).1, .rd addr 1 (.ok [y]) :: (go y).2)

/-- From WR_BURN on. -/
def Burn.fromWrite (b : Burn) (p : Params) (w : WriteOutcome) : Ending := burnTail p b.cmd w

/-- From CHK_MAG on, `y` being the status byte. -/
def Burn.fromMagnet (b : Burn) (p : Params) (w : WriteOutcome) (y : Byte) : Ending :=
  orViolation (magnetVerdict p.statusLayout y) (b.fromWrite p w)

/-- From RD_STATUS on. -/
def Burn.fromStatus (b : Burn) (p : Params) (t : Except TransportError Byte) (w : WriteOutcome) :
    Ending :=
  afterRead p.addrStatus t (b.fromMagnet p w)

/-- From CHK_CNT on, `z` being the counter. -/
def Burn.fromCounter (b : Burn) (p : Params) (t : Except TransportError Byte) (w : WriteOutcome)
    (z : BitVec 2) : Ending :=
  orViolation (b.checkCounter z)
    (match b with
     | .mangConfig => b.fromWrite p w
     | .position   => b.fromStatus p t w)

/-- From RD_ZMCO on: the whole operation. -/
def Burn.ending (b : Burn) (p : Params) (a : Answers) : Ending :=
  afterRead p.addrZmco a.counter (fun y => b.fromCounter p a.status a.write (mask2 p.zmcoLsb y))

/-- What is still to come in each phase. -/
def Burn.remains (b : Burn) (a : Answers) (s : State) : Ending :=
  match s.phase with
  | .rdZmco   => b.ending s.params a
  | .chkCnt   => b.fromCounter s.params a.status a.write s.internal.z
  | .rdStatus => b.fromStatus s.params a.status a.write
  | .chkMag   => b.fromMagnet s.params a.write s.internal.sb
  | .wrBurn   => b.fromWrite s.params a.write
  | .settle   => (clearedResult, [.dl 1])
  | .done | .idle | .exec | .rdConf | .wrConf => (s.result, [])

/-- What the burn comes to: its result and the whole history at DONE. -/
def Burn.foretold (b : Burn) (a : Answers) (s : State) : Ending :=
  ((b.remains a s).1, s.hist ++ (b.remains a s).2)

theorem foretold_environmentMove (b : Burn) (a : Answers) (s : State) :
    b.foretold a (environmentMove s) = b.foretold a s := by
  simp [Burn.foretold, Burn.remains]

theorem foretold_done (b : Burn) (a : Answers) {s : State} (hp : s.phase = .done) :
    b.foretold a s = (s.result, s.hist) := by
  simp [Burn.foretold, Burn.remains, hp]

/-! ### What an answered step of a burn does (rule R170) -/

/-- Burn `b` is in flight, and HOST does not reset the block, now or later. -/
def burning (b : Burn) (s : State) : Prop :=
  noReset s ∧ s.latches.op = b.op ∧ s.phase ∈ operationPhases b.instr

/-- In phase `q`, with the inputs `i` and the sensor's registers `r`, the collaborators answer, and
their answer is the one in `a`. -/
def answersIn (a : Answers) (q : Phase) (i : Inputs) (r : SensorRegs) : Prop :=
  match q with
  | .rdZmco   => i.bus ≠ .pending ∧ a.counter = answer i.bus r.zmco
  | .rdStatus => i.bus ≠ .pending ∧ a.status = answer i.bus r.status
  | .wrBurn   => i.bus ≠ .pending ∧ a.write = writeAnswer i.bus
  | .settle   => i.delayDone = true
  | .chkCnt | .chkMag | .done | .idle | .exec | .rdConf | .wrConf => True

/-- In the step to come the collaborators answer as in `a`, where they are asked. -/
def answersNow (a : Answers) (s : State) : Prop := answersIn a s.phase s.inputs s.sensor

/-- In the step to come a collaborator is asked and has not answered. -/
def burnWaits (s : State) : Prop :=
  (s.phase = .rdZmco ∨ s.phase = .rdStatus ∨ s.phase = .wrBurn) ∧ s.inputs.bus = .pending ∨
    s.phase = .settle ∧ s.inputs.delayDone = false

/-- What the block's part of a step of `b` comes to, from `s` to `u`. -/
structure BurnGoesOn (b : Burn) (a : Answers) (s u : State) : Prop where
  inputs   : u.inputs = s.inputs
  future   : u.future = s.future
  latches  : u.latches = s.latches
  phase    : u.phase = .done ∨ u.phase = b.next s.phase
  foretold : b.foretold a u = b.foretold a s

section
variable {b : Burn} {a : Answers} {s : State}

/-- An error ends the burn where nothing else is to come. -/
theorem BurnGoesOn_raise {e : BlockError} {v : State} {new : List Event}
    (hi : v.inputs = s.inputs) (hf : v.future = s.future) (hl : v.latches = s.latches)
    (hv : v.hist = s.hist ++ new) (hrem : b.remains a s = (failed e, new)) :
    BurnGoesOn b a s (raise e v) := by
  refine ⟨hi, hf, hl, .inl rfl, ?_⟩
  rw [foretold_done _ _ rfl, Burn.foretold, hrem, raise_hist, hv]
  rfl

theorem BurnGoesOn_checkPhase {v : Except BlockError Unit} {q : Phase} (hq : q = b.next s.phase)
    (hrem : b.remains a s = orViolation v (b.remains a (setPhase q s))) :
    BurnGoesOn b a s (checkPhase v q s) := by
  cases v with
  | error e => exact BurnGoesOn_raise rfl rfl rfl (by simp) hrem
  | ok _    => exact ⟨rfl, rfl, rfl, .inr hq, by rw [Burn.foretold, Burn.foretold, hrem]; rfl⟩

/-- A read that is answered ends the burn, or latches the byte `y` and goes on. -/
theorem readPhase_goesOn {r : Reg} {y : Byte} {go : List Byte → State → State}
    {cont : Byte → Ending} (n : InternalLatches) (hb : s.inputs.bus ≠ .pending)
    (hlen : regLen r = 1) (hy : regBytes s.sensor r = [y])
    (hrem : b.remains a s = afterRead (regAddr s.params r) (answer s.inputs.bus y) cont)
    (hgo : ∀ h, go [y] { s with hist := h } =
      { s with internal := n, phase := b.next s.phase, hist := h })
    (hcont : ∀ h,
      b.remains a { s with internal := n, phase := b.next s.phase, hist := h } = cont y) :
    ∃ u, readPhase r go s = .next u ∧ BurnGoesOn b a s u := by
  cases hbus : s.inputs.bus with
  | pending     => exact absurd hbus hb
  | ok          =>
    refine ⟨_, readPhase_ok hbus, ?_⟩
    rw [hy, hlen, record, hgo]
    refine ⟨rfl, rfl, rfl, .inr rfl, ?_⟩
    rw [Burn.foretold, Burn.foretold, hcont, hrem, hbus]
    simp [answer, afterRead]
  | err te left =>
    rw [hbus] at hrem
    exact ⟨_, readPhase_err hbus, BurnGoesOn_raise rfl rfl rfl rfl (by rw [hrem, hlen]; rfl)⟩

theorem rdZmco_goesOn (hp : s.phase = .rdZmco) (hb : s.inputs.bus ≠ .pending)
    (ha : a.counter = answer s.inputs.bus s.sensor.zmco) :
    ∃ u, rdZmco (fun _ t => setPhase .chkCnt t) s = .next u ∧ BurnGoesOn b a s u := by
  have hrem : b.remains a s = b.ending s.params a := by simp only [Burn.remains, hp]
  rw [Burn.ending, ha] at hrem
  refine readPhase_goesOn { s.internal with z := mask2 s.params.zmcoLsb s.sensor.zmco } hb rfl rfl
    hrem (fun _ => ?_) (fun _ => ?_) <;> rw [hp] <;> rfl

theorem rdStatus_goesOn (hp : s.phase = .rdStatus) (hb : s.inputs.bus ≠ .pending)
    (ha : a.status = answer s.inputs.bus s.sensor.status) :
    ∃ u, rdStatus .chkMag s = .next u ∧ BurnGoesOn b a s u := by
  have hrem : b.remains a s = b.fromStatus s.params a.status a.write := by
    simp only [Burn.remains, hp]
  rw [Burn.fromStatus, ha] at hrem
  refine readPhase_goesOn { s.internal with sb := s.sensor.status } hb rfl rfl hrem
    (fun _ => ?_) (fun _ => ?_) <;> rw [hp] <;> rfl

theorem wrBurn_goesOn (hp : s.phase = .wrBurn) (hb : s.inputs.bus ≠ .pending)
    (ha : a.write = writeAnswer s.inputs.bus) :
    ∃ u, wrBurn b.cmd s = .next u ∧ BurnGoesOn b a s u := by
  have hrem : b.remains a s = burnTail s.params b.cmd (writeAnswer s.inputs.bus) := by
    simp only [Burn.remains, hp, Burn.fromWrite, ha]
  cases hbus : s.inputs.bus with
  | pending     => exact absurd hbus hb
  | ok          =>
    refine ⟨_, wrBurn_ok _ hbus, rfl, rfl, rfl, .inr (by rw [hp]; rfl), ?_⟩
    rw [Burn.foretold, Burn.foretold, hrem, hbus]
    simp [Burn.remains, writeAnswer, burnTail]
  | err te left =>
    rw [hbus] at hrem
    exact ⟨_, wrBurn_err _ hbus, BurnGoesOn_raise rfl rfl rfl rfl hrem⟩

theorem settleDelay_goesOn (hp : s.phase = .settle) (hd : s.inputs.delayDone = true) :
    ∃ u, settleDelay s = .next u ∧ BurnGoesOn b a s u := by
  refine ⟨_, settleDelay_returns hd, rfl, rfl, rfl, .inl rfl, ?_⟩
  rw [foretold_done _ _ rfl]
  simp [Burn.foretold, Burn.remains, hp, burnSettleMs]

end

section
variable {b : Burn} {s : State} (hl : burning b s)
include hl

theorem burning_not_done : s.phase ≠ .done := by
  obtain ⟨-, -, hmem⟩ := hl
  intro hp
  rw [hp] at hmem
  revert hmem
  cases b <;> decide

theorem burning_phase : s.phase = .rdZmco ∨ s.phase = .chkCnt ∨ s.phase = .rdStatus ∨
    s.phase = .chkMag ∨ s.phase = .wrBurn ∨ s.phase = .settle := by
  obtain ⟨-, -, hmem⟩ := hl
  revert hmem
  cases b <;> cases s.phase <;> decide

/-- Outside WR_BURN the step is the operation's own. -/
theorem step_burning (hw : s.phase ≠ .wrBurn) : step s = afterBlock (exec b.instr s) := by
  obtain ⟨hr, hop, hmem⟩ := hl
  have hp : s.phase ∈ [Phase.exec, .rdConf, .wrConf, .rdStatus, .rdZmco, .chkCnt, .chkMag,
      .settle] := by
    revert hw hmem
    cases b <;> cases s.phase <;> decide
  exact step_of_fetch hr.1 (fetchWord_latched hp) (by rw [hop]; exact decodeWord_burn b)

theorem step_burning_rdZmco (hp : s.phase = .rdZmco) :
    step s = afterBlock (rdZmco (fun _ t => setPhase .chkCnt t) s) := by
  rw [step_burning hl (by simp [hp])]
  cases b
  · simp [Burn.instr, exec, execBurnMangConfig, hp]
  · simp [Burn.instr, exec, execBurnPosition, hp]

theorem step_burning_chkCnt (hp : s.phase = .chkCnt) : step s =
    afterBlock (.next (checkPhase (b.checkCounter s.internal.z) (b.next .chkCnt) s)) := by
  rw [step_burning hl (by simp [hp])]
  cases b
  · simp [Burn.instr, exec, execBurnMangConfig, hp, Burn.checkCounter, Burn.next]
  · simp [Burn.instr, exec, execBurnPosition, hp, Burn.checkCounter, Burn.next]

/-- Only BURN_POSITION reads STATUS. -/
theorem step_burning_rdStatus (hp : s.phase = .rdStatus) :
    step s = afterBlock (rdStatus .chkMag s) := by
  rw [step_burning hl (by simp [hp])]
  obtain ⟨-, -, hmem⟩ := hl
  cases b
  · simp [Burn.instr, operationPhases, hp] at hmem
  · simp [Burn.instr, exec, execBurnPosition, hp]

theorem step_burning_chkMag (hp : s.phase = .chkMag) : step s = afterBlock
    (.next (checkPhase (magnetVerdict s.params.statusLayout s.internal.sb) .wrBurn s)) := by
  rw [step_burning hl (by simp [hp])]
  obtain ⟨-, -, hmem⟩ := hl
  cases b
  · simp [Burn.instr, operationPhases, hp] at hmem
  · simp [Burn.instr, exec, execBurnPosition, hp]

/-- In WR_BURN the step is the command byte's. -/
theorem step_burning_wrBurn (hp : s.phase = .wrBurn) : step s = afterBlock (wrBurn b.cmd s) := by
  obtain ⟨hr, hop, -⟩ := hl
  have hc : burnCommand s.latches.op = some b.cmd := by
    rw [hop]
    cases b <;> rfl
  cases b with
  | mangConfig =>
    rw [step_of_fetch hr.1 (fetchWord_wrBurn hp hc) rfl,
      exec_command_byte (cmd := Burn.cmd .mangConfig) hp (.inl ⟨rfl, rfl⟩)]
  | position   =>
    rw [step_of_fetch hr.1 (fetchWord_wrBurn hp hc) rfl,
      exec_command_byte (cmd := Burn.cmd .position) hp (.inr ⟨rfl, rfl⟩)]

theorem step_burning_settle (hp : s.phase = .settle) : step s = afterBlock (settleDelay s) := by
  rw [step_burning hl (by simp [hp])]
  cases b
  · simp [Burn.instr, exec, execBurnMangConfig, hp]
  · simp [Burn.instr, exec, execBurnPosition, hp]

/-- While the collaborator asked has not answered, the step waits (rule R233). -/
theorem step_burning_waits (hw : burnWaits s) : step s = .next (environmentMove s) := by
  rcases hw with ⟨hp | hp | hp, hb⟩ | ⟨hp, hd⟩
  · rw [step_burning_rdZmco hl hp, rdZmco, readPhase_pending hb]; rfl
  · rw [step_burning_rdStatus hl hp, rdStatus, readPhase_pending hb]; rfl
  · rw [step_burning_wrBurn hl hp, wrBurn_pending _ hb]; rfl
  · rw [step_burning_settle hl hp, settleDelay_waits hd]; rfl

/-- An answered step goes on, and what the burn comes to stays as it is. -/
theorem step_burning_answered {a : Answers} (ha : answersNow a s) :
    ∃ u, step s = .next (environmentMove u) ∧ BurnGoesOn b a s u := by
  suffices h : ∃ o u, step s = afterBlock o ∧ o = .next u ∧ BurnGoesOn b a s u by
    obtain ⟨o, u, hst, rfl, hu⟩ := h
    exact ⟨u, hst, hu⟩
  rcases burning_phase hl with hp | hp | hp | hp | hp | hp <;>
    simp only [answersNow, answersIn, hp] at ha
  · obtain ⟨u, hu⟩ := rdZmco_goesOn (b := b) hp ha.1 ha.2
    exact ⟨_, u, step_burning_rdZmco hl hp, hu⟩
  · refine ⟨_, _, step_burning_chkCnt hl hp, rfl, BurnGoesOn_checkPhase (by rw [hp]) ?_⟩
    cases b <;> simp [Burn.remains, hp, Burn.fromCounter, Burn.next]
  · obtain ⟨u, hu⟩ := rdStatus_goesOn (b := b) hp ha.1 ha.2
    exact ⟨_, u, step_burning_rdStatus hl hp, hu⟩
  · refine ⟨_, _, step_burning_chkMag hl hp, rfl, BurnGoesOn_checkPhase (by rw [hp]; rfl) ?_⟩
    simp [Burn.remains, hp, Burn.fromMagnet]
  · obtain ⟨u, hu⟩ := wrBurn_goesOn (b := b) hp ha.1 ha.2
    exact ⟨_, u, step_burning_wrBurn hl hp, hu⟩
  · obtain ⟨u, hu⟩ := settleDelay_goesOn (b := b) (a := a) hp ha
    exact ⟨_, u, step_burning_settle hl hp, hu⟩

/-- The block is then at DONE, or the burn is in flight in the next phase. -/
theorem burning_goesOn {a : Answers} {u : State} (h : BurnGoesOn b a s u) :
    (environmentMove u).phase = .done ∨
      (environmentMove u).phase = b.next s.phase ∧ burning b (environmentMove u) := by
  obtain ⟨hr, hop, hmem⟩ := hl
  obtain ⟨hi, hf, hlat, hph, -⟩ := h
  rw [environmentMove_phase]
  by_cases hd : u.phase = .done
  · exact .inl hd
  · have hnext := hph.resolve_left hd
    refine .inr ⟨hnext, noReset_environmentMove (by rwa [noReset, hi, hf]), ?_, ?_⟩
    · rw [environmentMove_latches, hlat, hop]
    · rw [environmentMove_phase, hnext]
      exact (Burn.next_mem hmem).resolve_left (hnext ▸ hd)

end

end Sys2Proof.Proofs
end

section
/-! The two burns from start to DONE (rules R162 to R168): by the rules' tables where every request is
answered in its step, and what a refusal and an Ok mean however long the collaborators take. -/

namespace Sys2Proof.Proofs

open Sys2Proof.Machine Sys2Proof.Safety

/-! ### Each request answered in its step (rules R162, R163) -/

/-- From `s`, within `n` steps the burn is over, and has come to what was foretold. -/
def endsForetold (b : Burn) (a : Answers) (n : Nat) (s : State) : Prop :=
  ∃ t, runToDone n s = .next t ∧ t.phase = .done ∧ (t.result, t.hist) = b.foretold a s

theorem endsForetold_done (b : Burn) (a : Answers) (n : Nat) {s : State} (hp : s.phase = .done) :
    endsForetold b a n s :=
  ⟨s, runToDone_of_done hp, hp, (foretold_done b a hp).symm⟩

/-- In the phases of `b` from `q` on, one step each, the moves `ms` bring the answers in `a`. -/
def answersAlong (b : Burn) (a : Answers) : Phase → List EnvMove → Prop
  | q, []      => q = .done
  | q, m :: ms => (∀ r, answersIn a q m.inputs (m.sensor.getD r)) ∧ answersAlong b a (b.next q) ms

theorem endsForetold_step {b : Burn} {a : Answers} {n : Nat} {s : State} (hl : burning b s)
    (ha : answersNow a s)
    (h : ∀ u, u.future = s.future → (environmentMove u).phase = b.next s.phase →
      burning b (environmentMove u) → endsForetold b a n (environmentMove u)) :
    endsForetold b a (n + 1) s := by
  obtain ⟨u, hst, hu⟩ := step_burning_answered hl ha
  have hnext : endsForetold b a n (environmentMove u) := by
    rcases burning_goesOn hl hu with hd | ⟨hp, hl'⟩
    · exact endsForetold_done b a n hd
    · exact h u hu.future hp hl'
  obtain ⟨t, hrun, hd, hres⟩ := hnext
  refine ⟨t, ?_, hd, ?_⟩
  · rw [runToDone_of_step (burning_not_done hl) hst, hrun]
  · rw [hres, foretold_environmentMove, hu.foretold]

theorem endsForetold_of_answersAlong {b : Burn} {a : Answers} {rest : List EnvMove}
    (ms : List EnvMove) : ∀ {s : State}, burning b s → answersNow a s → s.future = ms ++ rest →
      answersAlong b a (b.next s.phase) ms → endsForetold b a (ms.length + 1) s := by
  induction ms with
  | nil =>
    intro s hl ha _ halong
    exact endsForetold_step hl ha fun u _ hp _ => endsForetold_done b a _ (hp.trans halong)
  | cons m ms ih =>
    intro s hl ha hf halong
    obtain ⟨hm, halong⟩ := halong
    refine endsForetold_step hl ha fun u hfu hp hl' => ih hl' ?_ ?_ (by rwa [hp])
    · rw [answersNow, hp, environmentMove_inputs_cons (hfu.trans hf),
        environmentMove_sensor_cons (hfu.trans hf)]
      exact hm u.sensor
    · rw [environmentMove_future, hfu, hf]
      rfl

theorem step_burn_start {b : Burn} {s : State} (hr : s.inputs.ports.rst = false)
    (hp : s.phase = .idle) (hs : s.inputs.ports.start = true) (hop : s.inputs.ports.op = b.op) :
    step s = .next (environmentMove (startOp .rdZmco s)) := by
  rw [step_of_fetch hr (fetchWord_idle hp hs) (by rw [hop]; exact decodeWord_burn b),
    exec_idle (by cases b <;> rfl) hp]
  cases b <;> rfl

theorem burning_start {b : Burn} {s : State} (hr : noReset s) (hop : s.inputs.ports.op = b.op) :
    burning b (environmentMove (startOp .rdZmco s)) := by
  refine ⟨noReset_environmentMove hr, by simpa [latchPorts] using hop, ?_⟩
  cases b <;> simp [Burn.instr, operationPhases]

/-- What a burn comes to is foretold at its start. -/
theorem foretold_start (b : Burn) (a : Answers) (s : State) :
    b.foretold a (environmentMove (startOp .rdZmco s)) =
      ((b.ending s.params a).1, s.hist ++ (b.ending s.params a).2) := by
  rw [foretold_environmentMove]
  rfl

/-- A burn whose every request is answered in its step, from start to DONE. -/
theorem runToDone_burn {b : Burn} {a : Answers} {s : State} {m : EnvMove} {ms rest : List EnvMove}
    (hp : s.phase = .idle) (hs : s.inputs.ports.start = true) (hop : s.inputs.ports.op = b.op)
    (hr : noReset s) (hf : s.future = m :: ms ++ rest)
    (halong : answersAlong b a .rdZmco (m :: ms)) :
    ∃ t, runToDone (ms.length + 2) s = .next t ∧ t.phase = .done ∧
      t.result = (b.ending s.params a).1 ∧ t.hist = s.hist ++ (b.ending s.params a).2 := by
  obtain ⟨hm, halong⟩ := halong
  have hf' : (startOp .rdZmco s).future = m :: (ms ++ rest) := hf
  obtain ⟨t, hrun, hd, hres⟩ := endsForetold_of_answersAlong (rest := rest) ms
    (burning_start (b := b) hr hop)
    (by rw [answersNow, environmentMove_inputs_cons hf', environmentMove_sensor_cons hf']
        simpa using hm s.sensor)
    (by rw [environmentMove_future, hf']; rfl) (by simpa using halong)
  rw [foretold_start] at hres
  obtain ⟨hres, hhist⟩ := Prod.mk.inj hres
  exact ⟨t, by rw [runToDone_of_step (by simp [hp]) (step_burn_start hr.1 hp hs hop), hrun], hd,
    hres, hhist⟩

theorem burnMangConfigTable_eq (p : Params) (a : Answers) :
    burnMangConfigTable p a.counter a.write = Burn.mangConfig.ending p a := by
  unfold burnMangConfigTable Burn.ending afterRead
  cases a.counter with
  | error te => rfl
  | ok y     =>
    simp only [Burn.fromCounter, Burn.checkCounter, checkMangConfig_eq]
    split_ifs <;> rfl

theorem burnPositionTable_eq (p : Params) (a : Answers) :
    burnPositionTable p a.counter a.status a.write = Burn.position.ending p a := by
  unfold burnPositionTable Burn.ending afterRead
  cases a.counter with
  | error te => rfl
  | ok y     =>
    simp only [Burn.fromCounter, Burn.checkCounter, checkPositionCounter_eq, Burn.fromStatus]
    by_cases hz : mask2 p.zmcoLsb y = 3
    · simp only [if_pos hz]; rfl
    · simp only [if_neg hz, orViolation]
      cases a.status with
      | error te => rfl
      | ok t     =>
        simp only [afterRead, Burn.fromMagnet, magnetVerdict]
        cases hd : statusDecode p.statusLayout t with
        | error e => rw [statusDecode_error hd]; rfl
        | ok m    => cases m <;> rfl

/-- Settles O53: the counter is read in the first step after the start, and the write is in the
third. -/
theorem burnMangConfigRun : Obligations.BurnMangConfigRun := by
  unfold Obligations.BurnMangConfigRun
  intro s m1 m2 m3 m4 rest r1 hp hs hop hr hf hr1 hb1 hb3 hd4
  rw [burnMangConfigTable_eq s.params
    ⟨answer m1.inputs.bus r1.zmco, .ok 0, writeAnswer m3.inputs.bus⟩]
  refine runToDone_burn (m := m1) (ms := [m2, m3, m4]) (rest := rest) hp hs hop hr hf ?_
  simp [answersAlong, answersIn, Burn.next, hr1, hb1, hb3, hd4]

/-- Settles O54: the reads are in the first and the third step after the start, the write is in the
fifth. -/
theorem burnPositionRun : Obligations.BurnPositionRun := by
  unfold Obligations.BurnPositionRun
  intro s m1 m2 m3 m4 m5 m6 rest r1 r3 hp hs hop hr hf hr1 hr3 hb1 hb3 hb5 hd6
  rw [burnPositionTable_eq s.params
    ⟨answer m1.inputs.bus r1.zmco, answer m3.inputs.bus r3.status, writeAnswer m5.inputs.bus⟩]
  refine runToDone_burn (m := m1) (ms := [m2, m3, m4, m5, m6]) (rest := rest) hp hs hop hr hf ?_
  simp [answersAlong, answersIn, Burn.next, hr1, hr3, hb1, hb3, hb5, hd6]

/-! ### However long the collaborators take -/

section
variable {b : Burn} {s : State} (hl : burning b s)
include hl

/-- Some answers are the ones of an answered step, and foretell after it what `a` does: they differ
from `a` at most in the one that this step has brought. -/
theorem exists_answersNow (hw : ¬ burnWaits s) (a : Answers) : ∃ a', answersNow a' s ∧
    ∀ u : State, u.phase = .done ∨ u.phase = b.next s.phase → b.foretold a' u = b.foretold a u := by
  rcases burning_phase hl with hp | hp | hp | hp | hp | hp <;>
    simp only [burnWaits, answersNow, answersIn, hp] at hw ⊢
  · refine ⟨{ a with counter := answer s.inputs.bus s.sensor.zmco }, ⟨by simpa using hw, rfl⟩, ?_⟩
    rintro u (hu | hu) <;> simp [Burn.foretold, Burn.remains, hu, Burn.next]
  · exact ⟨a, trivial, fun _ _ => rfl⟩
  · refine ⟨{ a with status := answer s.inputs.bus s.sensor.status }, ⟨by simpa using hw, rfl⟩, ?_⟩
    rintro u (hu | hu) <;> simp [Burn.foretold, Burn.remains, hu, Burn.next]
  · exact ⟨a, trivial, fun _ _ => rfl⟩
  · refine ⟨{ a with write := writeAnswer s.inputs.bus }, ⟨by simpa using hw, rfl⟩, ?_⟩
    rintro u (hu | hu) <;> simp [Burn.foretold, Burn.remains, hu, Burn.next]
  · exact ⟨a, by simpa using hw, fun _ _ => rfl⟩

/-- Whatever is foretold after a step was foretold before it, for some answers. -/
theorem exists_foretold_before {t : State} (hst : step s = .next t) (a : Answers) :
    (t.phase = .done ∨ burning b t) ∧ ∃ a', b.foretold a' s = b.foretold a t := by
  by_cases hw : burnWaits s
  · cases (step_burning_waits hl hw).symm.trans hst
    obtain ⟨hr, hop, hmem⟩ := hl
    exact ⟨.inr ⟨noReset_environmentMove hr, by simpa using hop, by simpa using hmem⟩,
      a, (foretold_environmentMove b a s).symm⟩
  · obtain ⟨a', ha', heq⟩ := exists_answersNow hl hw a
    obtain ⟨u, hst', hu⟩ := step_burning_answered hl ha'
    cases hst'.symm.trans hst
    refine ⟨(burning_goesOn hl hu).imp id And.right, a', ?_⟩
    rw [foretold_environmentMove, ← heq u hu.phase, hu.foretold]

end

/-- A burn that was in the state `s₀` is over or in flight in `s`, and whatever is foretold in `s` was
foretold in `s₀`, for some answers. -/
def foretoldSince (b : Burn) (s₀ s : State) : Prop :=
  (s.phase = .done ∨ burning b s) ∧ ∀ a, ∃ a', b.foretold a' s₀ = b.foretold a s

theorem foretoldSince_self {b : Burn} {s : State} (hl : burning b s) : foretoldSince b s s :=
  ⟨.inr hl, fun a => ⟨a, rfl⟩⟩

theorem foretoldSince_step {b : Burn} {s₀ s t : State} (h : foretoldSince b s₀ s)
    (hd : s.phase ≠ .done) (hst : step s = .next t) : foretoldSince b s₀ t := by
  obtain ⟨hl, hback⟩ := h
  have hbefore := exists_foretold_before (hl.resolve_left hd) hst
  refine ⟨(hbefore ⟨.ok 0, .ok 0, .ok⟩).1, fun a => ?_⟩
  obtain ⟨-, a', ha'⟩ := hbefore a
  obtain ⟨a'', ha''⟩ := hback a'
  exact ⟨a'', ha''.trans ha'⟩

/-- Where a started burn is over, it has come to its ending for some answers. -/
theorem exists_ending_of_runToDone {b : Burn} {k : Nat} {s t : State} (hp : s.phase = .idle)
    (hs : s.inputs.ports.start = true) (hop : s.inputs.ports.op = b.op) (hr : noReset s)
    (h : runToDone k s = .next t) (ht : t.phase = .done) :
    ∃ a, t.result = (b.ending s.params a).1 ∧ t.hist = s.hist ++ (b.ending s.params a).2 := by
  cases k with
  | zero =>
    cases h
    rw [hp] at ht
    cases ht
  | succ k =>
    rw [runToDone_of_step (by simp [hp]) (step_burn_start hr.1 hp hs hop)] at h
    obtain ⟨-, hback⟩ := runToDone_induct_busy (fun _ _ => foretoldSince_step)
      (foretoldSince_self (burning_start hr hop)) h
    obtain ⟨a, ha⟩ := hback ⟨.ok 0, .ok 0, .ok⟩
    rw [foretold_start, foretold_done _ _ ht] at ha
    obtain ⟨hres, hhist⟩ := Prod.mk.inj ha
    exact ⟨a, hres.symm, hhist.symm⟩

/-! ### What the endings say (rules R164 to R168) -/

/-- The reads that precede the write of `b`, meeting its precondition. -/
def Burn.permits (b : Burn) (p : Params) (reads : List Event) : Prop :=
  match b with
  | .mangConfig => ∃ y, mask2 p.zmcoLsb y = 0 ∧ reads = [.rd p.addrZmco 1 (.ok [y])]
  | .position   => ∃ y x, mask2 p.zmcoLsb y < 3 ∧
      statusDecode p.statusLayout x = .ok .magnetDetected ∧
      reads = [.rd p.addrZmco 1 (.ok [y]), .rd p.addrStatus 1 (.ok [x])]

/-- An error without any write. -/
def refuses (e : Ending) : Prop := e.1.errCode ≠ 0 ∧ ∀ x ∈ e.2, isWrite x = false

theorem refuses_failed (er : BlockError) {new : List Event} (h : ∀ x ∈ new, isWrite x = false) :
    refuses (failed er, new) :=
  ⟨by cases er <;> simp [failed, errorCode], h⟩

theorem refuses_cons {e : Ending} {x : Event} (hx : isWrite x = false) (h : refuses e) :
    refuses (e.1, x :: e.2) :=
  ⟨h.1, List.forall_mem_cons.2 ⟨hx, h.2⟩⟩

theorem orViolation_cases (v : Except BlockError Unit) (e : Ending) :
    refuses (orViolation v e) ∨ v = .ok () ∧ orViolation v e = e := by
  cases v with
  | error er => exact .inl (refuses_failed er (by simp))
  | ok _     => exact .inr ⟨rfl, rfl⟩

theorem afterRead_cases (addr : Byte) (x : Except TransportError Byte) (go : Byte → Ending) :
    refuses (afterRead addr x go) ∨
    ∃ y, afterRead addr x go = ((go y).1, .rd addr 1 (.ok [y]) :: (go y).2) := by
  cases x with
  | error te => exact .inl (refuses_failed _ (by simp [isWrite]))
  | ok y     => exact .inr ⟨y, rfl⟩

theorem magnetVerdict_ok {L : StatusLayout} {y : Byte} (h : magnetVerdict L y = .ok ()) :
    statusDecode L y = .ok .magnetDetected := by
  cases hd : statusDecode L y with
  | error e => simp [magnetVerdict, hd] at h
  | ok m    =>
    rw [magnetVerdict_of_decode hd, checkPositionMagnet_ok] at h
    rw [h]

/-- From RD_STATUS on, BURN_POSITION refuses, or has read MagnetDetected and goes to its write. -/
theorem fromStatus_refuses_or_writes (b : Burn) (p : Params) (t : Except TransportError Byte)
    (w : WriteOutcome) :
    refuses (b.fromStatus p t w) ∨ ∃ y, statusDecode p.statusLayout y = .ok .magnetDetected ∧
      b.fromStatus p t w =
        ((b.fromWrite p w).1, .rd p.addrStatus 1 (.ok [y]) :: (b.fromWrite p w).2) := by
  rcases afterRead_cases p.addrStatus t (b.fromMagnet p w) with h | ⟨y, h⟩
  · exact .inl h
  · rw [Burn.fromStatus, h]
    rcases orViolation_cases (magnetVerdict p.statusLayout y) (b.fromWrite p w) with hv | ⟨hv, he⟩
    · exact .inl (refuses_cons rfl hv)
    · exact .inr ⟨y, magnetVerdict_ok hv, by rw [Burn.fromMagnet, he]⟩

/-- A burn refuses, or its reads have met its precondition and it goes to its write. -/
theorem ending_refuses_or_writes (b : Burn) (p : Params) (a : Answers) :
    refuses (b.ending p a) ∨ ∃ reads, b.permits p reads ∧
      b.ending p a = ((b.fromWrite p a.write).1, reads ++ (b.fromWrite p a.write).2) := by
  rcases afterRead_cases p.addrZmco a.counter
    (fun y => b.fromCounter p a.status a.write (mask2 p.zmcoLsb y)) with h | ⟨y, h⟩
  · exact .inl h
  · rw [Burn.ending, h]
    cases b with
    | mangConfig =>
      rcases orViolation_cases (checkMangConfig (mask2 p.zmcoLsb y))
        (Burn.mangConfig.fromWrite p a.write) with hv | ⟨hv, he⟩
      · exact .inl (refuses_cons rfl hv)
      · refine .inr ⟨_, ⟨y, (checkMangConfig_ok _).1 hv, rfl⟩, ?_⟩
        simp only [Burn.fromCounter, Burn.checkCounter, he]
        rfl
    | position =>
      rcases orViolation_cases (checkPositionCounter (mask2 p.zmcoLsb y))
        (Burn.position.fromStatus p a.status a.write) with hv | ⟨hv, he⟩
      · exact .inl (refuses_cons rfl hv)
      · simp only [Burn.fromCounter, Burn.checkCounter, he]
        rcases fromStatus_refuses_or_writes .position p a.status a.write with hr | ⟨x, hx, hr⟩
        · exact .inl (refuses_cons rfl hr)
        · refine .inr ⟨_, ⟨y, x, (checkPositionCounter_ok _).1 hv, hx, rfl⟩, ?_⟩
          rw [hr]
          rfl

/-- Settles O57: an ending with a write has code 0, or code 1 and the write as its last event. -/
theorem refusedBurnWritesNothing : Obligations.RefusedBurnWritesNothing := by
  unfold Obligations.RefusedBurnWritesNothing
  intro k s t hp hs hop hr h ht hcode
  obtain ⟨b, hop⟩ : ∃ b : Burn, s.inputs.ports.op = b.op :=
    hop.elim (fun h => ⟨.mangConfig, h⟩) (fun h => ⟨.position, h⟩)
  obtain ⟨a, hres, hhist⟩ := exists_ending_of_runToDone hp hs hop hr h ht
  rcases ending_refuses_or_writes b s.params a with hno | ⟨reads, -, he⟩
  · exact ⟨_, hhist, hno.2⟩
  · rw [he, Burn.fromWrite] at hres hhist
    cases hw : a.write with
    | ok => simp [hres, hw, burnTail, clearedResult] at hcode
    | err te =>
      rcases hcode with hcode | ⟨-, pre, addr, n, te', hlast⟩
      · simp [hres, hw, burnTail, failed, errorCode] at hcode
      · simp [hhist, hw, burnTail, ← List.append_assoc] at hlast

/-- An Ok ending: the reads met the precondition, and the write was accepted. -/
theorem ending_ok {b : Burn} {p : Params} {a : Answers} (h : (b.ending p a).1.errCode = 0) :
    ∃ reads, b.permits p reads ∧
      (b.ending p a).2 = reads ++ [.wr p.addrBurn [b.cmd] .ok, .dl 1] := by
  rcases ending_refuses_or_writes b p a with hno | ⟨reads, hperm, he⟩
  · exact absurd h hno.1
  · rw [he, Burn.fromWrite] at h ⊢
    cases hw : a.write with
    | ok     => exact ⟨reads, hperm, rfl⟩
    | err te => simp [hw, burnTail, failed, errorCode] at h

/-- Settles O58: an Ok ending holds its reads, the accepted write and the delay, and nothing
else. -/
theorem okBurnServedDelay : Obligations.OkBurnServedDelay := by
  unfold Obligations.OkBurnServedDelay
  intro k s t hp hs hr h ht hok
  have key (b : Burn) (hop : s.inputs.ports.op = b.op) : ∃ reads, b.permits s.params reads ∧
      t.hist = s.hist ++ (reads ++ [.wr s.params.addrBurn [b.cmd] .ok, .dl 1]) := by
    obtain ⟨a, hres, hhist⟩ := exists_ending_of_runToDone hp hs hop hr h ht
    obtain ⟨reads, hperm, he⟩ := ending_ok (hres ▸ hok)
    exact ⟨reads, hperm, by rw [hhist, he]⟩
  constructor
  · intro hop
    obtain ⟨_, ⟨y, hy, rfl⟩, hhist⟩ := key .mangConfig hop
    exact ⟨y, hy, hhist⟩
  · intro hop
    obtain ⟨_, ⟨y, x, hy, hx, rfl⟩, hhist⟩ := key .position hop
    exact ⟨y, x, hy, hx, hhist⟩

end Sys2Proof.Proofs
end

section
/-! The errors and their codes (rules R181 to R189, R198, R199): where each error comes from, which
operation can end with which code, what `err_info` then holds, and the two refusals at the start. -/

namespace Sys2Proof.Proofs

open Sys2Proof.Machine Sys2Proof.Safety

/-! ### Where an error comes from (rules R181 to R187, R189) -/

/-- The instructions that reach the bus, the only ones a transport error can end (rule R182). -/
def busUsers : List Instr :=
  [.config, .setConfig, .magnetStatus, .zmco, .burnMangConfig, .burnPosition, .cmdBurnMangConfig,
   .cmdBurnPosition]

/-- The errors a move of instruction `i` from `s` can end with, each with its cause. -/
inductive Raised (i : Instr) (s : State) : BlockError → Prop
  | transport (te : TransportError) (left : Word) :
      i ∈ busUsers → s.inputs.bus = .err te left → Raised i s (.transport te)
  | codec : (i = .decode ∨ i = .config) → Raised i s (.codecBitPattern .outs 3)
  | status (b : Byte) :
      (s.phase = .exec ∧ i = .statusDecode ∧ b = s.latches.byte) ∨
        (s.phase = .exec ∧ i = .magnetStatus ∧ b = s.internal.sb) ∨
        (s.phase = .chkMag ∧ i = .burnPosition ∧ b = s.internal.sb) →
      Raised i s (.statusBitPattern b)
  | exhausted : (i = .guardMangConfig ∨ i = .burnMangConfig) → Raised i s .persistenceExhausted
  | maximum : (i = .guardPosition ∨ i = .burnPosition) → Raised i s .maximumPersistsReached
  | magnet : (i = .guardPosition ∨ i = .burnPosition) → Raised i s .magnetRequired
  | operand : readsCfg i = true → Raised i s .illegalOperand

/-- No operation starts at its end. -/
theorem firstPhase_ne_done (i : Instr) : firstPhase i ≠ .done := by
  cases i <;> decide

/-- What a move that enters DONE leaves in the result registers: an operation's Ok, or an error with its
cause. -/
theorem BlockMove_ends {i : Instr} {s u : State} (h : BlockMove i s u) (hs : s.phase ≠ .done)
    (hu : u.phase = .done) :
    (isOperation i = true ∧ u.result.errCode = 0 ∧ u.result.errInfo = 0) ∨
    ∃ e, Raised i s e ∧ u.result = failed e := by
  cases h
  case start => exact absurd hu (firstPhase_ne_done i)
  case wait => exact absurd hu hs
  case readStatus p hp hi hb => rcases hi with ⟨-, rfl⟩ | ⟨-, rfl⟩ <;> cases hu
  case readZmco hp hi hb => subst hi; exact .inl ⟨rfl, rfl, rfl⟩
  case endsRaw v hp hi => rcases hi with rfl | rfl <;> exact .inl ⟨rfl, rfl, rfl⟩
  case endsCfg c hp hi => rcases hi with rfl | rfl <;> exact .inl ⟨rfl, rfl, rfl⟩
  case endsStatus m hp hi => rcases hi with rfl | rfl <;> exact .inl ⟨rfl, rfl, rfl⟩
  case guardPasses hp hi => rcases hi with rfl | rfl <;> exact .inl ⟨rfl, rfl, rfl⟩
  case writesConf v hp hi hv hb => subst hi; exact .inl ⟨rfl, rfl, rfl⟩
  case settles hp hi hd => rcases hi with rfl | rfl <;> exact .inl ⟨rfl, rfl, rfl⟩
  case illegalOperand hc hp hw => exact .inr ⟨_, .operand hc, rfl⟩
  case readFails r te left hp hb =>
    have hi : i ∈ busUsers := by
      rcases hp with ⟨-, -, rfl | rfl⟩ | ⟨-, -, rfl | rfl⟩ | ⟨-, -, rfl | rfl | rfl⟩ <;> decide
    exact .inr ⟨_, .transport te left hi hb, rfl⟩
  case confWriteFails v te left hp hi hv hb =>
    exact .inr ⟨_, .transport te left (by subst hi; decide) hb, rfl⟩
  case burnWriteFails cmd te left hp hi hb =>
    have hi : i ∈ busUsers := by rcases hi with ⟨rfl | rfl, -⟩ | ⟨rfl | rfl, -⟩ <;> decide
    exact .inr ⟨_, .transport te left hi hb, rfl⟩
  case codecFails hp hi => exact .inr ⟨_, .codec hi, rfl⟩
  case statusFails b hp => exact .inr ⟨_, .status b hp, rfl⟩
  case guardFails e hp =>
    refine .inr ⟨e, ?_, rfl⟩
    rcases hp with ⟨-, rfl, rfl⟩ | ⟨-, rfl, rfl | rfl⟩ | ⟨-, rfl, rfl⟩ | ⟨-, rfl, rfl⟩ | ⟨-, rfl, rfl⟩
    · exact .exhausted (.inl rfl)
    · exact .maximum (.inl rfl)
    · exact .magnet (.inl rfl)
    · exact .exhausted (.inr rfl)
    · exact .maximum (.inr rfl)
    · exact .magnet (.inr rfl)
  all_goals cases hu

/-! ### Which operation can end with which code (rule R198) -/

theorem zero_mem_possibleCodes {i : Instr} (h : isOperation i = true) : 0 ∈ possibleCodes i := by
  revert h
  cases i <;> decide

/-- The code of an error is in the row of each instruction that can raise it. -/
theorem errorCode_mem_possibleCodes {i : Instr} {s : State} {e : BlockError} (h : Raised i s e) :
    errorCode e ∈ possibleCodes i := by
  cases h with
  | transport te left hi hb =>
    have key : ∀ j ∈ busUsers, (1 : BitVec 4) ∈ possibleCodes j := by decide
    exact key i hi
  | codec hi => rcases hi with rfl | rfl <;> decide
  | status b hi =>
    have key : ∀ j ∈ [Instr.statusDecode, .magnetStatus, .burnPosition],
        (3 : BitVec 4) ∈ possibleCodes j := by decide
    exact key i (by rcases hi with ⟨-, rfl, -⟩ | ⟨-, rfl, -⟩ | ⟨-, rfl, -⟩ <;> decide)
  | exhausted hi => rcases hi with rfl | rfl <;> decide
  | maximum hi => rcases hi with rfl | rfl <;> decide
  | magnet hi => rcases hi with rfl | rfl <;> decide
  | operand hi =>
    revert hi
    cases i <;> decide

/-- The `op` value of an operation (rule R100). -/
def opOf (i : Instr) : BitVec 4 :=
  match encodeWord i with
  | .opsel op  => op
  | .burncmd _ => 0

/-- Operation `i` in phase `p`, both collaborators answering: `v` is its CONF word, `z` its counter, `b`
its STATUS byte and `n` its status code, whether it was given them or has read them. -/
def inPhase (i : Instr) (p : Phase) (v : Word) (z : BitVec 2) (b : Byte) (n : BitVec 2) : State :=
  { State.reset with
    phase    := p
    latches  := { resetLatches with op := opOf i, raw := v, byte := b, zin := z, sin := n }
    internal := ⟨v, z, b⟩
    inputs   := { powerOnInputs with bus := .ok, delayDone := true } }

/-- The phase in which operation `i` makes the check that a burn makes in `p`. -/
def checkedIn (i : Instr) (p : Phase) : Phase := if p ∈ operationPhases i then p else .exec

/-- A state from which operation `i` ends with the code, where its row has that code: the last phase for
Ok, and for each error its cause (rule R181) in the phase that finds it. -/
def endingState (i : Instr) (code : BitVec 4) : State :=
  match code.toNat with
  | 1 =>
    { inPhase i (firstPhase i) 0 0 0 0 with
      inputs := { powerOnInputs with bus := .err ⟨0x05#8, 0⟩ 0 } }
  | 2 => inPhase i .exec 0x0300#16 0 0 0
  | 3 => inPhase i (checkedIn i .chkMag) 0 0 0x18#8 0
  | 4 => inPhase i (checkedIn i .chkCnt) 0 1 0 0
  | 5 => inPhase i (checkedIn i .chkCnt) 0 3 0 0
  | 6 => inPhase i (checkedIn i .chkMag) 0 0 0 0
  | 8 => drive { quietPorts with op := opOf i, cfgIn := ⟨0, 0, 3, 0, 0, 0, 0⟩ } State.reset
  | _ => inPhase i ((operationPhases i).getLastD .exec) 0 0 0 1

/-- The state is legal and operation `i` takes it to DONE with the code. -/
def endsWithCode (i : Instr) (code : BitVec 4) (s : State) : Bool :=
  legal s && s.phase != .done &&
  match exec i s with
  | .next t    => t.phase == .done && t.result.errCode == code
  | .fault _   => false
  | .refused _ => false

theorem endsWithCode_spec {i : Instr} {code : BitVec 4} {s : State}
    (h : endsWithCode i code s = true) :
    ∃ t, legal s = true ∧ exec i s = .next t ∧ s.phase ≠ .done ∧ t.phase = .done ∧
      t.result.errCode = code := by
  unfold endsWithCode at h
  cases hx : exec i s with
  | fault r   => simp [hx] at h
  | refused r => simp [hx] at h
  | next t    =>
    simp only [hx, Bool.and_eq_true, bne_iff_ne, beq_iff_eq] at h
    obtain ⟨⟨hl, hs⟩, ht, hc⟩ := h
    exact ⟨t, hl, rfl, hs, ht, hc⟩

/-- Every cell of rule R198's table, run on the model. -/
theorem endingState_endsWithCode {i : Instr} (h : isOperation i = true) :
    ∀ code ∈ possibleCodes i, endsWithCode i code (endingState i code) = true := by
  cases i
  case cmdBurnMangConfig => cases h
  case cmdBurnPosition => cases h
  all_goals decide

/-- Settles O41: an operation ends with Ok or with an error it can raise, and each cell of the table has
a run. -/
theorem errorCodesByOperation : Obligations.ErrorCodesByOperation := by
  unfold Obligations.ErrorCodesByOperation
  constructor
  · intro i s t h hs ht
    rcases BlockMove_ends (exec_move h) hs ht with ⟨hi, hcode, -⟩ | ⟨e, he, hres⟩
    · rw [hcode]
      exact zero_mem_possibleCodes hi
    · rw [hres]
      exact errorCode_mem_possibleCodes he
  · intro i hi code hc
    exact ⟨endingState i code, endsWithCode_spec (endingState_endsWithCode hi code hc)⟩

/-! ### What `err_info` holds (rule R199) -/

/-- The byte the status error reports: byte_lat for STATUS_DECODE, which is the one operation with `op`
0x6, else sb_lat. -/
theorem status_byte_eq {i : Instr} {s : State} {b : Byte} (hr : runs s i)
    (h : Raised i s (.statusBitPattern b)) :
    b = if s.latches.op = 0x6#4 then s.latches.byte else s.internal.sb := by
  cases h with
  | status _ hi =>
    rcases hi with ⟨hp, rfl, rfl⟩ | ⟨hp, rfl, rfl⟩ | ⟨hp, rfl, rfl⟩
    · rw [latched_op_eq hr (by simp [hp]) (by simp [hp]) rfl, if_pos rfl]
    · rw [latched_op_eq hr (by simp [hp]) (by simp [hp]) rfl, if_neg (by decide)]
    · rw [latched_op_eq hr (by simp [hp]) (by simp [hp]) rfl, if_neg (by decide)]

/-- Everything a step that enters DONE can leave in the result registers: Ok, the refusal of a reserved
`op`, or an error of the instruction it runs. -/
theorem step_ends {s t : State} (h : step s = .next t) (hs : s.phase ≠ .done)
    (ht : t.phase = .done) :
    (t.result.errCode = 0 ∧ t.result.errInfo = 0) ∨
    t.result = failed (.illegalOperation s.inputs.ports.op) ∨
    ∃ i e, runs s i ∧ Raised i s e ∧ t.result = failed e := by
  obtain ⟨u, rfl, hu⟩ := step_cases h
  rw [environmentMove_phase] at ht
  rw [environmentMove_result]
  rcases hu with ⟨-, rfl⟩ | ⟨-, ⟨-, -, rfl⟩ | ⟨hp, -⟩ | ⟨-, -, -, rfl⟩ | ⟨i, hr, hm⟩⟩
  · cases ht
  · exact absurd ht hs
  · exact absurd hp hs
  · exact .inr (.inl rfl)
  · rcases BlockMove_ends hm hs ht with ⟨-, hok⟩ | ⟨e, he, hres⟩
    · exact .inl hok
    · exact .inr (.inr ⟨i, e, hr, he, hres⟩)

/-- Settles O42: by the error that the step raises, if any; each has its own code. -/
theorem errorInfoByCode : Obligations.ErrorInfoByCode := by
  unfold Obligations.ErrorInfoByCode
  intro s t h hs ht
  rcases step_ends h hs ht with ⟨hcode, hinfo⟩ | hres | ⟨i, e, hr, he, hres⟩
  · simp [hcode, hinfo]
  · simp [hres, failed, errorCode, errorInfo]
  · rw [hres]
    cases he with
    | transport te left hi hb => simp [hb, failed, errorCode, errorInfo]
    | codec hi => simp [failed, errorCode, errorInfo, fieldId]
    | status b hi => simp [failed, errorCode, errorInfo, ← status_byte_eq hr (.status b hi)]
    | exhausted | maximum | magnet | operand => simp [failed, errorCode, errorInfo]

/-! ### The refusals at the start (rules R188, R189) -/

/-- IDLE has no request on either port. -/
theorem requests_idle {s : State} (h : s.phase = .idle) :
    busRequest s = none ∧ delayRequest s = none := by
  simp [busRequest, delayRequest, h]

/-- A start refused with `e` is over at once, with nothing in `hist` and no request before or after. -/
theorem refused_at_start {s : State} {e : BlockError} (hp : s.phase = .idle)
    (h : step s = .next (environmentMove (raise e (startOp .done s)))) :
    ∃ t, step s = .next t ∧ t.phase = .done ∧ t.result = failed e ∧ t.hist = s.hist ∧
      busRequest s = none ∧ delayRequest s = none ∧ busRequest t = none ∧ delayRequest t = none := by
  have ht : (environmentMove (raise e (startOp .done s))).phase = .done := by simp
  obtain ⟨hbs, hds⟩ := requests_idle hp
  obtain ⟨hbt, hdt⟩ := requests_done ht
  exact ⟨_, h, ht, by simp [failed], by simp, hbs, hds, hbt, hdt⟩

/-- Settles O11: the three operations are those that read `cfg_in`, and they check it first. -/
theorem illegalOperandRefused : Obligations.IllegalOperandRefused := by
  unfold Obligations.IllegalOperandRefused
  intro s hr hp hs hop hc
  obtain ⟨i, hd, ho, hi⟩ : ∃ i, decodeWord (.opsel s.inputs.ports.op) = .ok i ∧
      isOperation i = true ∧ readsCfg i = true := by
    rcases hop with h | h | h <;> rw [h]
    · exact ⟨.encode, rfl, rfl, rfl⟩
    · exact ⟨.merge, rfl, rfl, rfl⟩
    · exact ⟨.setConfig, rfl, rfl, rfl⟩
  refine refused_at_start (e := .illegalOperand) hp ?_
  rw [step_of_fetch hr (fetchWord_idle hp hs) hd, exec_idle ho hp]
  simp [hi, startCfgOp, CfgRec.wellFormed, hc, afterBlock]

/-- Settles O12: the four values decode to no row, so the step is the refusal. -/
theorem illegalOperationRefused : Obligations.IllegalOperationRefused := by
  unfold Obligations.IllegalOperationRefused
  intro s hr hp hs hop
  have hd := (decodedWordIsEncoding.2 s.inputs.ports.op).2 hop
  refine refused_at_start (e := .illegalOperation s.inputs.ports.op) hp ?_
  rw [step, blockStep_undecodable hr (fetchWord_idle hp hs) hd, undecodable, if_pos hp]
  rfl

end Sys2Proof.Proofs
end

section
/-! Termination (rule R230): every step of a started operation waits for a collaborator or takes it to
the next phase of its sequence, and weak fairness ends each wait. -/

namespace Sys2Proof.Proofs

open Sys2Proof.Machine Sys2Proof.Safety

/-! ### Waiting is owed by a collaborator (rule R233) -/

theorem mergedWord_isSome {s : State} (h : s.latches.cfg.wellFormed = true) :
    (mergedWord s).isSome = true := by
  obtain ⟨c, hc⟩ := configurationOf_eq_some h
  simp [mergedWord, hc]

/-- In each bus phase of the operation in flight a request is out. -/
theorem busRequest_isSome_of_inFlight {s : State} {j : Instr} (hr : s.inputs.ports.rst = false)
    (hj : inFlight s j) (hp : s.phase ∈ [Phase.rdConf, .wrConf, .rdStatus, .rdZmco, .wrBurn]) :
    (busRequest s).isSome = true := by
  obtain ⟨hdec, hmem, hcfg⟩ := hj
  obtain ⟨ho, henc⟩ := decodeWord_opsel_isOperation hdec
  simp only [List.mem_cons, List.not_mem_nil, or_false] at hp
  rcases hp with hp | hp | hp | hp | hp
  · simp [busRequest_rdConf hr hp]
  · have hread : readsCfg j = true := by
      rw [hp] at hmem
      revert hmem
      cases j <;> decide
    obtain ⟨v, hv⟩ := Option.isSome_iff_exists.1 (mergedWord_isSome (hcfg hread))
    simp [busRequest_wrConf hr hp hv]
  · simp [busRequest_rdStatus hr hp]
  · simp [busRequest_rdZmco hr hp]
  · have hburn : ∀ op, encodeWord j = .opsel op → (burnCommand op).isSome = true := by
      rw [hp] at hmem
      revert ho hmem
      cases j <;> decide
    obtain ⟨c, hc⟩ := Option.isSome_iff_exists.1 (hburn _ henc)
    simp [busRequest_wrBurn hr hp hc]

/-- A block that waits is stuck: the collaborator owes what it waits for. -/
theorem stuck_of_waits {s : State} {j : Instr} (hr : s.inputs.ports.rst = false)
    (hj : inFlight s j)
    (hp : s.phase ∈ [Phase.rdConf, .wrConf, .rdStatus, .rdZmco, .wrBurn, .settle])
    (hbus : s.phase ≠ .settle → s.inputs.bus = .pending)
    (hdelay : s.phase = .settle → s.inputs.delayDone = false) : stuck s := by
  by_cases hset : s.phase = .settle
  · exact .inr ⟨by simp [delayRequest_settle hr hset], hdelay hset⟩
  · exact .inl ⟨busRequest_isSome_of_inFlight hr hj (by simpa [hset] using hp), hbus hset⟩

theorem not_stuck_of_responsive {s : State} (h : responsive s.inputs) : ¬ stuck s := by
  obtain ⟨hbus, hdelay⟩ := h
  rintro (⟨-, hb⟩ | ⟨-, hd⟩)
  · exact hbus hb
  · simp [hdelay] at hd

/-! ### The phases of an operation, in order (rule R170) -/

/-- IDLE and the phases that the operation with this `op` value goes through before DONE; a reserved
value has none. -/
def phasesOf (op : BitVec 4) : List Phase :=
  .idle :: match decodeWord (.opsel op) with
    | .ok i    => operationPhases i
    | .error _ => []

theorem phasesOf_eq {op : BitVec 4} {i : Instr} (h : decodeWord (.opsel op) = .ok i) :
    phasesOf op = .idle :: operationPhases i := by
  simp only [phasesOf, h]

theorem phasesOf_nodup (op : BitVec 4) : (phasesOf op).Nodup := by
  revert op; decide

theorem done_notMem_phasesOf (op : BitVec 4) : Phase.done ∉ phasesOf op := by
  revert op; decide

theorem length_phasesOf_le (op : BitVec 4) : (phasesOf op).length ≤ 7 := by
  revert op; decide

theorem length_phasesOf_le_of_no_burn {op : BitVec 4} (hB : op ≠ 0xB#4) (hC : op ≠ 0xC#4) :
    (phasesOf op).length ≤ 4 := by
  revert op; decide

/-- How many moves from phase to phase the operation has to DONE at most. -/
def stepsLeft (op : BitVec 4) (p : Phase) : Nat := (phasesOf op).length - (phasesOf op).idxOf p

theorem stepsLeft_le_length (op : BitVec 4) (p : Phase) : stepsLeft op p ≤ (phasesOf op).length :=
  Nat.sub_le _ _

theorem stepsLeft_done (op : BitVec 4) : stepsLeft op .done = 0 := by
  rw [stepsLeft, List.idxOf_eq_length_iff.2 (done_notMem_phasesOf op), Nat.sub_self]

theorem stepsLeft_pos {op : BitVec 4} {p : Phase} (h : p ∈ phasesOf op) : 0 < stepsLeft op p :=
  Nat.sub_pos_of_lt (List.idxOf_lt_length_iff.2 h)

/-- The next phase in the sequence is one move nearer to DONE. -/
theorem stepsLeft_lt_of_adjacent {op : BitVec 4} {p q : Phase} (h : [p, q] <:+: phasesOf op) :
    stepsLeft op q < stepsLeft op p := by
  have hnodup := phasesOf_nodup op
  obtain ⟨pre, post, hl⟩ := h
  rw [← hl] at hnodup
  rw [stepsLeft, stepsLeft, ← hl]
  simp only [List.append_assoc, List.cons_append, List.nil_append, List.nodup_append',
    List.nodup_cons, List.disjoint_cons_right, List.mem_cons, not_or] at hnodup
  obtain ⟨-, ⟨⟨hpq, -⟩, -⟩, hp, hq, -⟩ := hnodup
  simp only [List.append_assoc, List.idxOf_append_of_notMem hp, List.idxOf_append_of_notMem hq,
    List.cons_append, List.nil_append, List.idxOf_cons_self, List.idxOf_cons_ne _ hpq,
    List.length_append, List.length_cons]
  omega

/-! ### What a step of a started operation does -/

/-- The operation that HOST selects at IDLE, and the one latched from then on. -/
def selectedOp (s : State) : BitVec 4 :=
  if s.phase = .idle then s.inputs.ports.op else s.latches.op

/-- Operation `op` is selected or in flight: a legal block at IDLE is started with it, elsewhere it is
the one latched, and HOST does not reset the block, now or later. -/
def underway (op : BitVec 4) (s : State) : Prop :=
  legal s = true ∧ noReset s ∧ (s.phase = .idle → s.inputs.ports.start = true) ∧ selectedOp s = op

/-- Short of DONE a legal block is in one of the operation's phases. -/
theorem phase_mem_phasesOf {s : State} (h : legal s = true) (hd : s.phase ≠ .done) :
    s.phase ∈ phasesOf (selectedOp s) := by
  by_cases hi : s.phase = .idle
  · simp [hi, phasesOf]
  · obtain ⟨j, hdec, hmem, -⟩ := inFlight_of_legal h hi hd
    rw [selectedOp, if_neg hi, phasesOf_eq hdec]
    exact List.mem_cons_of_mem _ hmem

theorem stepsLeft_pos_of_underway {s : State} {op : BitVec 4} (h : underway op s)
    (hd : s.phase ≠ .done) : 0 < stepsLeft op s.phase := by
  obtain ⟨hl, -, -, rfl⟩ := h
  exact stepsLeft_pos (phase_mem_phasesOf hl hd)

theorem operationPhases_eq_firstPhase_cons (i : Instr) :
    ∃ l, operationPhases i = firstPhase i :: l := by
  cases i <;> exact ⟨_, rfl⟩

/-- What a move out of a phase of an operation does: it waits, ends the operation, or goes on to the
next phase of the sequence; from WR_BURN, where it is the command byte's (rule R98), to SETTLE. -/
inductive Follows (i : Instr) (s u : State) : Prop
  | waits : u = s → s.phase ∈ [Phase.rdConf, .wrConf, .rdStatus, .rdZmco, .wrBurn, .settle] →
      (s.phase ≠ .settle → s.inputs.bus = .pending) →
      (s.phase = .settle → s.inputs.delayDone = false) → Follows i s u
  | ends : u.phase = .done → Follows i s u
  | goesOn {p q : Phase} : s.phase = p → u.phase = q → p ≠ .wrBurn →
      [p, q] <:+: operationPhases i → Follows i s u
  | burns : s.phase = .wrBurn → u.phase = .settle → Follows i s u

theorem BlockMove_follows {i : Instr} {s u : State} (h : BlockMove i s u) (hi : s.phase ≠ .idle)
    (hd : s.phase ≠ .done) : Follows i s u := by
  cases h
  case start ho hp hc => exact absurd hp hi
  case illegalOperand hc hp hw => exact absurd hp hi
  case finish hp => exact absurd hp hd
  case wait hp hbus hdelay => exact .waits rfl hp hbus hdelay
  case readConf hp hj hb =>
    rcases hj with rfl | rfl <;> exact .goesOn hp (setPhase_phase _ _) (by decide) (by decide)
  case readStatus p hp hj hb =>
    rcases hj with ⟨rfl, rfl⟩ | ⟨rfl, rfl⟩ <;>
      exact .goesOn hp (setPhase_phase _ _) (by decide) (by decide)
  case readCounter hp hj hb =>
    rcases hj with rfl | rfl <;> exact .goesOn hp (setPhase_phase _ _) (by decide) (by decide)
  case toWrConf hp hj =>
    subst hj
    exact .goesOn hp (setPhase_phase _ _) (by decide) (by decide)
  case mangPasses hp hj hz =>
    subst hj
    exact .goesOn hp (setPhase_phase _ _) (by decide) (by decide)
  case counterPasses hp hj hz =>
    subst hj
    exact .goesOn hp (setPhase_phase _ _) (by decide) (by decide)
  case magnetPasses hp hj hm =>
    subst hj
    exact .goesOn hp (setPhase_phase _ _) (by decide) (by decide)
  case writesBurn cmd hp hj hb => exact .burns hp rfl
  all_goals exact .ends rfl

/-- An operation that reaches WR_BURN goes on to SETTLE. -/
theorem wrBurn_settle_adjacent {i : Instr} (ho : isOperation i = true)
    (h : .wrBurn ∈ operationPhases i) : [Phase.wrBurn, .settle] <:+: operationPhases i := by
  revert ho h
  cases i <;> decide

/-- The step at IDLE starts the operation on the port: it goes to DONE or to the first phase. -/
theorem BlockMove_idle {i : Instr} {s u : State} (h : BlockMove i s u) (hp : s.phase = .idle) :
    u.latches.op = s.inputs.ports.op ∧ (u.phase = .done ∨ u.phase = firstPhase i) := by
  cases h
  case start => exact ⟨rfl, .inr rfl⟩
  case illegalOperand => exact ⟨rfl, .inl rfl⟩
  all_goals simp_all

/-- A move with an operation in flight is stuck, ends it, or goes on to the next phase of the operation
latched, in WR_BURN too. -/
theorem BlockMove_advances {i : Instr} {s u : State} (h : BlockMove i s u) (hrun : runs s i)
    (hl : legal s = true) (hr : s.inputs.ports.rst = false) (hi : s.phase ≠ .idle) :
    (stuck s ∧ u.phase = s.phase) ∨ u.phase = .done ∨
      [s.phase, u.phase] <:+: phasesOf s.latches.op := by
  have hd := runs_not_done hrun
  obtain ⟨j, hj⟩ := inFlight_of_legal hl hi hd
  have hadjacent {k : Instr} {p q : Phase} (hk : decodeWord (.opsel s.latches.op) = .ok k)
      (h : [p, q] <:+: operationPhases k) : [p, q] <:+: phasesOf s.latches.op := by
    rw [phasesOf_eq hk]
    exact h.trans (List.suffix_cons _ _).isInfix
  cases BlockMove_follows h hi hd with
  | waits hu hp hbus hdelay => exact .inl ⟨stuck_of_waits hr hj hp hbus hdelay, by rw [hu]⟩
  | ends hu => exact .inr (.inl hu)
  | goesOn hp hq hw hin =>
    rw [hp, hq]
    exact .inr (.inr (hadjacent (runs_latched hrun hi (by rwa [hp])) hin))
  | burns hp hq =>
    obtain ⟨hdec, hmem, -⟩ := hj
    have ho := (decodeWord_opsel_isOperation hdec).1
    rw [hp] at hmem ⊢
    rw [hq]
    exact .inr (.inr (hadjacent hdec (wrBurn_settle_adjacent ho hmem)))

/-- A step of a started operation keeps it latched, and is stuck, ends it, or goes on to the phase next
in its sequence. -/
theorem step_follows {s t : State} {op : BitVec 4} (h : underway op s) (hd : s.phase ≠ .done)
    (hst : step s = .next t) : t.latches.op = op ∧
      ((stuck s ∧ t.phase = s.phase) ∨ t.phase = .done ∨ [s.phase, t.phase] <:+: phasesOf op) := by
  obtain ⟨hl, ⟨hr, -⟩, hstart, rfl⟩ := h
  obtain ⟨u, rfl, hu⟩ := step_cases hst
  rw [environmentMove_phase, environmentMove_latches]
  rcases hu with ⟨hrst, -⟩ | ⟨-, ⟨hp, hs, -⟩ | ⟨hp, -⟩ | ⟨hp, -, -, rfl⟩ | ⟨i, hrun, hm⟩⟩
  · rw [hr] at hrst; cases hrst
  · rw [hstart hp] at hs; cases hs
  · exact absurd hp hd
  · exact ⟨by rw [selectedOp, if_pos hp]; rfl, .inr (.inl rfl)⟩
  · by_cases hi : s.phase = .idle
    · obtain ⟨hop, hphase⟩ := BlockMove_idle hm hi
      rw [selectedOp, if_pos hi]
      refine ⟨hop, .inr (hphase.imp id fun hfirst => ?_)⟩
      obtain ⟨l, hphases⟩ := operationPhases_eq_firstPhase_cons i
      rw [hi, hfirst, phasesOf_eq (runs_idle hrun hi).2, hphases]
      exact ⟨[], l, rfl⟩
    · rw [selectedOp, if_neg hi, BlockMove_latches hm hi]
      exact ⟨rfl, BlockMove_advances hm hrun hl hr hi⟩

/-- A started operation stays the one started, and each step is stuck in its phase or is a move nearer
to DONE. -/
theorem underway_step {s t : State} {op : BitVec 4} (h : underway op s) (hd : s.phase ≠ .done)
    (hst : step s = .next t) : underway op t ∧
      ((stuck s ∧ t.phase = s.phase) ∨ stepsLeft op t.phase < stepsLeft op s.phase) := by
  obtain ⟨hop, hmove⟩ := step_follows h hd hst
  have hpos := stepsLeft_pos_of_underway h hd
  obtain ⟨hl, hr, hstart, -⟩ := h
  have hidle := step_phase_ne_idle hst hr.1 hd hstart
  refine ⟨⟨legal_step hl hst, noReset_step hr hst, fun hp => absurd hp hidle,
    by rw [selectedOp, if_neg hidle, hop]⟩, hmove.imp id ?_⟩
  rintro (hdone | hin)
  · rwa [hdone, stepsLeft_done]
  · exact stepsLeft_lt_of_adjacent hin

/-! ### Collaborators that answer at once -/

/-- Where no step is stuck, as many steps as moves are left reach DONE. -/
theorem runToDone_underway {k : Nat} {op : BitVec 4} : ∀ {s : State}, underway op s →
    alwaysResponsive s → stepsLeft op s.phase ≤ k →
    ∃ t, runToDone k s = .next t ∧ t.phase = .done := by
  induction k with
  | zero =>
    intro s hs _ hk
    by_cases hd : s.phase = .done
    · exact ⟨s, rfl, hd⟩
    · exact absurd (stepsLeft_pos_of_underway hs hd) (Nat.not_lt.2 hk)
  | succ k ih =>
    intro s hs ha hk
    by_cases hd : s.phase = .done
    · exact ⟨s, runToDone_of_done hd, hd⟩
    · obtain ⟨t, ht⟩ := legal_next hs.1
      obtain ⟨hu, hmove⟩ := underway_step hs hd ht
      have hlt := hmove.resolve_left fun hw => not_stuck_of_responsive ha.1 hw.1
      rw [runToDone_of_step hd ht]
      exact ih hu (alwaysResponsive_step ha ht) (by omega)

/-! ### Weakly fair collaborators -/

/-- Some run to DONE goes from phase to phase at most `n` times. -/
def endsWithin (n : Nat) (s : State) : Prop :=
  ∃ k t, runToDone k s = .next t ∧ t.phase = .done ∧ phaseMoves k s ≤ n

theorem phaseMoves_of_step {k : Nat} {s t : State} (hd : s.phase ≠ .done) (h : step s = .next t) :
    phaseMoves (k + 1) s = (if t.phase = s.phase then 0 else 1) + phaseMoves k t := by
  rw [phaseMoves, if_neg hd, h]

theorem endsWithin_done {n : Nat} {s : State} (hd : s.phase = .done) : endsWithin n s :=
  ⟨0, s, rfl, hd, Nat.zero_le n⟩

/-- A waiting step is no move. -/
theorem endsWithin_of_wait {n : Nat} {s t : State} (hd : s.phase ≠ .done) (hst : step s = .next t)
    (hp : t.phase = s.phase) (h : endsWithin n t) : endsWithin n s := by
  obtain ⟨k, u, hrun, hu, hk⟩ := h
  refine ⟨k + 1, u, by rw [runToDone_of_step hd hst, hrun], hu, ?_⟩
  rwa [phaseMoves_of_step hd hst, if_pos hp, Nat.zero_add]

/-- A step nearer to DONE is at most one move. -/
theorem endsWithin_of_step {n m : Nat} {s t : State} (hd : s.phase ≠ .done) (hst : step s = .next t)
    (hn : n < m) (h : endsWithin n t) : endsWithin m s := by
  obtain ⟨k, u, hrun, hu, hk⟩ := h
  refine ⟨k + 1, u, by rw [runToDone_of_step hd hst, hrun], hu, ?_⟩
  rw [phaseMoves_of_step hd hst]
  split <;> omega

/-- With weakly fair collaborators the block is not stuck for ever. -/
theorem exists_not_stuck {s : State} (hf : weaklyFair s) :
    ∃ m, ∀ t, runSteps m s = .next t → ¬ stuck t := by
  by_contra h
  push Not at h
  exact not_hangs_of_weaklyFair hf ⟨0, fun m _ => h m⟩

/-- By induction on the moves left, and within a phase on `m`: a block that is not stuck after `m`
steps has left its phase by then. -/
theorem endsWithin_stepsLeft {op : BitVec 4} {s : State} {m : Nat} (hs : underway op s)
    (hf : weaklyFair s) (hm : ∀ t, runSteps m s = .next t → ¬ stuck t) :
    endsWithin (stepsLeft op s.phase) s := by
  by_cases hd : s.phase = .done
  · exact endsWithin_done hd
  · obtain ⟨t, ht⟩ := legal_next hs.1
    have hft := weaklyFair_step ht hf
    obtain ⟨hu, ⟨hstuck, hp⟩ | hlt⟩ := underway_step hs hd ht
    · match m, hm with
      | 0, hm => exact absurd hstuck (hm s rfl)
      | m + 1, hm =>
        refine endsWithin_of_wait hd ht hp (hp ▸ endsWithin_stepsLeft (m := m) hu hft ?_)
        simpa only [runSteps_of_step ht] using hm
    · obtain ⟨m', hm'⟩ := exists_not_stuck hft
      exact endsWithin_of_step hd ht hlt (endsWithin_stepsLeft hu hft hm')
termination_by (stepsLeft op s.phase, m)
decreasing_by
  · rw [hp]; exact Prod.Lex.right _ (Nat.lt_succ_self m)
  · exact Prod.Lex.left _ _ hlt

/-! ### Every started operation ends -/

/-- An operation started at IDLE has at most 4 moves to DONE if it is no burn. -/
theorem stepsLeft_selectedOp_le {s : State} (hp : s.phase = .idle)
    (hB : s.inputs.ports.op ≠ 0xB#4) (hC : s.inputs.ports.op ≠ 0xC#4) :
    stepsLeft (selectedOp s) s.phase ≤ 4 := by
  refine (stepsLeft_le_length _ _).trans ?_
  rw [selectedOp, if_pos hp]
  exact length_phasesOf_le_of_no_burn hB hC

/-- Settles O52: each step that is not stuck is a move nearer to DONE, the sequence has at most 7 phases
with IDLE, at most 4 without a burn, and weak fairness ends each wait. -/
theorem operationsEnd : Obligations.OperationsEnd := by
  unfold Obligations.OperationsEnd
  have hseven (s : State) : stepsLeft (selectedOp s) s.phase ≤ 7 :=
    (stepsLeft_le_length _ _).trans (length_phasesOf_le _)
  constructor
  · intro s hl hr ha hstart
    have hs : underway (selectedOp s) s := ⟨hl, hr, hstart, rfl⟩
    exact ⟨runToDone_underway hs ha (hseven s),
      fun hp hB hC => runToDone_underway hs ha (stepsLeft_selectedOp_le hp hB hC)⟩
  · intro s hl hr hf hstart
    obtain ⟨m, hm⟩ := exists_not_stuck hf
    obtain ⟨k, t, hrun, ht, hk⟩ := endsWithin_stepsLeft ⟨hl, hr, hstart, rfl⟩ hf hm
    exact ⟨k, t, hrun, ht, hk.trans (hseven s),
      fun hp hB hC => hk.trans (stepsLeft_selectedOp_le hp hB hC)⟩

end Sys2Proof.Proofs
end
